-- ==== Sys2Proof/Word.lean ====
section
/-! DEFINITION. The words of the ASCII line framer and accumulator: the widths of `00_scope.md` section 5 and of the Wire
Message's fields (`10_state.md` R20). All quantities are unsigned (R14). -/

namespace Sys2Proof

/-- A byte, and a character of the text format: 8 bits (R14). -/
abbrev Byte := BitVec 8

/-- A node address (R20). -/
abbrev Address := BitVec 8

/-- The priority field, 4 bits (R20, R22). -/
abbrev Priority := BitVec 4

/-- The Parameter Group Number, 24 bits (R20, R21). -/
abbrev Pgn := BitVec 24

/-- The operand `capacity` of ENCODE and the length it returns: `CAP_W` = 16 bits (R107, D29). -/
abbrev Capacity := BitVec 16

/-- The opaque handle of a byte source: `SRC_ID_W` = 8 bits (R29, D29). -/
abbrev SrcId := BitVec 8

/-- The opaque handle of a handler: `HND_ID_W` = 8 bits (R30, D29). -/
abbrev HndId := BitVec 8

/-- A line: a finite sequence of bytes, first byte at index 0 (R15). -/
abbrev Line := List Byte

end Sys2Proof
end

