-- ==== Sys2Proof/Config.lean ====
section
/-! DEFINITION. The parameters an implementation fixes (`00_scope.md` R7 to R13) and the free value of the registers
that a reset leaves unspecified (`10_state.md` R40). The values this hardware takes are `Machine.hw`
(`Sys2Proof/Machine/Parameters.lean`). -/

namespace Sys2Proof

/-- The parameters of `00_scope.md` section 5; "a model may quantify over the parameter within the stated constraint".
`HDR_LEN` is no parameter (R10): it is the literal 24. -/
structure Params where
  /-- `MARKER`, the start marker (R7). -/
  marker : Byte
  /-- `TERM`, the terminator the pump passes to READ_LINE (R11). -/
  term : Byte
  /-- `LINE_CAP`, the data bytes the Line Buffer keeps (R8). -/
  lineCap : Nat
  /-- `MAX_PAYLOAD`, the largest payload length of a Wire Message (R9, R23). -/
  maxPayload : Nat
  /-- `0 <= MAX_PAYLOAD <= 255`, "so that a length fits 8 bits" (R9). -/
  maxPayload_le : maxPayload ≤ 255
  /-- `TS_PLACEHOLDER`, the ten characters ENCODE writes for the timestamp (R12). -/
  tsPlaceholder : List Byte
  /-- `HexFallback` (R13, U1): the value of a hex field that holds a character which is no hex digit, from the field's
  characters. It is truncated to the field's width where it is used. -/
  hexFallback : List Byte → Nat

/-- The other constraints of the parameter table of `00_scope.md`. -/
abbrev Params.Valid (c : Params) : Prop :=
  c.marker ≠ c.term ∧ 1 ≤ c.lineCap ∧ c.tsPlaceholder.length = 10

/-- The free values: the `n`-th byte that a reset leaves unspecified (R40 "unspecified", U12 "any value"; log 9). It has
no value that Lean can compute, so nothing proved of the model rests on one. -/
opaque Config.freeByte (n : Nat) : Byte

end Sys2Proof
end

