-- ==== Sys2Proof/Machine/Operands.lean ====
section
/-! DEFINITION. The operand forms: the hexadecimal fields of `30_encoding.md` section 3 (R97 to R101), the ranges of a
line `s[a..b)` (`00_scope.md` R15) and the payload pairs (R55, R157). -/

namespace Sys2Proof.Machine

/-- The space character, 0x20 (R94, R103). -/
def space : Byte := 0x20

/-- The value of a hexadecimal digit character, `none` for any other byte: the table of `hexval` (R97). Letter case is
ignored here and nowhere else (R100). -/
def hexDigit? (ch : Byte) : Option Nat :=
  if 0x30 ≤ ch.toNat ∧ ch.toNat ≤ 0x39 then some (ch.toNat - 0x30)
  else if 0x41 ≤ ch.toNat ∧ ch.toNat ≤ 0x46 then some (ch.toNat - 0x41 + 10)
  else if 0x61 ≤ ch.toNat ∧ ch.toNat ≤ 0x66 then some (ch.toNat - 0x61 + 10)
  else none

/-- The validity bit of `hexval` (R97). -/
def isHexDigit (ch : Byte) : Bool := (hexDigit? ch).isSome

/-- R99: "start from 0 and for each character in order compute `v <- (v << 4) | hexval(c).value`", an invalid
character counting as nibble 0 (R98). -/
def foldHex (cs : List Byte) : Nat :=
  cs.foldl (fun v ch => v * 16 + (hexDigit? ch).getD 0) 0

/-- Reading (a) of U1, the default (R13, R98): each character that is no hex digit contributes the nibble 0. -/
def nibbleZeroFallback (cs : List Byte) : Nat := foldHex cs

/-- Reading (b) of U1: a field with any bad character is 0. -/
def fieldZeroFallback (_cs : List Byte) : Nat := 0

/-- Reading (c) of U1: the value of the longest valid prefix of the field. -/
def longestPrefixFallback (cs : List Byte) : Nat := foldHex (cs.takeWhile isHexDigit)

/-- `hexfield` (R99): the digits' value, most significant digit first (R54); a field with a character that is no hex
digit has the value `HexFallback` gives it (R98, R155). -/
def hexField (c : Params) (cs : List Byte) : Nat :=
  if cs.all isHexDigit then foldHex cs else c.hexFallback cs

/-- `HEXDIG(n)`: the `n`-th character of `0123456789ABCDEF` (R101). -/
def hexDigitChar (n : Nat) : Byte :=
  if n < 10 then BitVec.ofNat 8 (0x30 + n) else BitVec.ofNat 8 (0x41 + (n - 10))

/-- `HEXk(v)`: the `k` upper-case digits of `v[4k-1:0]`, most significant first (R101). -/
def hexDigits : Nat → Nat → List Byte
  | 0, _ => []
  | k + 1, v => hexDigitChar (v / 16 ^ k % 16) :: hexDigits k v

/-- The range `s[a..b)` of a line (R15). -/
def slice (s : Line) (a b : Nat) : List Byte := (s.drop a).take (b - a)

/-- The payload section read "in consecutive 2-hex-digit groups" (R157): pair number `i` is `payload[i]`, the first
character its high nibble (R55); a last group of one character is dropped (R159). -/
def payloadPairs (c : Params) : List Byte → List Byte
  | hi :: lo :: rest => BitVec.ofNat 8 (hexField c [hi, lo]) :: payloadPairs c rest
  | _ => []

/-- There are half as many bytes as characters, rounded down (R157, R159). -/
theorem length_payloadPairs (c : Params) : ∀ cs : List Byte, (payloadPairs c cs).length = cs.length / 2
  | [] => by simp [payloadPairs]
  | [_] => by simp [payloadPairs]
  | hi :: lo :: rest => by
    simp only [payloadPairs, List.length_cons, length_payloadPairs c rest]
    omega

end Sys2Proof.Machine
end

