-- ==== Sys2Proof/Machine/Parameters.lean ====
section
/-! DEFINITION. The values this hardware takes for the parameters: the defaults of `00_scope.md` section 5 (log 12). -/

namespace Sys2Proof.Machine

/-- The default `TS_PLACEHOLDER`, the ten characters `000000.000` (R12, D8). -/
def defaultPlaceholder : List Byte :=
  [0x30, 0x30, 0x30, 0x30, 0x30, 0x30, 0x2E, 0x30, 0x30, 0x30]

/-- The parameters of this hardware: `MARKER` = `A` (R7), `TERM` = line feed (R11), `LINE_CAP` = 300 (R8),
`MAX_PAYLOAD` = 223 (R9), `TS_PLACEHOLDER` (R12), `HexFallback` nibble 0 per character (R13, R98). -/
def hw : Params where
  marker := 0x41
  term := 0x0A
  lineCap := 300
  maxPayload := 223
  maxPayload_le := by decide
  tsPlaceholder := defaultPlaceholder
  hexFallback := nibbleZeroFallback

end Sys2Proof.Machine
end

