-- ==== Sys2Proof/Syntax.lean ====
section
/-! DEFINITION. The syntax: the Wire Message (`10_state.md` R20) and one constructor for each row of
`spec/opcode_table.json`: the eight commands of `30_encoding.md` R107 and the line record of R90. -/

namespace Sys2Proof

/-- A Wire Message, "the decoded/encodable unit" (R20). `plen` is the length of `payload` (`WireMessage.plen`); the
record has no timestamp (R20, D30). "`payload.length` never exceeds the maximum" (R23): a record with `plen > MAX_PAYLOAD`
cannot be written down, "a list of bytes with a proof of its bound" (R23, R192, D31, U4), for whatever value the parameter
`MAX_PAYLOAD` has (R9). -/
structure WireMessage (maxPayload : Nat) where
  /-- the Parameter Group Number -/
  pgn : Pgn
  /-- the originating node address -/
  source : Address
  /-- the target node address -/
  destination : Address
  /-- the priority, 4 bits, passed through unmasked (R22) -/
  priority : Priority
  /-- the payload bytes, `payload[0]` first -/
  payload : List Byte
  /-- the invariant of the record (R23) -/
  payload_le : payload.length ≤ maxPayload := by decide
deriving DecidableEq, Repr

/-- The field `plen` of R20: "the source writes it `payload.length`". -/
abbrev WireMessage.plen {maxPayload : Nat} (m : WireMessage maxPayload) : Nat := m.payload.length

/-- The Wire Messages of this hardware: the parameter at the value it takes (R9, log 12). -/
abbrev Message : Type := WireMessage Machine.hw.maxPayload

/-- The instructions: one constructor per row of `spec/opcode_table.json`. -/
inductive Instr where
  /-- NOP, code 0 (R248) -/
  | nop
  /-- ATTACH_SOURCE `source`, code 1 (R240) -/
  | attachSource (source : SrcId)
  /-- DETACH_SOURCE, code 2 (R242) -/
  | detachSource
  /-- SET_DEFAULT_SOURCE_ADDRESS `addr`, code 3 (R244) -/
  | setDefaultSourceAddress (addr : Address)
  /-- SET_HANDLER `callback`, code 4 (R246) -/
  | setHandler (callback : HndId)
  /-- PUMP_ONCE, code 5 (R210) -/
  | pumpOnce
  /-- DECODE `len`, `line`, code 6 (R150); `len` is the length of `line` -/
  | decode (line : Line)
  /-- ENCODE message, `capacity`, code 7 (R180) -/
  | encode (message : Message) (capacity : Capacity)
  /-- LINE, the line record (R90): the text of one line, its terminator not included. It is no command: the pump
  fetches it from the attached source (log 2). -/
  | line (text : Line)
deriving DecidableEq, Repr

end Sys2Proof
end

