-- ==== Sys2Proof/WellFormed.lean ====
section
/-! DEFINITION. Which instructions the encodings admit: the bounds that the constructors' types do not carry. -/

namespace Sys2Proof

open Machine (hw)

/-- The instructions an encoding exists for: DECODE's `len` has `CAP_W` = 16 bits (R107); a line record begins with `MARKER` (R90, the table's match on character 0) and does not hold `TERM`,
which would end it (R132, R137). ENCODE's operand carries its bound in its type (R23, R192). -/
def Instr.wellFormed : Instr → Bool
  | .decode s => decide (s.length < 2 ^ 16)
  | .line s => decide (s.head? = some hw.marker) && decide (hw.term ∉ s)
  | .nop | .attachSource _ | .detachSource | .setDefaultSourceAddress _ | .setHandler _ | .pumpOnce
  | .encode _ _ => true

end Sys2Proof
end

