-- ==== Sys2Proof/Decode.lean ====
section
/-! DEFINITION. The decoder and the encoder of the instruction stream: the command transactions of `30_encoding.md` R107,
R108 as bytes (log 1) and the line record of R90.

A command is its 3-bit `op` in bits 2..0 of the first byte, bits 7..3 zero, and its operands in the order of R107, each in
whole bytes, most significant byte first. A line record is its text and the terminator `TERM`. No command byte is
`MARKER` (0x41), so the first byte tells the two apart. -/

namespace Sys2Proof

open Machine (hw)

/-- Why bytes are refused. -/
inductive CommandError where
  /-- there is no byte at all -/
  | empty
  /-- the first byte is no command code of R107 -/
  | notACommand (first : Byte)
  /-- the bytes end before the operands do -/
  | missingOperand
  /-- bits 7..4 of the byte that carries the 4-bit priority are not zero (log 1) -/
  | priorityPadding (byte : Byte)
  /-- the record has `plen > MAX_PAYLOAD`: it is no Wire Message (R23, R192) -/
  | notAWireMessage (plen : Nat)
  /-- bytes stand after the last operand of a transaction -/
  | trailingBytes
deriving DecidableEq, Repr

/-! ### Fields -/

/-- The `n` bytes of `v`, most significant first. -/
def natBytes : Nat → Nat → List Byte
  | 0, _ => []
  | n + 1, v => BitVec.ofNat 8 (v / 256 ^ n) :: natBytes n v

/-- The number that bytes spell, most significant first. -/
def bytesNat (bs : List Byte) : Nat := bs.foldl (fun v b => v * 256 + b.toNat) 0

/-- The first `n` bytes and the rest. -/
def takeBytes (n : Nat) (bs : List Byte) : Except CommandError (List Byte × List Byte) :=
  if bs.length < n then .error .missingOperand else .ok (bs.take n, bs.drop n)

/-- An `n`-byte number and the rest. -/
def takeNat (n : Nat) (bs : List Byte) : Except CommandError (Nat × List Byte) :=
  (takeBytes n bs).map fun p => (bytesNat p.1, p.2)

/-- The 4-bit priority, in the low half of a byte of its own. -/
def takePriority (bs : List Byte) : Except CommandError (Priority × List Byte) := do
  let (v, rest) ← takeNat 1 bs
  if 16 ≤ v then .error (.priorityPadding (BitVec.ofNat 8 v)) else .ok (BitVec.ofNat 4 v, rest)

/-- The `plen` payload bytes with the proof of their bound, and the rest: a declared length above `MAX_PAYLOAD` is refused
before any byte is taken (R23, R192, log 14). -/
def takePayload (maxPayload plen : Nat) (bs : List Byte) :
    Except CommandError ({ payload : List Byte // payload.length ≤ maxPayload } × List Byte) :=
  if h : plen ≤ maxPayload then
    if bs.length < plen then .error .missingOperand
    else .ok (⟨bs.take plen, Nat.le_trans (List.length_take_le plen bs) h⟩, bs.drop plen)
  else .error (.notAWireMessage plen)

/-- A Wire Message in the field order of R108: `pgn`, `source`, `destination`, `priority`, `plen`, payload. A record with
`plen > MAX_PAYLOAD` is none (R192). -/
def takeMessage (bs : List Byte) : Except CommandError (Message × List Byte) := do
  let (pgn, bs) ← takeNat 3 bs
  let (source, bs) ← takeNat 1 bs
  let (destination, bs) ← takeNat 1 bs
  let (priority, bs) ← takePriority bs
  let (plen, bs) ← takeNat 1 bs
  let (payload, bs) ← takePayload hw.maxPayload plen bs
  .ok ({ pgn := BitVec.ofNat 24 pgn, source := BitVec.ofNat 8 source,
         destination := BitVec.ofNat 8 destination, priority, payload := payload.1, payload_le := payload.2 }, bs)

/-- A line up to its terminator, which is consumed and not part of it (R137), and what follows. A line whose terminator
is missing ends with the bytes. -/
def splitLine (term : Byte) : List Byte → Line × List Byte
  | [] => ([], [])
  | b :: bs => if b = term then ([], bs) else ((b :: (splitLine term bs).1), (splitLine term bs).2)

/-! ### The decoder -/

/-- The operands of the command with code `op` (R107). -/
def decodeOperands (op : Nat) (bs : List Byte) : Except CommandError (Instr × List Byte) :=
  match op with
  | 0 => .ok (.nop, bs)
  | 1 => (takeNat 1 bs).map fun p => (.attachSource (BitVec.ofNat 8 p.1), p.2)
  | 2 => .ok (.detachSource, bs)
  | 3 => (takeNat 1 bs).map fun p => (.setDefaultSourceAddress (BitVec.ofNat 8 p.1), p.2)
  | 4 => (takeNat 1 bs).map fun p => (.setHandler (BitVec.ofNat 8 p.1), p.2)
  | 5 => .ok (.pumpOnce, bs)
  | 6 => do
    let (len, bs) ← takeNat 2 bs
    let (line, bs) ← takeBytes len bs
    .ok (.decode line, bs)
  | 7 => do
    let (message, bs) ← takeMessage bs
    let (capacity, bs) ← takeNat 2 bs
    .ok (.encode message (BitVec.ofNat 16 capacity), bs)
  | _ => .error (.notACommand (BitVec.ofNat 8 op))

/-- The command at the head of the bytes of CMD and the bytes after it (R107). -/
def decodeCommand : List Byte → Except CommandError (Instr × List Byte)
  | [] => .error .empty
  | b :: bs => decodeOperands b.toNat bs

/-- The instruction at the head of some bytes: a line record if the first byte is `MARKER` (the table's row LINE), a
command otherwise. -/
def decode : List Byte → Except CommandError (Instr × List Byte)
  | [] => .error .empty
  | b :: bs =>
    if b = hw.marker then .ok (.line (splitLine hw.term (b :: bs)).1, (splitLine hw.term (b :: bs)).2)
    else decodeCommand (b :: bs)

/-! ### The encoder -/

/-- A Wire Message as an operand (R108). -/
def messageBytes {maxPayload : Nat} (m : WireMessage maxPayload) : List Byte :=
  natBytes 3 m.pgn.toNat ++ natBytes 1 m.source.toNat ++ natBytes 1 m.destination.toNat ++
    natBytes 1 m.priority.toNat ++ natBytes 1 m.plen ++ m.payload

/-- The bytes of a well-formed instruction: the code of R107 and the operands, or the line record with its terminator. -/
def encode : Instr → List Byte
  | .nop => [0]
  | .attachSource source => 1 :: natBytes 1 source.toNat
  | .detachSource => [2]
  | .setDefaultSourceAddress addr => 3 :: natBytes 1 addr.toNat
  | .setHandler callback => 4 :: natBytes 1 callback.toNat
  | .pumpOnce => [5]
  | .decode line => 6 :: (natBytes 2 line.length ++ line)
  | .encode m capacity => 7 :: (messageBytes m ++ natBytes 2 capacity.toNat)
  | .line text => text ++ [hw.term]

/-! ### Words of `spec/opcode_table.json` -/

/-- The first `n` bytes of a number whose bits 7..0 are the first byte. -/
def wordBytes : Nat → Nat → List Byte
  | 0, _ => []
  | n + 1, w => BitVec.ofNat 8 w :: wordBytes n (w / 256)

/-- The bytes of a table word of `nbits` bits: byte 0 is bits 7..0, and every bit above `nbits` is 0. The zero bytes go on
to the 24 characters of a line's header, the longest of the rows when the operands are zero. -/
def tableBytes (nbits w : Nat) : List Byte :=
  wordBytes (max ((nbits + 7) / 8) 24) (w % 2 ^ nbits)

/-- The instruction the decoder reads from a table word, `none` where it refuses. -/
def decodeTableWord (nbits w : Nat) : Option Instr :=
  match decode (tableBytes nbits w) with
  | .ok (i, _) => some i
  | .error _ => none

end Sys2Proof
end

