-- ==== Sys2Proof/Machine/State.lean ====
section
/-! DEFINITION. The state of the machine: the registers and byte memories of `10_state.md`, the channels of
`20_memory.md` section 5 and the environment state of R43, as plain data; why a step stops; the state after reset (R40). -/

namespace Sys2Proof.Machine

/-- The sequencer register `pstate` (R26). Code 3 is "never held": it has no constructor (U17). -/
inductive PState where
  /-- "no source", code 0 -/
  | detached
  /-- "source attached, no line in progress", code 1 -/
  | idle
  /-- "mid-line", code 2 -/
  | accumulating
deriving DecidableEq, Repr

/-- The status codes of R260. Codes 6 and 7 are "never produced": they have no constructor (U17). -/
inductive Status where
  /-- code 0: the command completed without error -/
  | ok
  /-- code 1: the first character is not the start marker, or there is none -/
  | invalidStart
  /-- code 2: the line is shorter than the header -/
  | tooShort
  /-- code 3: the payload is longer than `MAX_PAYLOAD` -/
  | payloadTooLong
  /-- code 4: something did not fit within `capacity` -/
  | overflowOnEncode
  /-- code 5: nothing attached; "not surfaced as an error", delivered nowhere (R220, R263) -/
  | noSource
deriving DecidableEq, Repr

/-- What one RSP transaction carries (R69, R107). -/
inductive Response where
  /-- a status and nothing else -/
  | status (code : Status)
  /-- status `OK` and the decoded Wire Message (R163) -/
  | message (m : Message)
  /-- a status, the length of the text and the text (R180) -/
  | encoded (code : Status) (len : Capacity) (text : Line)
deriving DecidableEq, Repr

/-- One thing the block does on a channel (R62). `State.trace` is the sequence of them, so that the order across channels
(R72) is kept; `disp_log`, `err_log` and the RSP sequence of R43 are views of it (log 18). -/
inductive Event where
  /-- SRC: one `SrcRead()` on a source and its answer, a byte or `none` (R63) -/
  | srcRead (source : SrcId) (answer : Option Byte)
  /-- DISP: a transaction carrying `hnd_id` and a message was started (R66) -/
  | disp (handler : HndId) (m : Message)
  /-- ERR: one event with a status code (R68) -/
  | err (code : Status)
  /-- RSP: the answer to the command that completed (R69) -/
  | rsp (r : Response)
deriving DecidableEq, Repr

/-- What the environment can do to the block (R112, R62). -/
inductive EnvEvent where
  /-- the producer of a source appends bytes to its tail (R64) -/
  | feed (source : SrcId) (bytes : List Byte)
  /-- the host places a command transaction on CMD (R69) -/
  | issue (transaction : List Byte)
  /-- the handler of the DISP transaction in progress returns (R66) -/
  | handlerReturns
  /-- the reset event (R300) -/
  | reset
deriving DecidableEq, Repr

/-- What the environment does at one moment. -/
abbrev Tick := List EnvEvent

/-- A byte memory (R50): the bytes that differ from 0x00, by index, indices strictly rising. A byte that is not listed
reads as 0x00 (log 10). -/
abbrev Memory := List Host.Cell

/-- The bytes queued in every source, `src_q` of R43, by the number of the source's handle, numbers strictly rising; a
source that is not listed has nothing queued. -/
abbrev Queues := List (Nat × List Byte)

/-- The state. -/
structure State where
  /-- the sequencer (R26) -/
  pstate : PState
  /-- 1 "from the acceptance of a command to its completion" (R28) -/
  busy : Bool
  /-- the handle of the attached source (R29) -/
  srcId : SrcId
  /-- whether a handler is registered (R30) -/
  hndSet : Bool
  /-- the handle of the registered handler (R30) -/
  hndId : HndId
  /-- the default source address, "written and never read" (R31) -/
  defsrc : Address
  /-- the write index of the Line Buffer (R33) -/
  lbLen : Nat
  /-- the transient flag of READ_LINE (R37) -/
  termSeen : Bool
  /-- LB, the Line Buffer (R33, R50) -/
  lb : Memory
  /-- PAY, the payload store (R38, R50) -/
  pay : Memory
  /-- ENC, the encode output buffer of ENCODE's caller (R39, R50) -/
  enc : Memory
  /-- CMD: the transactions placed and not yet accepted (R62, R69), oldest first, without a bound (DESIGN CHOICE, log 23) -/
  cmdq : List (List Byte)
  /-- DISP: the transaction whose handler has not returned (R66) -/
  dispTx : Option (HndId × Message)
  /-- SRC: the bytes each source can deliver (R43, R63) -/
  srcs : Queues
  /-- what the block has done on its channels, oldest first (R43, R72) -/
  trace : List Event
  /-- the MODEL's own: what the environment does at the coming moments (log 4) -/
  env : List Tick
  /-- the MODEL's own: for each coming handler invocation, whether it is still running when the step ends (log 5) -/
  holds : List Bool
  /-- the MODEL's own: how many free values have been used (log 9) -/
  freeIdx : Nat
deriving DecidableEq, Repr

/-- The block has no fatal condition ("There are no fatal conditions within this component", `60_exceptions.md`; R264,
R283): no step ends in a fault, so there is no constructor (log 19). -/
inductive Fault where
deriving DecidableEq, Repr

/-- Why a step has no meaning. -/
inductive Refusal where
  /-- raised by `exec` for an instruction without a meaning: none is left. Safe: the machine stops. -/
  | notModelled (mnemonic : String)
  /-- raised by `step` for bytes on CMD that are no command transaction of R107 (log 15). Safe: the machine stops where
  the spec gives no meaning. -/
  | malformedCommand (error : CommandError)
deriving DecidableEq, Repr

/-- The machine right after reset (R40): `pstate = DETACHED`, `busy = 0`, `hnd_set = 0`, `lb_len = 0`, no transaction
pending on any channel. `src_id`, `hnd_id`, `defsrc`, `term_seen` and the memories are unspecified there: DESIGN CHOICE, 0
and nothing listed (log 8, log 10). The environment has done nothing and has nothing scheduled (DESIGN CHOICE, log 17). -/
def State.reset : State where
  pstate := .detached
  busy := false
  srcId := 0
  hndSet := false
  hndId := 0
  defsrc := 0
  lbLen := 0
  termSeen := false
  lb := []
  pay := []
  enc := []
  cmdq := []
  dispTx := none
  srcs := []
  trace := []
  env := []
  holds := []
  freeIdx := 0

end Sys2Proof.Machine
end

