-- ==== Sys2Proof/Machine/Flags.lean ====
section
/-! DEFINITION. The result values of `10_state.md` R41 and the codes of R26 and R260. "The block has no persistent flags or
condition codes": nothing here is held in the state but in the trace. -/

namespace Sys2Proof.Machine

/-- The code of `pstate` (R26, D35). -/
def PState.code : PState → BitVec 2
  | .detached => 0
  | .idle => 1
  | .accumulating => 2

/-- The 3-bit status code (R260, R110). -/
def Status.code : Status → BitVec 3
  | .ok => 0
  | .invalidStart => 1
  | .tooShort => 2
  | .payloadTooLong => 3
  | .overflowOnEncode => 4
  | .noSource => 5

/-- The decode errors, the source's `DecodeError` (R150, R261). -/
inductive DecodeError where
  /-- the first character is not `MARKER`, or there is none (R151, R152) -/
  | invalidStart
  /-- fewer than 24 characters (R153) -/
  | tooShort
  /-- more than `MAX_PAYLOAD` pairs (R158) -/
  | payloadTooLong
deriving DecidableEq, Repr

/-- The status code a decode error is delivered with (R260). -/
def DecodeError.status : DecodeError → Status
  | .invalidStart => .invalidStart
  | .tooShort => .tooShort
  | .payloadTooLong => .payloadTooLong

/-- A decode result: `Ok m` or `Err E` (R150), for the value of `MAX_PAYLOAD` (R9). -/
inductive DecodeResult (maxPayload : Nat) where
  /-- `Ok m` -/
  | ok (m : WireMessage maxPayload)
  /-- `Err E`: no message, whole or partial (R162) -/
  | err (e : DecodeError)
deriving DecidableEq, Repr

/-- The `status` of an RSP transaction (R69, R110). -/
def Response.code : Response → Status
  | .status code => code
  | .message _ => .ok
  | .encoded code _ _ => code

/-- `line_avail`, the result of READ_LINE: `lb_len != 0` (R136). -/
def lineAvail (s : State) : Bool := s.lbLen != 0

/-- The status of ENCODE from `ovf` (R190, R41). -/
def encodeStatus (ovf : Bool) : Status := if ovf then .overflowOnEncode else .ok

/-- The `disp_log` entry of an event (R66). -/
def Event.dispEntry? : Event → Option (HndId × Message)
  | .disp h m => some (h, m)
  | .srcRead _ _ | .err _ | .rsp _ => none

/-- The `err_log` entry of an event (R68). -/
def Event.errEntry? : Event → Option Status
  | .err code => some code
  | .srcRead _ _ | .disp _ _ | .rsp _ => none

/-- The RSP transaction of an event (R69). -/
def Event.rspEntry? : Event → Option Response
  | .rsp r => some r
  | .srcRead _ _ | .disp _ _ | .err _ => none

/-- The `SrcRead()` of an event and its answer (R63). -/
def Event.srcEntry? : Event → Option (SrcId × Option Byte)
  | .srcRead i a => some (i, a)
  | .disp _ _ | .err _ | .rsp _ => none

/-- `disp_log`: the `(hnd_id, Wire Message)` pairs dispatched so far (R43). -/
def State.dispLog (s : State) : List (HndId × Message) := s.trace.filterMap Event.dispEntry?

/-- `err_log`: the status codes reported so far (R43). -/
def State.errLog (s : State) : List Status := s.trace.filterMap Event.errEntry?

/-- The RSP transactions returned to the host (R43). -/
def State.rspLog (s : State) : List Response := s.trace.filterMap Event.rspEntry?

/-- The answers of the `SrcRead()` calls performed so far (R43, R63). -/
def State.srcLog (s : State) : List (SrcId × Option Byte) := s.trace.filterMap Event.srcEntry?

end Sys2Proof.Machine
end

