-- ==== Sys2Proof/Machine/Ops.lean ====
section
/-! DEFINITION. The shared operations: byte memories and source queues, the primitives `SrcRead`, `Dispatch` and `Report`
of `00_scope.md` R17, acceptance and completion of a command (R28, R69), the environment's events (R64, R300), and the
moments at which they fall in a running command. -/

namespace Sys2Proof.Machine

/-! ### Sparse storage: a list of (key, value) pairs, keys strictly rising, no value equal to the default -/

/-- The value at a key; `d` where none is listed. -/
def sparseGet {α : Type} (d : α) : List (Nat × α) → Nat → α
  | [], _ => d
  | (k, v) :: m, a => if k = a then v else sparseGet d m a

/-- Writes a value at a key, keeping the form: writing the default removes the entry. -/
def sparseSet {α : Type} [DecidableEq α] (d : α) : List (Nat × α) → Nat → α → List (Nat × α)
  | [], a, v => if v = d then [] else [(a, v)]
  | (k, w) :: m, a, v =>
    if a < k then (if v = d then (k, w) :: m else (a, v) :: (k, w) :: m)
    else if a = k then (if v = d then m else (a, v) :: m)
    else (k, w) :: sparseSet d m a v

/-- The canonical form. -/
abbrev SparseWf {α : Type} (d : α) (m : List (Nat × α)) : Prop :=
  m.Pairwise (fun p q => p.1 < q.1) ∧ ∀ p ∈ m, p.2 ≠ d

/-! ### Byte memories (R50, R60: every access is one byte) -/

/-- The canonical form of a byte memory: addresses strictly rising, no entry that reads as an unlisted byte. -/
abbrev Memory.wf (m : Memory) : Prop := SparseWf (0 : Byte) m

/-- What a byte that is not listed reads as (DESIGN CHOICE, log 10). -/
def unlistedByte : Byte := 0

/-- Reads one byte. -/
def Memory.read (m : Memory) (a : Nat) : Byte := sparseGet unlistedByte m a

/-- Writes one byte. -/
def Memory.write (m : Memory) (a : Nat) (v : Byte) : Memory := sparseSet unlistedByte m a v

/-- `MemRead(space, a, n)`: `n` consecutive bytes, lowest index first (R16). -/
def Memory.readBytes (m : Memory) (a : Nat) : Nat → List Byte
  | 0 => []
  | n + 1 => m.read a :: m.readBytes (a + 1) n

/-- `MemWrite(space, a, n, v)`: consecutive bytes, lowest index first (R16). -/
def Memory.writeBytes (m : Memory) (a : Nat) : List Byte → Memory
  | [] => m
  | v :: vs => (m.write a v).writeBytes (a + 1) vs

/-- A memory of `n` bytes none of which has a known value: byte `i` is the free value number `k + i` (log 9). -/
def freeMemory (k n : Nat) : Memory :=
  (List.range n).filterMap fun i =>
    if Config.freeByte (k + i) = unlistedByte then none else some (i, Config.freeByte (k + i))

/-! ### Source queues (R43, R63, R64) -/

/-- The canonical form of the queues: handles strictly rising, no empty queue listed. -/
abbrev Queues.wf (q : Queues) : Prop := SparseWf ([] : List Byte) q

/-- The bytes queued in a source. -/
def Queues.get (q : Queues) (i : SrcId) : List Byte := sparseGet [] q i.toNat

/-- Replaces the bytes queued in a source. -/
def Queues.set (q : Queues) (i : SrcId) (bytes : List Byte) : Queues := sparseSet [] q i.toNat bytes

/-- The bytes the attached source can deliver, `src_q` (R43). -/
def State.srcQueue (s : State) : List Byte := s.srcs.get s.srcId

/-! ### Acceptance and completion of a command (R28, R69) -/

/-- The acceptance of a command: `busy` becomes 1 (R28). -/
def State.accept (s : State) : State := { s with busy := true }

/-- The completion of a command: exactly one RSP transaction, and `busy` becomes 0 (R28, R69). -/
def State.respond (r : Response) (s : State) : State :=
  { s with busy := false, trace := s.trace ++ [.rsp r] }

/-! ### `SrcRead()` (R63) -/

/-- `SrcRead()` answered the byte `b`: the source loses its head and holds `q` now. -/
def State.srcTake (b : Byte) (q : List Byte) (s : State) : State :=
  { s with srcs := s.srcs.set s.srcId q, trace := s.trace ++ [.srcRead s.srcId (some b)] }

/-- `SrcRead()` answered `none`: nothing is consumed. -/
def State.srcNone (s : State) : State :=
  { s with trace := s.trace ++ [.srcRead s.srcId none] }

/-! ### Raising an error: `Report` (R68, R280 to R283)

This is the block's whole "taking of an exception": an event on ERR. Nothing is saved, no mode changes, control stays where
it was, and there is no return (R285). -/

/-- `Report(code)`: one event with the status code on ERR, which always accepts (R68). -/
def State.report (code : Status) (s : State) : State :=
  { s with trace := s.trace ++ [.err code] }

/-! ### `Dispatch(m)` (R66, R67) -/

/-- `Dispatch(m)`: a DISP transaction carrying `hnd_id` and `m`. It completes when the handler returns. The script
`holds` says whether this invocation is still running when the step ends (log 5): if so, the transaction stays in progress
and the block, busy, does nothing else until the handler returns or a reset strikes. -/
def State.dispatch (m : Message) (s : State) : State :=
  { s with
    trace := s.trace ++ [.disp s.hndId m]
    holds := s.holds.tail
    busy := s.busy || s.holds.headD false
    dispTx := if s.holds.headD false then some (s.hndId, m) else s.dispTx }

/-! ### The environment's events (log 4) -/

/-- The producer appends bytes to the tail of a source; it "never removes or reorders bytes" (R64). -/
def State.feed (i : SrcId) (bytes : List Byte) (s : State) : State :=
  { s with srcs := s.srcs.set i (s.srcs.get i ++ bytes) }

/-- The host places a transaction on CMD, behind those that wait there (R69). What becomes of one that is offered while
`busy = 1` is open: the channel accepts nothing then (R28, R315), and here the transaction waits until `busy = 0` (DESIGN
CHOICE, log 23). -/
def State.issue (transaction : List Byte) (s : State) : State :=
  { s with cmdq := s.cmdq ++ [transaction] }

/-- The handler returns: the DISP transaction in progress completes (R66). -/
def State.handlerReturns (s : State) : State := { s with dispTx := none }

/-- The reset event (R300): it aborts the running command, sets `pstate`, `busy`, `hnd_set` and `lb_len` as R40 says,
leaves every other register and the block's own memories unspecified (free values, log 9) and no transaction pending on
any channel. It does not touch the sources, the logs or the caller's ENC (R301). -/
def State.resetEvent (c : Params) (s : State) : State :=
  { s with
    pstate := .detached
    busy := false
    hndSet := false
    lbLen := 0
    srcId := Config.freeByte s.freeIdx
    hndId := Config.freeByte (s.freeIdx + 1)
    defsrc := Config.freeByte (s.freeIdx + 2)
    termSeen := (Config.freeByte (s.freeIdx + 3)).getLsbD 0
    lb := freeMemory (s.freeIdx + 4) c.lineCap
    pay := freeMemory (s.freeIdx + 4 + c.lineCap) c.maxPayload
    cmdq := []
    dispTx := none
    freeIdx := s.freeIdx + 4 + c.lineCap + c.maxPayload }

/-- One event of the environment. -/
def State.envEvent (c : Params) (s : State) : EnvEvent → State
  | .feed i bytes => s.feed i bytes
  | .issue transaction => s.issue transaction
  | .handlerReturns => s.handlerReturns
  | .reset => s.resetEvent c

/-- The events of one tick, in order. -/
def State.envTick (c : Params) (t : Tick) (s : State) : State := t.foldl (State.envEvent c) s

/-- What is left of the schedule. -/
def State.setEnv (env : List Tick) (s : State) : State := { s with env := env }

/-- The environment's next tick, if one is scheduled. -/
def State.tick (c : Params) (s : State) : State :=
  match s.env with
  | [] => s
  | t :: ts => (s.setEnv ts).envTick c t

/-! ### The moments of a running command (R300, log 4, log 7)

Between two actions of a running command that anyone outside the block can see (a `SrcRead()`, a DISP transaction, an ERR
event, an RSP transaction, a byte of ENC) the environment acts once. A reset in it "aborts whatever command is running":
`busy` is then 0, and the rest of the command is left out. -/

/-- The moment before the next action of a running command; an aborted command has none. -/
def State.moment (c : Params) (s : State) : State := if s.busy then s.tick c else s

/-- One action of a running command: the moment before it, and the action unless a reset aborted the command. -/
def State.act (c : Params) (f : State → State) (s : State) : State :=
  if (s.moment c).busy then f (s.moment c) else s.moment c

/-- What `n` moments of the environment do. -/
def State.ticks (c : Params) : Nat → State → State
  | 0, s => s
  | n + 1, s => (s.tick c).ticks c n

end Sys2Proof.Machine
end

