-- ==== Sys2Proof/Machine/ConfigCommands.lean ====
section
/-! DEFINITION. The configuration commands of `44_config_commands.md`. Each "completes without waiting for any
collaborator, performs no `SrcRead()`, no `Dispatch` and no `Report`, and cannot fail" (R249). The register is written and
the command answered at once, after a moment in which a reset aborts it (R300, log 7). -/

namespace Sys2Proof.Machine

/-- NOP: "It changes nothing and answers `OK`" (R248). -/
def execNop (s : State) : Host.Outcome State Fault Refusal :=
  .next (s.accept.act hw fun s => s.respond (.status .ok))

/-- ATTACH_SOURCE: `src_id <- source; pstate <- IDLE` (R240); a source that was attached is replaced (R241). -/
def execAttachSource (source : SrcId) (s : State) : Host.Outcome State Fault Refusal :=
  .next (s.accept.act hw fun s => { s with srcId := source, pstate := .idle }.respond (.status .ok))

/-- DETACH_SOURCE: `pstate <- DETACHED` (R242); with nothing attached it changes nothing and answers `OK` (R243). -/
def execDetachSource (s : State) : Host.Outcome State Fault Refusal :=
  .next (s.accept.act hw fun s => { s with pstate := .detached }.respond (.status .ok))

/-- SET_DEFAULT_SOURCE_ADDRESS: `defsrc <- addr` (R244), a register that nothing reads (R245). -/
def execSetDefaultSourceAddress (addr : Address) (s : State) : Host.Outcome State Fault Refusal :=
  .next (s.accept.act hw fun s => { s with defsrc := addr }.respond (.status .ok))

/-- SET_HANDLER: `hnd_id <- callback; hnd_set <- 1` (R246); a second one replaces the first (R247). -/
def execSetHandler (callback : HndId) (s : State) : Host.Outcome State Fault Refusal :=
  .next (s.accept.act hw fun s => { s with hndId := callback, hndSet := true }.respond (.status .ok))

end Sys2Proof.Machine
end

