-- ==== Sys2Proof/Machine/Encoder.lean ====
section
/-! DEFINITION. The ASCII Encoder: `42_encoder.md`, ENCODE. -/

namespace Sys2Proof.Machine

/-- The 24 characters of the header in the layout of R182. The upper four bits of `pgn` are not written (R21). -/
def headerText {maxPayload : Nat} (c : Params) (m : WireMessage maxPayload) : Line :=
  [c.marker] ++ c.tsPlaceholder ++ [space] ++ hexDigits 2 m.source.toNat ++ hexDigits 2 m.destination.toNat ++
    hexDigits 1 m.priority.toNat ++ [space] ++ hexDigits 5 (m.pgn.setWidth 20).toNat ++ [space]

/-- The nominal offset of payload byte `i` (R183). -/
def nominalOffset (i : Nat) : Nat := 24 + 2 * i

/-- Bytes with the positions they stand at, the first at `a`. -/
def placed (a : Nat) : List Byte → List (Nat × Byte)
  | [] => []
  | b :: bs => (a, b) :: placed (a + 1) bs

/-- The variables of ENCODE's loop (R193): what has been written to ENC, in order, `k` and `ovf`. -/
structure EncodeLoop where
  /-- the writes to ENC so far, each an index and a byte -/
  writes : List (Nat × Byte)
  /-- the number of payload bytes written -/
  k : Nat
  /-- whether a byte was skipped -/
  ovf : Bool
deriving DecidableEq, Repr

/-- The payload loop of R193, from payload byte `i` on: a byte is written at its nominal offset if and only if its two
characters and the sentinel fit, and is skipped otherwise (R183, R185). -/
def encodeLoop (capacity : Nat) : Nat → List Byte → EncodeLoop → EncodeLoop
  | _, [], v => v
  | i, b :: bs, v =>
    if nominalOffset i + 2 < capacity then
      encodeLoop capacity (i + 1) bs
        { writes := v.writes ++ placed (nominalOffset i) (hexDigits 2 b.toNat), k := i + 1, ovf := v.ovf }
    else encodeLoop capacity (i + 1) bs { v with ovf := true }

/-- What ENCODE does and answers (R180). -/
structure EncodeResult where
  /-- the writes to ENC in order, the sentinel last -/
  writes : List (Nat × Byte)
  /-- the length of the text, the sentinel not counted (R188) -/
  len : Nat
  /-- whether the overflow is signalled (R190) -/
  ovf : Bool
deriving DecidableEq, Repr

/-- ENC after some writes. -/
def Memory.writeAll (enc : Memory) (writes : List (Nat × Byte)) : Memory := writes.foldl (fun e w => e.write w.1 w.2) enc

/-- ENCODE (R193). With `capacity < 25` nothing but a sentinel is written (R189); the sentinel is the byte 0x00 at `len`
(R188). -/
def encodeText {maxPayload : Nat} (c : Params) (m : WireMessage maxPayload) (capacity : Nat) : EncodeResult :=
  if capacity < 25 then { writes := if 1 ≤ capacity then [(0, 0)] else [], len := 0, ovf := true }
  else
    let v := encodeLoop capacity 0 m.payload { writes := placed 0 (headerText c m), k := 0, ovf := false }
    { writes := v.writes ++ [(24 + 2 * v.k, 0)], len := 24 + 2 * v.k, ovf := v.ovf }

/-- One byte of ENC is written (R39). -/
def State.putEnc (a : Nat) (b : Byte) (s : State) : State := { s with enc := s.enc.write a b }

/-- The writes of ENCODE, one after the other, each after a moment in which a reset aborts the command and leaves ENC as far
as it is written (R300, R301, log 7). -/
def State.storeText (c : Params) : List (Nat × Byte) → State → State
  | [], s => s
  | w :: ws, s => (s.act c (State.putEnc w.1 w.2)).storeText c ws

/-- `Report(OverflowOnEncode)`, once per ENCODE, if the overflow is signalled (R190). -/
def State.reportOverflow (c : Params) (ovf : Bool) (s : State) : State :=
  if ovf then s.act c (State.report .overflowOnEncode) else s

/-- The actions of the ENCODE command in order: the writes to ENC, the ERR event at overflow, and the RSP with status,
length and the text `ENC[0 .. len)` (R180, R190, R193, R282). -/
def encodeCommandResult (m : Message) (capacity : Capacity) (s : State) : State :=
  let r := encodeText hw m capacity.toNat
  ((s.storeText hw r.writes).reportOverflow hw r.ovf).act hw fun s =>
    s.respond (.encoded (encodeStatus r.ovf) (BitVec.ofNat 16 r.len) (s.enc.readBytes 0 r.len))

/-- ENCODE as a command (R180). Its operand is a Wire Message, whose payload is within `MAX_PAYLOAD` (R23, R192, log 14). -/
def execEncode (m : Message) (capacity : Capacity) (s : State) : Host.Outcome State Fault Refusal :=
  .next (encodeCommandResult m capacity s.accept)

end Sys2Proof.Machine
end

