-- ==== Sys2Proof/Machine/Accumulator.lean ====
section
/-! DEFINITION. The Line Accumulator: READ_LINE of `40_line_accumulator.md`, the internal operation that fetches one
candidate line from the attached source (R109, R130). -/

namespace Sys2Proof.Machine

/-- A pulled byte that is not the terminator: `pstate <- ACCUMULATING` (R133), and it is stored at `lb_len` if
`lb_len < LINE_CAP` and dropped silently otherwise (R134, R35). -/
def State.storeByte (c : Params) (b : Byte) (s : State) : State :=
  if s.lbLen < c.lineCap then
    { s with pstate := .accumulating, lb := s.lb.write s.lbLen b, lbLen := s.lbLen + 1 }
  else { s with pstate := .accumulating }

/-- The end of READ_LINE: the sentinel is the position `lb_len`, nothing is stored for it, and `pstate <- IDLE` (R135). -/
def State.endRead (s : State) : State := { s with pstate := .idle }

/-- `term_seen` is "cleared at the start of every READ_LINE" (R37, R131). -/
def State.clearTerm (s : State) : State := { s with termSeen := false }

/-- The terminator was pulled: "consumed, not stored" (R131, R137). -/
def State.seeTerm (s : State) : State := { s with termSeen := true }

/-- The pull loop of READ_LINE while the environment is quiet; `q` is what the attached source holds (R131, R132). -/
def readQuiet (c : Params) : List Byte → State → State
  | [], s => s.srcNone.endRead
  | b :: q, s =>
    if b = c.term then (s.srcTake b q).seeTerm.endRead
    else readQuiet c q ((s.srcTake b q).storeByte c b)

/-- The pull loop of READ_LINE while ticks of the environment are left: one tick comes before each `SrcRead()` (R64,
log 4). A reset in it aborts the command, which shows as `busy = 0` (R300, log 7). -/
def readTicks (c : Params) : List Tick → State → State
  | [], s => readQuiet c s.srcQueue s
  | t :: ts, s =>
    let s1 := (s.setEnv ts).envTick c t
    if s1.busy then
      match s1.srcQueue with
      | [] => s1.srcNone.endRead
      | b :: q =>
        if b = c.term then (s1.srcTake b q).seeTerm.endRead
        else readTicks c ts ((s1.srcTake b q).storeByte c b)
    else s1

/-- READ_LINE on the attached source (R131): `term_seen` is cleared and bytes are pulled until the terminator or
exhaustion. It appends from the current `lb_len` (R139). Its result is `lineAvail` of the state (R136), unless a reset
aborted it (`busy = 0`). -/
def readLine (c : Params) (s : State) : State := readTicks c s.env s.clearTerm

/-- "reset the Line Buffer": `lb_len <- 0`; the stored bytes stay (R211, R34). -/
def State.startLine (s : State) : State := { s with lbLen := 0 }

/-- The head of the pump's loop: the Line Buffer is reset (R211), READ_LINE takes one line (R212), and the environment has
a moment before the pump goes on with it, in which a reset still aborts the command (R300, log 7). -/
def takeLine (c : Params) (s : State) : State := (readLine c s.startLine).moment c

/-- The candidate line `lb[0 .. lb_len)` (R136, R214). -/
def State.candidate (s : State) : Line := s.lb.readBytes 0 s.lbLen

end Sys2Proof.Machine
end

