-- ==== Sys2Proof/Machine/Decoder.lean ====
section
/-! DEFINITION. The ASCII Decoder: `41_decoder.md`, DECODE as a function of a line and as a command. -/

namespace Sys2Proof.Machine

/-- The number of payload pairs a line of `n >= 24` characters implies (R157, R95). -/
def pairCount (n : Nat) : Nat := (n - 24) / 2

/-- The Wire Message of a line that passed the checks: "Parse fields by fixed character offset" (R154, R157). The
timestamp [1..11) and the separators at 11, 17 and 23 are never examined (R156); the PGN is zero-extended (R99); the
leftover character of an odd payload section is dropped (R159). The bound `h` that R158 tests is the record's own (R23). -/
def lineMessage (c : Params) (line : Line) (h : pairCount line.length ≤ c.maxPayload) :
    WireMessage c.maxPayload where
  source := BitVec.ofNat 8 (hexField c (slice line 12 14))
  destination := BitVec.ofNat 8 (hexField c (slice line 14 16))
  priority := BitVec.ofNat 4 (hexField c (slice line 16 17))
  pgn := (BitVec.ofNat 20 (hexField c (slice line 18 23))).setWidth 24
  payload := payloadPairs c (line.drop 24)
  payload_le := by
    rw [length_payloadPairs, List.length_drop]
    exact h

/-- DECODE (R160): the start marker first (R151; the empty line has none, R152), then the length (R153), then the payload
bound (R158), then the fields. -/
def decodeLine (c : Params) (line : Line) : DecodeResult c.maxPayload :=
  match line with
  | [] => .err .invalidStart
  | b :: _ =>
    if b ≠ c.marker then .err .invalidStart
    else if line.length < 24 then .err .tooShort
    else if h : pairCount line.length ≤ c.maxPayload then .ok (lineMessage c line h)
    else .err .payloadTooLong

/-- PAY's first `plen` bytes are the payload of the message DECODE assembled (R38). A failing DECODE leaves PAY as it was
(R160 tests the bound before a pair is parsed; log 11). -/
def State.stage (m : Message) (s : State) : State := { s with pay := s.pay.writeBytes 0 m.payload }

/-- The response of the DECODE command: the status, and on `OK` the message; nothing on ERR or DISP (R163, R281). -/
def decodeCommandResult (line : Line) (s : State) : State :=
  match decodeLine hw line with
  | .ok m => (s.stage m).respond (.message m)
  | .err e => s.respond (.status e.status)

/-- DECODE as a command (R150, R163), after a moment in which a reset aborts it (R300, log 7). -/
def execDecode (line : Line) (s : State) : Host.Outcome State Fault Refusal :=
  .next (s.accept.act hw (decodeCommandResult line))

end Sys2Proof.Machine
end

