-- ==== Sys2Proof/Machine/Pump.lean ====
section
/-! DEFINITION. The Message Pump: `43_pump.md`, PUMP_ONCE, and what it does with one candidate line, which is the meaning
of the LINE record. -/

namespace Sys2Proof.Machine

/-- What the pump does with one candidate line: DECODE it (R214); on success `Dispatch` if a handler is registered (R215)
and discard the message silently if none is (R217); on failure `Report` (R216). -/
def handleLine (line : Line) (s : State) : State :=
  match decodeLine hw line with
  | .ok m => if s.hndSet then (s.stage m).dispatch m else s.stage m
  | .err e => s.report e.status

/-- How an iteration of the pump's loop ends. -/
inductive PumpStep where
  /-- the loop is left: no line was available (R213), a reset struck (R300), or the handler is still running (R66) -/
  | stop (s : State)
  /-- "loop back to attempt another line" (R215, R216) -/
  | again (s : State)
deriving DecidableEq, Repr

/-- One iteration of the loop of R218: take a line (R211, R212), leave with `OK` if there is none (R213, R221), and handle it
otherwise. -/
def pumpIter (s : State) : PumpStep :=
  let s1 := takeLine hw s
  if !s1.busy then .stop s1
  else if !lineAvail s1 then .stop (s1.respond (.status .ok))
  else
    let s2 := handleLine s1.candidate s1
    if s2.dispTx.isSome then .stop s2 else .again s2

/-- The loop of R218, at most `n` iterations. -/
def pumpLoop : Nat → State → State
  | 0, s => s
  | n + 1, s =>
    match pumpIter s with
    | .stop s' => s'
    | .again s' => pumpLoop n s'

/-- How many bytes an event appends to sources. -/
def EnvEvent.fed : EnvEvent → Nat
  | .feed _ bytes => bytes.length
  | .issue _ => 0
  | .handlerReturns => 0
  | .reset => 0

/-- How many bytes the schedule will append to sources. -/
def scheduledBytes (env : List Tick) : Nat := (env.map fun t => (t.map EnvEvent.fed).sum).sum

/-- How many iterations the loop can make: "Every iteration of the loop either returns or consumes at least one byte from
the source" (R224), so one more than the bytes that are queued and scheduled. -/
def pumpBound (s : State) : Nat := s.srcQueue.length + scheduledBytes s.env + 1

/-- PUMP_ONCE (R218): a no-op without a source (R210), the loop otherwise. -/
def pumpOnce (s : State) : State :=
  if s.pstate = .detached then s.act hw fun s => s.respond (.status .ok) else pumpLoop (pumpBound s) s

/-- PUMP_ONCE as a command (R210). -/
def execPumpOnce (s : State) : Host.Outcome State Fault Refusal := .next (pumpOnce s.accept)

/-- LINE (R90, log 2): the pump's handling of one line record, the part of it that the Line Buffer keeps (R134). An empty
record is no line (R213), and with no source attached no line is taken (R210). It is no command: it has no RSP. -/
def execLine (text : Line) (s : State) : Host.Outcome State Fault Refusal :=
  if s.pstate = .detached ∨ text = [] then .next s
  else .next (handleLine (text.take hw.lineCap) s)

end Sys2Proof.Machine
end

