-- ==== Sys2Proof/Machine/Dispatch.lean ====
section
/-! DEFINITION. The dispatch: one arm per constructor of `Instr`, each one direct call of its meaning. -/

namespace Sys2Proof.Machine

/-- The meaning of an instruction. -/
def exec (i : Instr) (s : State) : Host.Outcome State Fault Refusal :=
  match i with
  | .nop => Sys2Proof.Machine.execNop s
  | .attachSource source => Sys2Proof.Machine.execAttachSource source s
  | .detachSource => Sys2Proof.Machine.execDetachSource s
  | .setDefaultSourceAddress addr => Sys2Proof.Machine.execSetDefaultSourceAddress addr s
  | .setHandler callback => Sys2Proof.Machine.execSetHandler callback s
  | .pumpOnce => Sys2Proof.Machine.execPumpOnce s
  | .decode line => Sys2Proof.Machine.execDecode line s
  | .encode message capacity => Sys2Proof.Machine.execEncode message capacity s
  | .line text => Sys2Proof.Machine.execLine text s

end Sys2Proof.Machine
end

