-- ==== Sys2Proof/Machine/Fetch.lean ====
section
/-! DEFINITION. Where an instruction comes from (log 3, log 6): a command from CMD while `busy = 0` (R28, R69), a line
record from the attached source while a PUMP_ONCE is at the head of its loop (R211, R212). -/

namespace Sys2Proof.Machine

/-- What a step finds to do. -/
inductive Fetched where
  /-- nothing to run: the state is already that after the step -/
  | idle (s : State)
  /-- an instruction, and the state it runs in -/
  | run (i : Instr) (s : State)
  /-- the transaction on CMD is no command -/
  | malformed (error : CommandError)
deriving DecidableEq, Repr

/-- The transaction at the head of CMD: exactly one command (R69). It is accepted whenever it was placed, while a handler
ran or not (DESIGN CHOICE, log 23); bytes that are no command are refused by name (DESIGN CHOICE, log 15). -/
def fetchCommand (s : State) : Fetched :=
  match s.cmdq with
  | [] => .idle s
  | bytes :: rest =>
    match decodeCommand bytes with
    | .ok (i, []) => .run i { s with cmdq := rest }
    | .ok (_, _ :: _) => .malformed .trailingBytes
    | .error e => .malformed e

/-- A PUMP_ONCE that a handler held up and that is now at the head of its loop takes its next line (R215, log 6): the line
record READ_LINE leaves, or its completion with `OK` when there is no line (R213). A reset meanwhile aborts it (R300). -/
def fetchLine (c : Params) (s : State) : Fetched :=
  if s.pstate = .detached then .idle (s.respond (.status .ok))
  else
    let s1 := takeLine c s
    if !s1.busy then .idle s1
    else if !lineAvail s1 then .idle (s1.respond (.status .ok))
    else .run (.line s1.candidate) s1

/-- One fetch: the environment's next tick, then nothing while a handler runs (R66), the next line while a PUMP_ONCE is
running, the next command otherwise. "While `busy` is 1 the CMD channel accepts nothing" (R28). -/
def fetch (c : Params) (s : State) : Fetched :=
  let s1 := s.tick c
  if s1.busy then
    if s1.dispTx.isSome then .idle s1 else fetchLine c s1
  else fetchCommand s1

/-- `s` with a line record at the head of the attached source and a PUMP_ONCE at the head of its loop, the environment
quiet: the next fetch takes exactly that record (log 3). -/
def placeLine (text : Line) (s : State) : State :=
  { s with
    pstate := .idle, busy := true, dispTx := none, env := []
    srcs := s.srcs.set s.srcId (text ++ hw.term :: s.srcQueue) }

/-- `s` with a transaction at the head of CMD and no command running, nothing happening in the environment before the next
fetch (log 3). -/
def placeCommand (bytes : List Byte) (s : State) : State :=
  { s with busy := false, dispTx := none, env := [] :: s.env, cmdq := bytes :: s.cmdq }

/-- `s` with the instruction of a table word placed where the next fetch takes it: a line record in the attached source,
the bytes of a command on CMD (log 3). -/
def placeTableWord (nbits w : Nat) (s : State) : State :=
  let bytes := tableBytes nbits w
  match decode bytes with
  | .ok (.line text, _) => placeLine text s
  | .ok (_, rest) => placeCommand (bytes.take (bytes.length - rest.length)) s
  | .error _ => placeCommand bytes s

end Sys2Proof.Machine
end

