-- ==== Sys2Proof/Machine/Step.lean ====
section
/-! DEFINITION. One step of the machine: fetch and run. -/

namespace Sys2Proof.Machine

/-- One step: the environment's next tick and the instruction the fetch finds, if any (log 4, log 6). -/
def step (s : State) : Host.Outcome State Fault Refusal :=
  match fetch hw s with
  | .idle s1 => .next s1
  | .run i s1 => exec i s1
  | .malformed error => .refused (.malformedCommand error)

/-- `s` with the instruction of a word of `spec/opcode_table.json` placed where `step` fetches next (log 3). -/
def State.withFetchWord (s : State) (nbits w : Nat) : State := placeTableWord nbits w s

end Sys2Proof.Machine
end

