-- ==== Sys2Proof/Safety.lean ====
section
/-! DEFINITION. What the statements call a legal state: the invariant of the machine, and what cannot differ between two
states that software must not tell apart. -/

namespace Sys2Proof.Machine

/-! ### Words of the statements -/

/-- The line at the head of a source: the bytes before the first terminator, or all of them. -/
def headLine (c : Params) (q : List Byte) : Line := q.takeWhile (· ≠ c.term)

/-- What the source holds after READ_LINE took its head line and the terminator behind it. -/
def afterLine (c : Params) (q : List Byte) : List Byte := q.drop ((headLine c q).length + 1)

/-- The `SrcRead()` events of a READ_LINE that takes the head line of `q`. -/
def readEvents (c : Params) (i : SrcId) (q : List Byte) : List Event :=
  (q.take ((headLine c q).length + 1)).map (fun b => Event.srcRead i (some b)) ++
    if c.term ∈ q then [] else [.srcRead i none]

/-- The characters of payload bytes: "each payload byte as 2 uppercase hex digits with no separators" (R183). -/
def payloadText (payload : List Byte) : Line := payload.flatMap fun b => hexDigits 2 b.toNat

/-- How many payload bytes ENCODE writes (R186). -/
def writtenBytes (plen capacity : Nat) : Nat := min plen ((capacity - 25) / 2)

/-- How many bytes of ENC ENCODE writes, the sentinel among them (R188, R189). -/
def storedBytes (plen capacity : Nat) : Nat :=
  if capacity < 25 then min 1 capacity else 25 + 2 * writtenBytes plen capacity

/-- The moments of an ENCODE (log 4): one before each byte of ENC, one before the ERR event if there is one, one before the
RSP. -/
def encodeMoments (plen capacity : Nat) : Nat :=
  storedBytes plen capacity + if capacity < 25 + 2 * plen then 2 else 1

/-- What the pump does on DISP and ERR for one candidate line, with the handler `handler` (R215, R216) or none (R217). -/
def lineEvents (handler : Option HndId) (line : Line) : List Event :=
  match decodeLine hw line, handler with
  | .ok m, some h => [.disp h m]
  | .ok _, none => []
  | .err e, _ => [.err e.status]

/-- The registered handler, if there is one (R30). -/
def State.handler (s : State) : Option HndId := if s.hndSet then some s.hndId else none

/-- What a PUMP_ONCE that takes its lines from the bytes `q` does on its channels, in order: the `SrcRead()` calls of a line,
what that line causes on DISP or ERR, the next line, and at the first attempt without a line its completion (R72, R218). At
most `n` attempts. -/
def pumpEvents (i : SrcId) (handler : Option HndId) : Nat → List Byte → List Event
  | 0, _ => []
  | n + 1, q =>
    readEvents hw i q ++
      if headLine hw q = [] then [.rsp (.status .ok)]
      else lineEvents handler ((headLine hw q).take hw.lineCap) ++ pumpEvents i handler n (afterLine hw q)

/-- What such a PUMP_ONCE leaves in the source. -/
def pumpRest (c : Params) : Nat → List Byte → List Byte
  | 0, q => q
  | n + 1, q => if headLine c q = [] then afterLine c q else pumpRest c n (afterLine c q)

/-- No handler invocation is still running when its step ends (log 5). -/
def State.HandlersReturn (s : State) : Prop := ∀ h ∈ s.holds, h = false

/-- No reset is scheduled. -/
def State.NoReset (s : State) : Prop := ∀ t ∈ s.env, EnvEvent.reset ∉ t

/-- No reset is scheduled for the next `n` moments. -/
def State.Spared (n : Nat) (s : State) : Prop := ∀ t ∈ s.env.take n, EnvEvent.reset ∉ t

/-- A reset is scheduled for the next moment. -/
def State.Struck (s : State) : Prop := ∃ t later, s.env = t :: later ∧ EnvEvent.reset ∈ t

/-- The state after an iteration of the pump's loop. -/
def PumpStep.state : PumpStep → State
  | .stop s => s
  | .again s => s

/-- What an event appends to the source `i` (R64). -/
def EnvEvent.fedTo (i : SrcId) : EnvEvent → List Byte
  | .feed j bytes => if j = i then bytes else []
  | .issue _ => []
  | .handlerReturns => []
  | .reset => []

/-- What ticks append to the source `i`, in order (R64). -/
def fedBytes (i : SrcId) (ticks : List Tick) : List Byte := ticks.flatMap fun t => t.flatMap (EnvEvent.fedTo i)

/-- Complete lines as the bytes of a source: each with its terminator. -/
def lineBytes (c : Params) (lines : List Line) : List Byte := lines.flatMap fun l => l ++ [c.term]

/-- `SrcRead()` calls on source `i` that answer these bytes, in order. -/
def byteReads (i : SrcId) (bytes : List Byte) : List Event := bytes.map fun b => .srcRead i (some b)

/-- What the pump does on its channels for complete lines: the `SrcRead()` calls of a line, what that line causes, the next
line (R72). -/
def completeLineEvents (i : SrcId) (handler : Option HndId) (lines : List Line) : List Event :=
  lines.flatMap fun l => byteReads i (l ++ [hw.term]) ++ lineEvents handler (l.take hw.lineCap)

/-- The message with its payload cut to the first `k` bytes. -/
def cutMessage {maxPayload : Nat} (m : WireMessage maxPayload) (k : Nat) : WireMessage maxPayload :=
  { m with payload := m.payload.take k, payload_le := Nat.le_trans (List.length_take_le' k m.payload) m.payload_le }

/-- The character at an index of a line; 0 beyond its end. -/
def charAt (line : Line) (i : Nat) : Byte := line.getD i 0

/-- The value of the hex digit at an index of a line; 0 for a character that is none (R98). -/
def nibbleAt (line : Line) (i : Nat) : Nat := (hexDigit? (charAt line i)).getD 0

/-- Whether the indices of a line that DECODE reads as digits hold hex digits: [12..17), [18..23) and the payload pairs
(R154, R157). -/
def DigitsValid (line : Line) : Prop :=
  ∀ i < line.length, 12 ≤ i → i ≠ 17 → i ≠ 23 → (24 ≤ i → i < 24 + 2 * ((line.length - 24) / 2)) →
    isHexDigit (charAt line i) = true

/-- The state after the last command answered `r`: `busy = 0` and one RSP transaction more (R28, R69). -/
def State.answered (s : State) (r : Response) : State :=
  { s with busy := false, trace := s.trace ++ [.rsp r] }

/-! ### Legal states -/

/-- What may stand in the trace: a dispatched or answered message is one DECODE can produce (R21, R23); an ERR event
carries one of the codes 1 to 4 (R260); an RSP never carries `NoSource` (R220, R263) and its length is that of its text
(R180). -/
def Event.Legal : Event → Prop
  | .srcRead _ _ => True
  | .disp _ m => m.plen ≤ hw.maxPayload ∧ m.pgn.toNat < 2 ^ 20
  | .err code => code ≠ .ok ∧ code ≠ .noSource
  | .rsp (.status code) => code ≠ .noSource ∧ code ≠ .overflowOnEncode
  | .rsp (.message m) => m.plen ≤ hw.maxPayload ∧ m.pgn.toNat < 2 ^ 20
  | .rsp (.encoded code len text) => (code = .ok ∨ code = .overflowOnEncode) ∧ len.toNat = text.length

/-- The invariant: what holds between two steps of the machine, started from reset or not. -/
structure State.Inv (s : State) : Prop where
  /-- the byte memories are canonical -/
  lb_wf : s.lb.wf
  /-- the byte memories are canonical -/
  pay_wf : s.pay.wf
  /-- the byte memories are canonical -/
  enc_wf : s.enc.wf
  /-- the queues are canonical -/
  srcs_wf : s.srcs.wf
  /-- LB has `LINE_CAP` bytes (R33) -/
  lb_space : ∀ p ∈ s.lb, p.1 < hw.lineCap
  /-- PAY has `MAX_PAYLOAD` bytes (R38) -/
  pay_space : ∀ p ∈ s.pay, p.1 < hw.maxPayload
  /-- ENC has at most `2^CAP_W - 1` positions (R181) -/
  enc_space : ∀ p ∈ s.enc, p.1 < 2 ^ 16 - 1
  /-- `0 <= lb_len <= LINE_CAP` (R33) -/
  lbLen_le : s.lbLen ≤ hw.lineCap
  /-- "between commands `pstate` is either `DETACHED` or `IDLE`" (R27) -/
  pstate_settled : s.pstate ≠ .accumulating
  /-- only a PUMP_ONCE on an attached source runs across steps (R210, R219) -/
  busy_idle : s.busy = true → s.pstate = .idle
  /-- a DISP transaction in progress is that of the running PUMP_ONCE, to the registered handler (R66) -/
  disp_busy : s.dispTx.isSome = true → s.busy = true ∧ s.hndSet = true
  /-- no line is kept between commands (R226) -/
  quiet_empty : s.busy = false → s.lbLen = 0
  /-- every event of the trace is legal -/
  trace_legal : ∀ e ∈ s.trace, e.Legal
  /-- the DISP transaction in progress carries `hnd_id` and a message DECODE can produce (R66, R21, R23) -/
  disp_legal : ∀ h m, s.dispTx = some (h, m) → h = s.hndId ∧ m.plen ≤ hw.maxPayload ∧ m.pgn.toNat < 2 ^ 20

/-- Bytes that are exactly one well-formed command (R107): what a host places on CMD. -/
def IsCommand (bytes : List Byte) : Prop :=
  ∃ i : Instr, i.wellFormed = true ∧ (∀ text, i ≠ .line text) ∧ bytes = encode i

/-- An event of a well-behaved environment: the host places commands only. -/
def EnvEvent.Proper : EnvEvent → Prop
  | .issue transaction => IsCommand transaction
  | .feed _ _ => True
  | .handlerReturns => True
  | .reset => True

/-- The host places nothing but commands on CMD, now and later. -/
structure State.Proper (s : State) : Prop where
  /-- what waits on CMD -/
  cmdq_proper : ∀ bytes ∈ s.cmdq, IsCommand bytes
  /-- what is scheduled -/
  env_proper : ∀ t ∈ s.env, ∀ e ∈ t, e.Proper

/-- The state without the registers and the bytes that "cannot be read before they are written" or that "no rule reads":
`defsrc` (R31), `term_seen` (R37), PAY (R38), LB (R33, U13), `src_id` while nothing is attached (R29) and `hnd_id` while no
handler is registered (R30). -/
def State.forgetUnread (s : State) : State :=
  { s with
    defsrc := 0
    termSeen := false
    pay := []
    lb := []
    srcId := if s.pstate = .detached then 0 else s.srcId
    hndId := if s.hndSet then s.hndId else 0 }

/-- What an outcome leaves, seen through a view of the state. -/
def Outcome.view (f : State → State) : Host.Outcome State Fault Refusal → Host.Outcome State Fault Refusal
  | .next s => .next (f s)
  | .fault r => .fault r
  | .refused r => .refused r

end Sys2Proof.Machine
end

