-- ==== Sys2Proof/Certificates/Slice0/Obligations.lean ====
section
/-! DEFINITION. What is to be proved of the machine. Rules are those of `spec/`; logs are `notes/assumptions/`.

Between the actions of a running command the environment has its moments (log 4): `s.tick hw` is the state after one,
`s.ticks hw n` after `n`, and with nothing scheduled both are `s` itself. A reset in such a moment aborts the command (R300);
`s.Spared n` says that none is scheduled for the next `n`, and what a command leaves that a reset does strike is said by
`ResetAbortsEveryCommand` and the statements beside it. -/

open Sys2Proof Sys2Proof.Machine

/-! ### The configuration commands (`44_config_commands.md`) -/

/-- NOP (R248): code 0; "It changes nothing and answers `OK`", after the one moment of a command (log 4). That the code fills
one byte is the model's layout (log 1, DESIGN CHOICE). -/
def Obligations.NopChangesNothing : Prop :=
  encode .nop = [0] ∧ ∀ s : State, s.Spared 1 → exec .nop s = .next ((s.tick hw).answered (.status .ok))

/-- ATTACH_SOURCE (R240): code 1 and its operand, in the model's layout of one byte each (log 1, DESIGN CHOICE); `src_id <- source; pstate <- IDLE`, status `OK`, and nothing else changes: no
`SrcRead()`, `lb` and `lb_len` as before, no byte of any source consumed. "The next PUMP_ONCE reads from that source": the
first thing it does on a channel, the environment being quiet, is a `SrcRead()` on `source`. -/
def Obligations.AttachSourceSelectsTheSource : Prop :=
  ∀ (source : SrcId) (s : State),
    encode (.attachSource source) = [1, source] ∧
    (s.Spared 1 → exec (.attachSource source) s =
      .next ({ s.tick hw with srcId := source, pstate := .idle }.answered (.status .ok))) ∧
    (s.env = [] → ∃ u answer rest,
      exec .pumpOnce ({ s with srcId := source, pstate := .idle }.answered (.status .ok)) = .next u ∧
      u.trace = s.trace ++ [.rsp (.status .ok)] ++ .srcRead source answer :: rest)

/-- DETACH_SOURCE (R242): code 2, one byte in the model's layout (log 1, DESIGN CHOICE); `pstate <- DETACHED`, status `OK`, nothing consumed, `lb` and `lb_len` untouched, and
nothing else changes. Afterwards PUMP_ONCE is a no-op that answers `OK`. -/
def Obligations.DetachSourceMakesThePumpANoOp : Prop :=
  encode .detachSource = [2] ∧
    (∀ s : State, s.Spared 1 → exec .detachSource s = .next ({ s.tick hw with pstate := .detached }.answered (.status .ok))) ∧
    ∀ t : State, t.pstate = .detached → t.Spared 1 → exec .pumpOnce t = .next ((t.tick hw).answered (.status .ok))

/-- SET_DEFAULT_SOURCE_ADDRESS (R244): code 3 and its operand, in the model's layout of one byte each (log 1, DESIGN
CHOICE); `defsrc <- addr`, status `OK`, and nothing else changes. -/
def Obligations.SetDefaultSourceAddressWritesDefsrc : Prop :=
  ∀ (addr : Address) (s : State),
    encode (.setDefaultSourceAddress addr) = [3, addr] ∧
    (s.Spared 1 → exec (.setDefaultSourceAddress addr) s = .next ({ s.tick hw with defsrc := addr }.answered (.status .ok)))

/-- SET_HANDLER (R246): code 4 and its operand, in the model's layout of one byte each (log 1, DESIGN CHOICE);
`hnd_id <- callback; hnd_set <- 1`, status `OK`, and nothing else changes. "From the next PUMP_ONCE on, every successfully
decoded message goes to that handler": a PUMP_ONCE with that registration dispatches every message its lines decode to, each
to `callback`; under any schedule without a reset it dispatches to no other handler; and so does the model's LINE (log 2,
DEDUCED), the resumed pump's handling of one line. -/
def Obligations.SetHandlerRegistersTheHandler : Prop :=
  ∀ (callback : HndId) (s : State),
    encode (.setHandler callback) = [4, callback] ∧
    (s.Spared 1 → exec (.setHandler callback) s =
      .next ({ s.tick hw with hndId := callback, hndSet := true }.answered (.status .ok))) ∧
    (∀ t : State, t.hndSet = true → t.hndId = callback → t.pstate ≠ .detached → t.env = [] → t.HandlersReturn →
      t.dispTx = none → t.srcs.wf → t.lb.wf →
        ∃ u, exec .pumpOnce t = .next u ∧
          u.trace = t.trace ++ pumpEvents t.srcId (some callback) (t.srcQueue.length + 1) t.srcQueue) ∧
    (∀ t u : State, t.hndSet = true → t.hndId = callback → t.NoReset → exec .pumpOnce t = .next u →
      ∃ events, u.trace = t.trace ++ events ∧ ∀ h m, Event.disp h m ∈ events → h = callback) ∧
    ∀ (t : State) (text : Line) (m : Message), t.hndSet = true → t.hndId = callback → t.pstate ≠ .detached →
      text ≠ [] → decodeLine hw (text.take hw.lineCap) = .ok m →
        ∃ u, exec (.line text) t = .next u ∧ u.trace = t.trace ++ [.disp callback m]

/-- Which instruction may write what (R74, R75, R195, R249): as long as no reset strikes, only ATTACH_SOURCE writes
`src_id`, only SET_DEFAULT_SOURCE_ADDRESS `defsrc`, only SET_HANDLER the handler registration, only ATTACH_SOURCE and
DETACH_SOURCE move `pstate` to and from `DETACHED`, only PUMP_ONCE touches LB, `term_seen` and the sources, only ENCODE the
buffer ENC, and only DECODE, PUMP_ONCE and a line PAY. `busy` is 0 after every command but a PUMP_ONCE with a handler
running, and only PUMP_ONCE and a line touch the DISP transaction in progress: a line that does not start one leaves it and
`busy` alone, and a PUMP_ONCE that ends, on source queues in canonical form, either leaves `busy = 1` with a DISP transaction
in progress or starts none (R28, R66). Meanwhile the environment does what is scheduled for the moments of the command
(log 4) and nothing else: on queues in canonical form a source that is not read only gains what is fed to it (R64), CMD keeps
what waits there, and a handler may return. -/
def Obligations.EachRegisterHasItsWriter : Prop :=
  ∀ (i : Instr) (s t : State), s.NoReset → exec i s = .next t →
    ∃ ticks, s.env = ticks ++ t.env ∧ (∃ later, t.cmdq = s.cmdq ++ later) ∧
    ((∀ text, i = .line text → ticks = [] ∧ t.cmdq = s.cmdq)) ∧
    (i ≠ .pumpOnce → s.srcs.wf → ∀ j, t.srcs.get j = s.srcs.get j ++ fedBytes j ticks) ∧
    ((∀ source, i ≠ .attachSource source) → t.srcId = s.srcId) ∧
    ((∀ addr, i ≠ .setDefaultSourceAddress addr) → t.defsrc = s.defsrc) ∧
    ((∀ callback, i ≠ .setHandler callback) → t.hndSet = s.hndSet ∧ t.hndId = s.hndId) ∧
    ((∀ source, i ≠ .attachSource source) → i ≠ .detachSource → (t.pstate = .detached ↔ s.pstate = .detached)) ∧
    (i ≠ .pumpOnce → t.lb = s.lb ∧ t.lbLen = s.lbLen ∧ t.termSeen = s.termSeen) ∧
    ((∀ m capacity, i ≠ .encode m capacity) → t.enc = s.enc) ∧
    ((∀ line, i ≠ .decode line) → i ≠ .pumpOnce → (∀ text, i ≠ .line text) → t.pay = s.pay) ∧
    (i ≠ .pumpOnce → (∀ text, i ≠ .line text) →
      t.busy = false ∧ (t.dispTx = s.dispTx ∨ t.dispTx = none) ∧ t.holds = s.holds) ∧
    (∀ text, i = .line text →
      (t.busy = s.busy ∧ t.dispTx = s.dispTx) ∨ (t.busy = true ∧ t.dispTx.isSome = true)) ∧
    (i = .pumpOnce → s.srcs.wf →
      (t.busy = true ∧ t.dispTx.isSome = true) ∨ (t.busy = false ∧ (t.dispTx = s.dispTx ∨ t.dispTx = none))) ∧
    t.freeIdx = s.freeIdx

/-- R27: of all the events of the table only ATTACH_SOURCE leaves `DETACHED`. If a step of the machine starts in
`DETACHED` and ends in another state, it ran ATTACH_SOURCE, the command at the head of CMD (as its bytes are in the model's
layout, log 1), and `src_id` is its operand. -/
def Obligations.OnlyAttachLeavesDetached : Prop :=
  ∀ s t : State, s.pstate = .detached → step s = .next t → t.pstate ≠ .detached →
    ∃ source rest, (s.tick hw).cmdq = encode (.attachSource source) :: rest ∧ t.srcId = source ∧ t.pstate = .idle

/-! ### DECODE (`41_decoder.md`, `30_encoding.md` section 3) -/

/-- `hexval` (R97): the digits, the upper-case and the lower-case letters, and no other byte; the value of any other byte is
`HexFallback`'s. -/
def Obligations.HexvalTable : Prop :=
  ∀ ch : Byte,
    (0x30 ≤ ch.toNat ∧ ch.toNat ≤ 0x39 → hexDigit? ch = some (ch.toNat - 0x30)) ∧
    (0x41 ≤ ch.toNat ∧ ch.toNat ≤ 0x46 → hexDigit? ch = some (ch.toNat - 0x41 + 10)) ∧
    (0x61 ≤ ch.toNat ∧ ch.toNat ≤ 0x66 → hexDigit? ch = some (ch.toNat - 0x61 + 10)) ∧
    ((ch.toNat < 0x30 ∨ 0x39 < ch.toNat ∧ ch.toNat < 0x41 ∨ 0x46 < ch.toNat ∧ ch.toNat < 0x61 ∨ 0x66 < ch.toNat) →
      hexDigit? ch = none ∧ ∀ c : Params, hexField c [ch] = c.hexFallback [ch])

/-- "Start marker: any line whose first character is not the marker decodes to `InvalidStart`", whatever its length
(R166). The command answers that code, and the state is otherwise as before but for the hidden PAY (R162). -/
def Obligations.WrongMarkerIsInvalidStart : Prop :=
  ∀ (first : Byte) (rest : Line) (s : State), first ≠ 0x41 →
    decodeLine hw (first :: rest) = .err .invalidStart ∧
    (s.Spared 1 →
      ∃ pay', exec (.decode (first :: rest)) s = .next ({ s.tick hw with pay := pay' }.answered (.status .invalidStart)))

/-- "Minimum length" (R165 as it reads "In this spec", R151, R152 and D13, R270 and C1): a line shorter than 24 characters whose first character is the marker decodes to `TooShort`
whatever else it holds; a shorter line with another first character, and the empty line, to `InvalidStart`. -/
def Obligations.ShortLineIsTooShort : Prop :=
  ∀ (line : Line) (s : State), line.length < 24 → s.Spared 1 →
    ∃ pay', exec (.decode line) s = .next ({ s.tick hw with pay := pay' }.answered
      (.status (if line.head? = some 0x41 then .tooShort else .invalidStart)))

/-- "Payload bound" (R167, R158): with the marker and more than `MAX_PAYLOAD` pairs the answer is `PayloadTooLong` and
carries no message; with `MAX_PAYLOAD` pairs it does not. The state is otherwise as before but for the hidden PAY. -/
def Obligations.LongPayloadIsRejected : Prop :=
  ∀ (line : Line) (s : State), line.head? = some 0x41 → 24 ≤ line.length →
    (223 < (line.length - 24) / 2 → decodeLine hw line = .err .payloadTooLong ∧
      (s.Spared 1 →
        ∃ pay', exec (.decode line) s = .next ({ s.tick hw with pay := pay' }.answered (.status .payloadTooLong)))) ∧
    ((line.length - 24) / 2 ≤ 223 → ∃ m, decodeLine hw line = .ok m ∧ m.plen ≤ 223 ∧
      (s.Spared 1 → ∃ pay', exec (.decode line) s = .next ({ s.tick hw with pay := pay' }.answered (.message m))))

/-- DECODE of an acceptable line, by fixed character offset (R154, R157, R163), a character that is no hex digit counting
as nibble 0 (R98, D9): the message, every field of it, on RSP with status `OK`; PAY's first `plen` bytes are the payload
(R38) and the others as before (the model's choice, log 11); nothing on ERR or DISP, and nothing else changes. -/
def Obligations.DecodeReadsFieldsByOffset : Prop :=
  ∀ (line : Line) (s : State), line.head? = some 0x41 → 24 ≤ line.length → (line.length - 24) / 2 ≤ 223 → s.pay.wf →
    s.Spared 1 →
    ∃ m pay',
      exec (.decode line) s = .next ({ s.tick hw with pay := pay' }.answered (.message m)) ∧
      pay'.readBytes 0 m.plen = m.payload ∧ (∀ a ≥ m.plen, pay'.read a = s.pay.read a) ∧
      m.source.toNat = 16 * nibbleAt line 12 + nibbleAt line 13 ∧
      m.destination.toNat = 16 * nibbleAt line 14 + nibbleAt line 15 ∧
      m.priority.toNat = nibbleAt line 16 ∧
      m.pgn.toNat = 65536 * nibbleAt line 18 + 4096 * nibbleAt line 19 + 256 * nibbleAt line 20 +
        16 * nibbleAt line 21 + nibbleAt line 22 ∧
      m.plen = (line.length - 24) / 2 ∧
      ∀ i < m.plen, (charAt m.payload i).toNat = 16 * nibbleAt line (24 + 2 * i) + nibbleAt line (25 + 2 * i)

/-- "Odd trailing nibble tolerance" (R168, R159): a line that decodes successfully and has whole pairs only decodes to the
same message with one more character behind it, whatever character that is. -/
def Obligations.LeftoverCharacterIsIgnored : Prop :=
  ∀ (line : Line) (last : Byte) (s : State), line.head? = some 0x41 → 24 ≤ line.length → line.length % 2 = 0 →
    (line.length - 24) / 2 ≤ 223 →
    exec (.decode (line ++ [last])) s = exec (.decode line) s ∧
      ∃ m, decodeLine hw line = .ok m ∧ decodeLine hw (line ++ [last]) = .ok m ∧
        (s.Spared 1 → ∃ t, exec (.decode (line ++ [last])) s = .next t ∧ t.trace = s.trace ++ [.rsp (.message m)])

/-- "Two lines that differ only in those 13 characters decode to the same result" (R156): the timestamp [1..11) and the
separators at 11, 17 and 23 are never looked at. -/
def Obligations.TimestampAndSeparatorsAreIgnored : Prop :=
  ∀ (line line' : Line) (s : State), line.length = line'.length →
    (∀ i, ¬(1 ≤ i ∧ i < 12) → i ≠ 17 → i ≠ 23 → charAt line i = charAt line' i) →
    exec (.decode line) s = exec (.decode line') s

/-- U1: a claim about lines whose hex fields are all hex digits holds under every `HexFallback`, because DECODE does not
consult it on such a line (R98, R99). -/
def Obligations.FallbackMattersOnlyForBadDigits : Prop :=
  ∀ (c : Params) (fallback : List Byte → Nat) (line : Line), DigitsValid line →
    decodeLine { c with hexFallback := fallback } line = decodeLine c line

/-- The source's worked example (R170): the 42 characters decode to its message, and the command answers it in every state
of the machine. -/
def Obligations.DecodeWorkedExample : Prop :=
  ∃ (line : Line) (m : Message),
    line = [0x41, 0x31, 0x37, 0x33, 0x33, 0x32, 0x31, 0x2E, 0x31, 0x30, 0x37, 0x20, 0x32, 0x33, 0x46, 0x46, 0x37, 0x20,
      0x31, 0x46, 0x35, 0x31, 0x33, 0x20, 0x30, 0x31, 0x32, 0x46, 0x33, 0x30, 0x37, 0x30, 0x30, 0x30, 0x32, 0x46,
      0x33, 0x30, 0x37, 0x30, 0x39, 0x46] ∧
    m = WireMessage.mk 0x1F513 0x23 0xFF 7 [0x01, 0x2F, 0x30, 0x70, 0x00, 0x2F, 0x30, 0x70, 0x9F] ∧
    decodeLine hw line = .ok m ∧
    ∀ s : State, s.Spared 1 →
      ∃ t, exec (.decode line) s = .next t ∧ t.trace = s.trace ++ [.rsp (.message m)]

/-! ### ENCODE (`42_encoder.md`) -/

/-- ENCODE with room for the whole line and the sentinel (R182, R183, R188, R190): status `OK`, nothing on ERR, `len = 24 +
2 x plen`, the text in the layout of R182 and R183, the text and a 0x00 behind it in ENC and every other byte of ENC as
before, and nothing else changes. -/
def Obligations.EncodeWritesTheLine : Prop :=
  ∀ (m : Message) (capacity : Capacity) (s : State), 25 + 2 * m.plen ≤ capacity.toNat → s.enc.wf →
    s.Spared (encodeMoments m.plen capacity.toNat) →
    ∃ (text : Line) (enc' : Memory),
      exec (.encode m capacity) s = .next ({ s.ticks hw (encodeMoments m.plen capacity.toNat) with enc := enc' }.answered
        (.encoded .ok (BitVec.ofNat 16 (24 + 2 * m.plen)) text)) ∧
      enc'.readBytes 0 (25 + 2 * m.plen) = text ++ [0] ∧ (∀ a > 24 + 2 * m.plen, enc'.read a = s.enc.read a) ∧
      text.length = 24 + 2 * m.plen ∧
      text.take 12 = [0x41, 0x30, 0x30, 0x30, 0x30, 0x30, 0x30, 0x2E, 0x30, 0x30, 0x30, 0x20] ∧
      charAt text 12 = hexDigitChar (m.source.toNat / 16) ∧ charAt text 13 = hexDigitChar (m.source.toNat % 16) ∧
      charAt text 14 = hexDigitChar (m.destination.toNat / 16) ∧
      charAt text 15 = hexDigitChar (m.destination.toNat % 16) ∧
      charAt text 16 = hexDigitChar m.priority.toNat ∧ charAt text 17 = 0x20 ∧
      (∀ j < 5, charAt text (18 + j) = hexDigitChar (m.pgn.toNat / 16 ^ (4 - j) % 16)) ∧ charAt text 23 = 0x20 ∧
      ∀ i < m.plen, charAt text (24 + 2 * i) = hexDigitChar ((charAt m.payload i).toNat / 16) ∧
        charAt text (25 + 2 * i) = hexDigitChar ((charAt m.payload i).toNat % 16)

/-- ENCODE with room for the header but not for the payload (R185, R186, R188, R190): it answers `OverflowOnEncode` with
the text of the first `k = (capacity - 25) div 2` payload bytes, exactly what ENCODE writes for the message cut to `k`
bytes, sends one ERR event, and changes nothing else. -/
def Obligations.EncodeTruncatesAtCapacity : Prop :=
  ∀ (m : Message) (capacity : Capacity) (s : State), 25 ≤ capacity.toNat →
    capacity.toNat < 25 + 2 * m.plen → s.enc.wf → s.Spared (encodeMoments m.plen capacity.toNat) →
    ∃ (text : Line) (enc' : Memory),
      exec (.encode m capacity) s = .next
        ({ s.ticks hw (encodeMoments m.plen capacity.toNat) with
            enc := enc', trace := s.trace ++ [Event.err .overflowOnEncode] }.answered
          (.encoded .overflowOnEncode (BitVec.ofNat 16 (24 + 2 * ((capacity.toNat - 25) / 2))) text)) ∧
      exec (.encode (cutMessage m ((capacity.toNat - 25) / 2)) capacity) s =
        .next ({ s.ticks hw (encodeMoments ((capacity.toNat - 25) / 2) capacity.toNat) with enc := enc' }.answered
          (.encoded .ok (BitVec.ofNat 16 (24 + 2 * ((capacity.toNat - 25) / 2))) text))

/-- ENCODE without room for the header and the sentinel (R189): no text, `len = 0`, one byte 0x00 at `ENC[0]` if there is
a position 0, `OverflowOnEncode` on RSP and once on ERR. -/
def Obligations.EncodeWithoutRoomForTheHeader : Prop :=
  ∀ (m : Message) (capacity : Capacity) (s : State), capacity.toNat < 25 → s.enc.wf →
    s.Spared (encodeMoments m.plen capacity.toNat) →
    ∃ enc' : Memory,
      exec (.encode m capacity) s = .next
        ({ s.ticks hw (encodeMoments m.plen capacity.toNat) with
            enc := enc', trace := s.trace ++ [Event.err .overflowOnEncode] }.answered
          (.encoded .overflowOnEncode 0 [])) ∧
      (1 ≤ capacity.toNat → enc'.read 0 = 0) ∧ (∀ a ≥ min 1 capacity.toNat, enc'.read a = s.enc.read a)

/-- "ENCODE never writes an index at or above `capacity`" (R181), whatever the message, the capacity and the contents of
ENC, and whether a reset strikes it or not. -/
def Obligations.EncodeStaysBelowCapacity : Prop :=
  ∀ (m : Message) (capacity : Capacity) (s t : State), exec (.encode m capacity) s = .next t →
    ∀ a ≥ capacity.toNat, t.enc.read a = s.enc.read a

/-- "Digits are upper case always. ENCODE never writes a lower-case letter, a carriage return or the terminator" (R184):
neither in the text it returns nor in a byte of ENC that it changes, be it aborted by a reset or not. -/
def Obligations.EncodeTextIsPlain : Prop :=
  ∀ (m : Message) (capacity : Capacity) (s t : State), s.enc.wf → exec (.encode m capacity) s = .next t →
    (∀ events code len text, t.trace = s.trace ++ events ++ [.rsp (.encoded code len text)] →
      ∀ b ∈ text, ¬(0x61 ≤ b.toNat ∧ b.toNat ≤ 0x7A) ∧ b ≠ 0x0D ∧ b ≠ 0x0A) ∧
    ∀ a, t.enc.read a ≠ s.enc.read a →
      ¬(0x61 ≤ (t.enc.read a).toNat ∧ (t.enc.read a).toNat ≤ 0x7A) ∧ t.enc.read a ≠ 0x0D ∧ t.enc.read a ≠ 0x0A

/-- A record with `plen > MAX_PAYLOAD` "is not an operand of ENCODE" (R192, R23, D31): every Wire Message keeps the bound
and ENCODE of every one completes with its RSP, whatever the capacity, unless a reset strikes it; and the bytes of an ENCODE transaction that declare more are no
command: a step that finds them on CMD refuses them by name (the model's choice, log 14, log 15). -/
def Obligations.EncodeTakesWireMessagesOnly : Prop :=
  (∀ (m : Message) (capacity : Capacity) (s : State), m.plen ≤ 223 ∧ ∃ t, exec (.encode m capacity) s = .next t ∧
    (s.Spared (encodeMoments m.plen capacity.toNat) →
      ∃ events code len text, t.trace = s.trace ++ events ++ [.rsp (.encoded code len text)])) ∧
  ∀ (fields : List Byte) (plen : Byte) (rest : List Byte) (behind : List (List Byte)) (s : State),
    fields.length = 6 → (charAt fields 5).toNat < 16 → 223 < plen.toNat →
    (s.tick hw).busy = false → (s.tick hw).cmdq = (7 :: fields ++ plen :: rest) :: behind →
    step s = .refused (.malformedCommand (.notAWireMessage plen.toNat))

/-- The round trip (R196): a Wire Message with `pgn <= 0xFFFFF`, encoded with `capacity >= 25 + 2 x plen`, gives status `OK`
and a text of `24 + 2 x plen` characters that DECODE, in any state, answers with that message. -/
def Obligations.EncodeDecodeRoundTrip : Prop :=
  ∀ (m : Message) (capacity : Capacity) (s : State), m.pgn.toNat ≤ 0xFFFFF →
    25 + 2 * m.plen ≤ capacity.toNat → s.enc.wf → s.Spared (encodeMoments m.plen capacity.toNat) →
    ∃ t len text, exec (.encode m capacity) s = .next t ∧ t.trace = s.trace ++ [.rsp (.encoded .ok len text)] ∧
      len.toNat = 24 + 2 * m.plen ∧
      decodeLine hw text = .ok m ∧
      ∀ s' : State, s'.Spared 1 → ∃ t', exec (.decode text) s' = .next t' ∧ t'.trace = s'.trace ++ [.rsp (.message m)]

/-- "A text returned with `OverflowOnEncode` is a valid line with fewer payload bytes" (R318), if there is a text at all: it
decodes to the message with the payload cut to what was written and, in any case, `pgn[19:0]` for the PGN (R21). -/
def Obligations.TruncatedTextIsAValidLine : Prop :=
  ∀ (m : Message) (capacity : Capacity) (s : State), 25 ≤ capacity.toNat → s.enc.wf →
    s.Spared (encodeMoments m.plen capacity.toNat) →
    ∃ t code len text, exec (.encode m capacity) s = .next t ∧
      t.trace.getLast? = some (.rsp (.encoded code len text)) ∧
      (code = .overflowOnEncode ↔ capacity.toNat < 25 + 2 * m.plen) ∧
      decodeLine hw text = .ok { cutMessage m ((capacity.toNat - 25) / 2) with
        pgn := (m.pgn.setWidth 20).setWidth 24 }

/-! ### The Line Accumulator (`40_line_accumulator.md`) -/

/-- READ_LINE from the head of the pump's loop, whatever the producer does meanwhile (R131 to R137): it pulls the bytes of
one line, in order, and then either the terminator or a `none`; the candidate line is the first `LINE_CAP` of them; it ends
in `IDLE`. Neither the terminator nor a dropped byte is in the candidate, and nothing else appears on a channel. The bytes
come from the attached source: what it held and what the producer appended meanwhile is what was pulled, the terminator if
it was seen, and what the source still holds, in that order; `none` is answered only by an empty source; every other source
has lost nothing. One tick of the schedule is taken before each `SrcRead()`, as long as there are any (the model's log 4). -/
def Obligations.ReadLineKeepsWhatFits : Prop :=
  ∀ s t : State, s.busy = true → s.NoReset → s.srcs.wf → s.lb.wf → t = readLine hw s.startLine →
    ∃ (consumed : Line) (ticks : List Tick), hw.term ∉ consumed ∧
      t.candidate = consumed.take 300 ∧ t.lbLen = min consumed.length 300 ∧ t.pstate = .idle ∧ t.busy = true ∧
      t.trace = s.trace ++ byteReads s.srcId consumed ++ [.srcRead s.srcId (if t.termSeen then some hw.term else none)] ∧
      s.env = ticks ++ t.env ∧ ticks.length = min (consumed.length + 1) s.env.length ∧
      s.srcQueue ++ fedBytes s.srcId ticks = consumed ++ (if t.termSeen then [hw.term] else []) ++ t.srcQueue ∧
      (t.termSeen = false → t.srcQueue = []) ∧
      ∀ i, i ≠ s.srcId → t.srcs.get i = s.srcs.get i ++ fedBytes i ticks

/-! ### PUMP_ONCE (`43_pump.md`) -/

/-- "Detached pump is a no-op" (R228): with no attached source PUMP_ONCE performs no reads and invokes no handler, whatever
is scheduled; it changes nothing and answers `OK`, unless a reset strikes it. -/
def Obligations.DetachedPumpIsANoOp : Prop :=
  ∀ s : State, s.pstate = .detached →
    (s.Spared 1 → exec .pumpOnce s = .next ((s.tick hw).answered (.status .ok))) ∧
    ∃ t, exec .pumpOnce s = .next t ∧ (t.trace = s.trace ∨ t.trace = s.trace ++ [.rsp (.status .ok)])

/-- PUMP_ONCE is the loop of R218: with the environment quiet and handlers that return, what it does on its channels is a
function of the bytes in the source: the `SrcRead()` calls of a line, what that line causes, the next line, and at the first
attempt without a line its `OK` (R72). It leaves the rest of the source, ends in `IDLE` with an empty Line Buffer and
`busy = 0` (R226), and touches no configuration register, no other source and no byte of ENC. -/
def Obligations.PumpIsAFunctionOfTheStream : Prop :=
  ∀ s : State, s.pstate ≠ .detached → s.env = [] → s.HandlersReturn → s.dispTx = none → s.srcs.wf → s.lb.wf →
    ∃ t, exec .pumpOnce s = .next t ∧
      t.trace = s.trace ++ pumpEvents s.srcId s.handler (s.srcQueue.length + 1) s.srcQueue ∧
      t.srcs = s.srcs.set s.srcId (pumpRest hw (s.srcQueue.length + 1) s.srcQueue) ∧
      t.pstate = .idle ∧ t.busy = false ∧ t.lbLen = 0 ∧ t.dispTx = none ∧
      t.srcId = s.srcId ∧ t.hndSet = s.hndSet ∧ t.hndId = s.hndId ∧ t.defsrc = s.defsrc ∧
      t.enc = s.enc ∧ t.cmdq = s.cmdq ∧ t.env = [] ∧ t.freeIdx = s.freeIdx

/-- "Pump drains multiple lines per call" (R227): three complete, non-empty lines that decode, a registered handler, all of
it queued when the call starts: one PUMP_ONCE invokes the handler exactly three times, in line order, and reports nothing. -/
def Obligations.PumpDrainsThreeLines : Prop :=
  ∀ (s : State) (l1 l2 l3 : Line) (m1 m2 m3 : Message),
    s.pstate = .idle → s.env = [] → s.HandlersReturn → s.dispTx = none → s.hndSet = true → s.srcs.wf → s.lb.wf →
    l1 ≠ [] → l2 ≠ [] → l3 ≠ [] → hw.term ∉ l1 → hw.term ∉ l2 → hw.term ∉ l3 →
    s.srcQueue = l1 ++ [hw.term] ++ l2 ++ [hw.term] ++ l3 ++ [hw.term] →
    decodeLine hw (l1.take 300) = .ok m1 → decodeLine hw (l2.take 300) = .ok m2 →
    decodeLine hw (l3.take 300) = .ok m3 →
    ∃ t, exec .pumpOnce s = .next t ∧ t.dispLog = s.dispLog ++ [(s.hndId, m1), (s.hndId, m2), (s.hndId, m3)] ∧
      t.errLog = s.errLog ∧ t.srcQueue = []

/-- A PUMP_ONCE that no reset strikes, with handlers that return, completes under every schedule of the producer and the
host, and the last thing it does is its one RSP, with `OK` whatever happened inside it (R210, R221, R72 (e)). `pstate` is
then what it was, and the Line Buffer is empty if a source was attached (R226). -/
def Obligations.PumpAlwaysAnswersOk : Prop :=
  ∀ s : State, s.pstate ≠ .accumulating → s.NoReset → s.HandlersReturn → s.dispTx = none → s.srcs.wf →
    ∃ t events, exec .pumpOnce s = .next t ∧ t.trace = s.trace ++ events ++ [.rsp (.status .ok)] ∧
      (∀ r, Event.rsp r ∉ events) ∧ t.busy = false ∧ t.dispTx = none ∧ t.pstate = s.pstate ∧
      (s.pstate ≠ .detached → t.lbLen = 0)

/-- The bound of R224: the loop of a running command has returned after `pumpBound` iterations, so that more iterations
change nothing, whatever is scheduled (log 4). -/
def Obligations.PumpBoundSuffices : Prop :=
  ∀ (s : State) (n : Nat), s.busy = true → s.srcs.wf → pumpBound s ≤ n →
    pumpLoop n s = pumpLoop (pumpBound s) s

/-- R224: with the producer quiet PUMP_ONCE performs at most `q + 2` `SrcRead()` calls on a source of `q` bytes, "one per
byte, and at most two that answer `none`". -/
def Obligations.PumpReadsAtMostTwoMore : Prop :=
  ∀ s t : State, s.env = [] → s.srcs.wf → exec .pumpOnce s = .next t →
    t.srcLog.length ≤ s.srcLog.length + s.srcQueue.length + 2

/-- An empty line ends the call (R222): a terminator that comes first is read, the PUMP_ONCE completes with `OK` and
`busy = 0`, nothing is dispatched or reported, and the bytes behind it stay in the source for the next PUMP_ONCE. -/
def Obligations.EmptyLineEndsTheCall : Prop :=
  ∀ (s : State) (rest : List Byte), s.pstate = .idle → s.env = [] → s.srcs.wf → s.srcQueue = hw.term :: rest →
    ∃ t, exec .pumpOnce s = .next t ∧ t.trace = s.trace ++ [.srcRead s.srcId (some hw.term), .rsp (.status .ok)] ∧
      t.busy = false ∧ t.pstate = .idle ∧ t.srcQueue = rest ∧ t.dispLog = s.dispLog ∧ t.errLog = s.errLog ∧ t.lbLen = 0

/-- R312: "`PayloadTooLong` cannot occur through the pump at the defaults", nor can any code but `InvalidStart` and
`TooShort`: what a PUMP_ONCE adds to the trace carries no other, and neither does what a step adds, a step of a resumed
PUMP_ONCE among them (log 6), unless it runs an ENCODE, which may report `OverflowOnEncode` (R190). -/
def Obligations.PumpReportsOnlyTwoErrors : Prop :=
  (∀ s t : State, exec .pumpOnce s = .next t →
    ∃ events, t.trace = s.trace ++ events ∧
      ∀ code, Event.err code ∈ events → code = .invalidStart ∨ code = .tooShort) ∧
  ∀ s t : State, step s = .next t →
    ∃ events, t.trace = s.trace ++ events ∧
      ∀ code, Event.err code ∈ events → code = .invalidStart ∨ code = .tooShort ∨
        code = .overflowOnEncode ∧ (s.tick hw).busy = false ∧
          ∃ m capacity rest, (s.tick hw).cmdq = encode (.encode m capacity) :: rest

/-- The pump's handling of one candidate line, the meaning of LINE (R215, R216, R217, log 2): an attached source and a
non-empty line give, with its first `LINE_CAP` characters, one DISP transaction to the registered handler, or nothing if
there is none, or one ERR event with the decode error's code; nothing else is seen on a channel and `pstate` stays. A
handler that is still running when the step ends leaves its DISP transaction in progress (R66, log 5). PAY's first bytes
are the payload of the message and the others as before (R38, R163; the others by the model's choice, log 11), and after an
error PAY is as before (log 11). A detached block and an empty line do nothing at all (R210, R213). -/
def Obligations.LineIsDispatchedOrReported : Prop :=
  ∀ (text : Line) (s : State),
    (s.pstate = .detached ∨ text = [] → exec (.line text) s = .next s) ∧
    (s.pstate ≠ .detached → text ≠ [] →
      (∀ e, decodeLine hw (text.take 300) = .err e →
        exec (.line text) s = .next { s with trace := s.trace ++ [.err e.status] }) ∧
      (∀ m, decodeLine hw (text.take 300) = .ok m → s.hndSet = false →
        exec (.line text) s = .next { s with pay := s.pay.writeBytes 0 m.payload }) ∧
      (∀ m, decodeLine hw (text.take 300) = .ok m → s.hndSet = true → s.holds.headD false = false →
        exec (.line text) s = .next
          { s with
            pay := s.pay.writeBytes 0 m.payload, trace := s.trace ++ [.disp s.hndId m], holds := s.holds.tail }) ∧
      (∀ m, decodeLine hw (text.take 300) = .ok m → s.hndSet = true → s.holds.headD false = true →
        exec (.line text) s = .next
          { s with
            pay := s.pay.writeBytes 0 m.payload, trace := s.trace ++ [.disp s.hndId m], holds := s.holds.tail
            busy := true, dispTx := some (s.hndId, m) }))

/-- R66: while the handler runs the block does nothing else. A handler that does not return within its step leaves PUMP_ONCE
incomplete: `busy = 1`, the DISP transaction in progress, no RSP, and the lines behind its own still in the source. -/
def Obligations.RunningHandlerHoldsThePump : Prop :=
  ∀ (s : State) (l rest : Line) (m : Message) (hs : List Bool),
    s.pstate = .idle → s.env = [] → s.holds = true :: hs → s.dispTx = none → s.hndSet = true → s.srcs.wf → s.lb.wf →
    l ≠ [] → hw.term ∉ l → s.srcQueue = l ++ hw.term :: rest → decodeLine hw (l.take 300) = .ok m →
    ∃ t, exec .pumpOnce s = .next t ∧ t.busy = true ∧ t.dispTx = some (s.hndId, m) ∧ t.srcQueue = rest ∧
      t.rspLog = s.rspLog ∧ t.dispLog = s.dispLog ++ [(s.hndId, m)] ∧ t.holds = hs

/-- R66, R67: as long as the DISP transaction of the running command is in progress a step is the environment's tick and
nothing else: no `SrcRead()`, no ERR, no DISP, no RSP, no command accepted. -/
def Obligations.WaitingBlockDoesNothing : Prop :=
  ∀ s : State, (s.tick hw).busy = true → (s.tick hw).dispTx.isSome = true →
    step s = .next (s.tick hw) ∧ (s.tick hw).trace = s.trace ∧
      ∃ t, step s = .next t ∧ t.trace = s.trace

/-- "While `busy` is 1 the CMD channel accepts nothing" (R28): a step of a busy block, unless a reset strikes, leaves every
transaction that waits on CMD where it is; new ones may only queue up behind them (that they wait there instead of being
lost is the model's choice, log 23). -/
def Obligations.BusyBlockAcceptsNoCommand : Prop :=
  ∀ s t : State, s.busy = true → s.NoReset → step s = .next t → ∃ later, t.cmdq = s.cmdq ++ later

/-- The model's resumed pump (log 6): once the handler has returned, a step of a busy block is one iteration of the loop of
R218, from the reset of the Line Buffer to the end of the handling of one line. -/
def Obligations.ResumedStepIsOneIteration : Prop :=
  ∀ s : State, (s.tick hw).busy = true → (s.tick hw).dispTx = none → (s.tick hw).pstate ≠ .detached →
    (s.tick hw).srcs.wf → step s = .next (pumpIter (s.tick hw)).state

/-! ### Steps -/

/-- A step runs the decoded command: with no command running after the environment's tick, and the bytes of a well-formed
command at the head of CMD, the step is that command's `exec` in the state with the transaction taken off CMD (R69). -/
def Obligations.StepRunsTheCommand : Prop :=
  ∀ (s : State) (i : Instr) (rest : List (List Byte)), i.wellFormed = true → (∀ text, i ≠ .line text) →
    (s.tick hw).busy = false → (s.tick hw).cmdq = encode i :: rest →
    step s = exec i { s.tick hw with cmdq := rest }

/-- A step runs the line record at the head of the source: with a PUMP_ONCE running on an attached source, no handler running
and the environment quiet, the step takes the record and its terminator from the source through READ_LINE and is then
`exec` of LINE with the characters the Line Buffer keeps (R134, R214). -/
def Obligations.StepRunsTheLine : Prop :=
  ∀ (s : State) (text : Line) (rest : List Byte), (Instr.line text).wellFormed = true →
    s.busy = true → s.dispTx = none → s.pstate ≠ .detached → s.env = [] → s.srcs.wf → s.lb.wf →
    s.srcQueue = encode (.line text) ++ rest →
    step s = exec (.line (text.take 300))
      { s with
        pstate := .idle
        termSeen := true
        lb := s.lb.writeBytes 0 (text.take 300)
        lbLen := min text.length 300
        srcs := s.srcs.set s.srcId rest
        trace := s.trace ++ (encode (.line text)).map (fun b => Event.srcRead s.srcId (some b)) }

/-- A block with no command running and none on CMD waits: its step is the environment's tick (R275, R300). Bytes on CMD
that are no command are refused by name (log 15). -/
def Obligations.IdleBlockWaits : Prop :=
  ∀ s : State, (s.tick hw).busy = false →
    ((s.tick hw).cmdq = [] → step s = .next (s.tick hw)) ∧
    ∀ bytes rest, (s.tick hw).cmdq = bytes :: rest → ¬ IsCommand bytes →
      ∃ e, step s = .refused (.malformedCommand e)

/-- The only source that is read is the attached one, and only by a PUMP_ONCE; a source only loses bytes at its head, in
order (R60, R63, R241): with the environment quiet, after a step every source holds a tail of what it held, and every source
but the attached one holds all of it. -/
def Obligations.OnlyTheAttachedSourceIsRead : Prop :=
  ∀ (s t : State) (i : SrcId), s.env = [] → s.srcs.wf → step s = .next t →
    (∃ taken, s.srcs.get i = taken ++ t.srcs.get i) ∧
    (i ≠ s.srcId ∨ s.pstate = .detached → t.srcs.get i = s.srcs.get i)

/-! ### Reset and the whole machine -/

/-- The reset event (R300, R301): whatever runs, afterwards `pstate = DETACHED`, `busy = 0`, `hnd_set = 0`, `lb_len = 0`, no
transaction is pending on any channel; the sources, the logs and ENC are untouched. `State.reset` has the same values. -/
def Obligations.ResetLeavesTheStatedValues : Prop :=
  (∀ s : State, ∃ t, t = s.envEvent hw .reset ∧ t.pstate = .detached ∧ t.busy = false ∧ t.hndSet = false ∧
    t.lbLen = 0 ∧ t.cmdq = [] ∧ t.dispTx = none ∧ t.srcs = s.srcs ∧ t.trace = s.trace ∧ t.enc = s.enc) ∧
  State.reset.pstate = .detached ∧ State.reset.busy = false ∧ State.reset.hndSet = false ∧ State.reset.lbLen = 0 ∧
  State.reset.cmdq = [] ∧ State.reset.dispTx = none

/-- Only the reset event ends a PUMP_ONCE whose handler does not return (U10): a step at which it strikes, and nothing
happens after it, leaves a detached block that waits for its first command. -/
def Obligations.ResetEndsAHungPump : Prop :=
  ∀ (s : State) (rest : List Tick), s.env = [.reset] :: rest →
    ∃ t, step s = .next t ∧ t.pstate = .detached ∧ t.busy = false ∧ t.dispTx = none ∧ t.env = rest ∧ t.trace = s.trace

/-- The state after reset is legal. -/
def Obligations.ResetStateIsLegal : Prop := State.reset.Inv ∧ State.reset.Proper

/-- Every step keeps the invariant: memories canonical and within their spaces, `0 <= lb_len <= LINE_CAP` (R33), never
`ACCUMULATING` between commands (R27), an empty Line Buffer while idle (R226), a DISP transaction only inside a running
PUMP_ONCE (R66), and only legal events on the channels: no `NoSource` (R263), PGNs below 2^20 (R21), payloads within
`MAX_PAYLOAD` (R23). -/
def Obligations.StepKeepsTheInvariant : Prop :=
  ∀ s t : State, s.Inv → step s = .next t → t.Inv

/-- A host that places nothing but commands of R107 on CMD is never refused, and no step ends in a fault: "There are no fatal
conditions within this component". -/
def Obligations.ProperHostIsNeverRefused : Prop :=
  ∀ s : State, s.Proper → ∃ t, step s = .next t ∧ t.Proper

/-- The trace only grows, and each step answers at most one command (R69): what a step adds to the trace holds at most one
RSP transaction, and that is its last event. -/
def Obligations.AtMostOneAnswerPerStep : Prop :=
  ∀ s t : State, step s = .next t → ∃ events answer : List Event, t.trace = s.trace ++ events ++ answer ∧
    (∀ r, Event.rsp r ∉ events) ∧ (answer = [] ∨ ∃ r, answer = [.rsp r])

/-- What a reset leaves unspecified can never be told (R40, U12, U13): two states that differ only in `defsrc`, `term_seen`,
PAY, LB, in `src_id` while nothing is attached and in `hnd_id` while no handler is registered, take the same step, up to
those same registers; in particular on all channels. -/
def Obligations.UnspecifiedRegistersAreNeverRead : Prop :=
  ∀ s s' : State, s.lb.wf → s'.lb.wf → s.forgetUnread = s'.forgetUnread →
    Outcome.view State.forgetUnread (step s) = Outcome.view State.forgetUnread (step s')

/-! ### The instruction stream (`30_encoding.md`) -/

/-- Decoding an encoded instruction gives it back, every operand of it, and leaves the bytes behind it (log 1). -/
def Obligations.DecodeOfEncodeIsTheInstruction : Prop :=
  ∀ (i : Instr) (rest : List Byte), i.wellFormed = true → decode (encode i ++ rest) = .ok (i, rest)

/-- A command has one encoding only: what the decoder reads as a command is exactly that command's bytes, and the command is
well-formed. -/
def Obligations.CommandsHaveOneEncoding : Prop :=
  ∀ (bytes rest : List Byte) (i : Instr), decodeCommand bytes = .ok (i, rest) →
    bytes = encode i ++ rest ∧ i.wellFormed = true ∧ ∀ text, i ≠ .line text

/-- "All eight values of `op` are assigned, so there is no illegal and no reserved command code" (R107): each code begins a
command, with the mnemonic R107 gives it, and no other first byte does. -/
def Obligations.EveryCodeIsACommand : Prop :=
  (∃ rest, decodeCommand (0 :: rest) = .ok (.nop, [])) ∧
  (∃ rest source, decodeCommand (1 :: rest) = .ok (.attachSource source, [])) ∧
  (∃ rest, decodeCommand (2 :: rest) = .ok (.detachSource, [])) ∧
  (∃ rest addr, decodeCommand (3 :: rest) = .ok (.setDefaultSourceAddress addr, [])) ∧
  (∃ rest callback, decodeCommand (4 :: rest) = .ok (.setHandler callback, [])) ∧
  (∃ rest, decodeCommand (5 :: rest) = .ok (.pumpOnce, [])) ∧
  (∃ rest line, decodeCommand (6 :: rest) = .ok (.decode line, [])) ∧
  (∃ rest m capacity, decodeCommand (7 :: rest) = .ok (.encode m capacity, [])) ∧
  ∀ (b : Byte) (rest : List Byte), 8 ≤ b.toNat → ∃ e, decodeCommand (b :: rest) = .error e

/-- Words written out by hand from R107, R108 and R90 decode to the instructions they stand for. -/
def Obligations.WrittenWordsDecode : Prop :=
  decode [1, 0x2A] = .ok (.attachSource 0x2A, []) ∧
  decode [3, 0x81] = .ok (.setDefaultSourceAddress 0x81, []) ∧
  decode [6, 0, 2, 0x41, 0x61, 0x05] = .ok (.decode [0x41, 0x61], [0x05]) ∧
  decode [7, 0x01, 0xF5, 0x13, 0x23, 0xFF, 0x07, 0x02, 0x01, 0x2F, 0x00, 0x40] =
    .ok (.encode { pgn := 0x1F513, source := 0x23, destination := 0xFF, priority := 7, payload := [0x01, 0x2F] } 64, []) ∧
  decode [0x41, 0x31, 0x0A, 0x42] = .ok (.line [0x41, 0x31], [0x42])

/-! ### Streams with an empty line, resets inside a PUMP_ONCE, and the codes -/

/-- R222, the first empty line of a stream: the complete lines before it are handled, each in order, the call ends with `OK`
at the empty line, and what is behind it stays in the source. The lines before it are handled as if the source ended there: a
PUMP_ONCE on a source that holds only them does the same on DISP and ERR. -/
def Obligations.EmptyLineSplitsTheStream : Prop :=
  ∀ (s : State) (lines : List Line) (rest : List Byte), s.pstate ≠ .detached → s.env = [] → s.HandlersReturn →
    s.dispTx = none → s.srcs.wf → s.lb.wf → (∀ l ∈ lines, l ≠ [] ∧ hw.term ∉ l) →
    s.srcQueue = lineBytes hw lines ++ hw.term :: rest →
    ∃ t u, exec .pumpOnce s = .next t ∧
      t.trace = s.trace ++ completeLineEvents s.srcId s.handler lines ++
        [.srcRead s.srcId (some hw.term), .rsp (.status .ok)] ∧
      t.busy = false ∧ t.pstate = .idle ∧ t.lbLen = 0 ∧ t.srcQueue = rest ∧
      exec .pumpOnce { s with srcs := s.srcs.set s.srcId (lineBytes hw lines) } = .next u ∧
      u.dispLog = t.dispLog ∧ u.errLog = t.errLog ∧ u.srcQueue = []

/-- A reset that strikes before a `SrcRead()` inside a running PUMP_ONCE aborts it (R300, R301; where it may strike is the
model's log 7). The source holds complete lines, then `read`, and the reset is scheduled for the moment after all of these
bytes were read (a line has one moment more than bytes, before what it causes, log 4); what else the environment does before is free. The lines were handled; the bytes of `read` are lost, with no
DISP, no ERR and no RSP for them; what is behind them stays in the source; the block is detached, with the values of R40, and
waits. The first clause is the command, the second a PUMP_ONCE that a step resumes (log 6), which handles one line a step. -/
def Obligations.ResetAbortsTheRunningPump : Prop :=
  (∀ (s : State) (lines : List Line) (read q : List Byte) (before : List Tick) (later : List Tick),
    s.pstate ≠ .detached → s.HandlersReturn → s.dispTx = none → s.srcs.wf → s.lb.wf →
    (∀ l ∈ lines, l ≠ [] ∧ hw.term ∉ l) → hw.term ∉ read → s.srcQueue = lineBytes hw lines ++ read ++ q →
    (∀ t ∈ before, EnvEvent.reset ∉ t) → before.length = (lineBytes hw lines ++ read).length + lines.length →
    s.env = before ++ [.reset] :: later →
    ∃ t, exec .pumpOnce s = .next t ∧
      t.trace = s.trace ++ completeLineEvents s.srcId s.handler lines ++ byteReads s.srcId read ∧
      t.pstate = .detached ∧ t.busy = false ∧ t.hndSet = false ∧ t.lbLen = 0 ∧ t.cmdq = [] ∧ t.dispTx = none ∧
      t.srcs.get s.srcId = q ++ fedBytes s.srcId before ∧ t.enc = s.enc ∧ t.env = later) ∧
  ∀ (s : State) (read q : List Byte) (before : List Tick) (later : List Tick),
    (s.tick hw).busy = true → (s.tick hw).dispTx = none → (s.tick hw).pstate ≠ .detached → (s.tick hw).srcs.wf →
    hw.term ∉ read → (s.tick hw).srcQueue = read ++ q →
    (∀ t ∈ before, EnvEvent.reset ∉ t) → before.length = read.length → (s.tick hw).env = before ++ [.reset] :: later →
    ∃ t, step s = .next t ∧ t.trace = s.trace ++ byteReads (s.tick hw).srcId read ∧
      t.pstate = .detached ∧ t.busy = false ∧ t.hndSet = false ∧ t.lbLen = 0 ∧ t.cmdq = [] ∧ t.dispTx = none ∧
      t.srcs.get (s.tick hw).srcId = q ++ fedBytes (s.tick hw).srcId before ∧ t.enc = s.enc ∧ t.env = later

/-- The codes: the status codes of R260 and R110, the `pstate` codes of R26 (both numberings are the spec's own decisions, D3
and D35). In a run of legal states, what stands on ERR carries a code from 1 to 4, what stands on RSP one from 0 to 4
(`NoSource`, code 5, is delivered nowhere, R263; 6 and 7 are never produced), and `pstate` between commands has code 0 or 1
(R27). -/
def Obligations.CodesOnTheChannels : Prop :=
  (Status.ok.code = 0 ∧ Status.invalidStart.code = 1 ∧ Status.tooShort.code = 2 ∧ Status.payloadTooLong.code = 3 ∧
    Status.overflowOnEncode.code = 4 ∧ Status.noSource.code = 5) ∧
  (PState.detached.code = 0 ∧ PState.idle.code = 1 ∧ PState.accumulating.code = 2) ∧
  ∀ s t : State, s.Inv → step s = .next t →
    (∀ status, Event.err status ∈ t.trace → 1 ≤ status.code.toNat ∧ status.code.toNat ≤ 4) ∧
    (∀ r, Event.rsp r ∈ t.trace → r.code.code.toNat ≤ 4) ∧ t.pstate.code.toNat ≤ 1

/-- A reset that strikes between the last `SrcRead()` of a line and what the line causes (R300, R301): the line is lost, with
no DISP and no ERR event, and if it is the empty line that ends the call, with no RSP. In the first clause the line ends with
the terminator and in the second with the source (which is fed nothing meanwhile); the third is a resumed PUMP_ONCE (log 6).
What else the environment does before is free. -/
def Obligations.ResetBetweenALineAndItsEvent : Prop :=
  (∀ (s : State) (lines : List Line) (l q : List Byte) (before later : List Tick),
    s.pstate ≠ .detached → s.HandlersReturn → s.dispTx = none → s.srcs.wf → s.lb.wf →
    (∀ l ∈ lines, l ≠ [] ∧ hw.term ∉ l) → hw.term ∉ l → s.srcQueue = lineBytes hw lines ++ l ++ hw.term :: q →
    (∀ t ∈ before, EnvEvent.reset ∉ t) → before.length = (lineBytes hw lines ++ l).length + lines.length + 1 →
    s.env = before ++ [.reset] :: later →
    ∃ t, exec .pumpOnce s = .next t ∧
      t.trace = s.trace ++ completeLineEvents s.srcId s.handler lines ++ byteReads s.srcId (l ++ [hw.term]) ∧
      t.pstate = .detached ∧ t.busy = false ∧ t.hndSet = false ∧ t.lbLen = 0 ∧ t.cmdq = [] ∧ t.dispTx = none ∧
      t.srcs.get s.srcId = q ++ fedBytes s.srcId before ∧ t.enc = s.enc ∧ t.env = later) ∧
  (∀ (s : State) (lines : List Line) (l : List Byte) (before later : List Tick),
    s.pstate ≠ .detached → s.HandlersReturn → s.dispTx = none → s.srcs.wf → s.lb.wf →
    (∀ l ∈ lines, l ≠ [] ∧ hw.term ∉ l) → hw.term ∉ l → s.srcQueue = lineBytes hw lines ++ l →
    (∀ t ∈ before, EnvEvent.reset ∉ t) → before.length = (lineBytes hw lines ++ l).length + lines.length + 1 →
    fedBytes s.srcId before = [] → s.env = before ++ [.reset] :: later →
    ∃ t, exec .pumpOnce s = .next t ∧
      t.trace = s.trace ++ completeLineEvents s.srcId s.handler lines ++ byteReads s.srcId l ++ [.srcRead s.srcId none] ∧
      t.pstate = .detached ∧ t.busy = false ∧ t.hndSet = false ∧ t.lbLen = 0 ∧ t.cmdq = [] ∧ t.dispTx = none ∧
      t.srcs.get s.srcId = [] ∧ t.enc = s.enc ∧ t.env = later) ∧
  ∀ (s : State) (l q : List Byte) (before later : List Tick),
    (s.tick hw).busy = true → (s.tick hw).dispTx = none → (s.tick hw).pstate ≠ .detached → (s.tick hw).srcs.wf →
    hw.term ∉ l → (s.tick hw).srcQueue = l ++ hw.term :: q →
    (∀ t ∈ before, EnvEvent.reset ∉ t) → before.length = l.length + 1 → (s.tick hw).env = before ++ [.reset] :: later →
    ∃ t, step s = .next t ∧ t.trace = s.trace ++ byteReads (s.tick hw).srcId (l ++ [hw.term]) ∧
      t.pstate = .detached ∧ t.busy = false ∧ t.hndSet = false ∧ t.lbLen = 0 ∧ t.cmdq = [] ∧ t.dispTx = none ∧
      t.srcs.get (s.tick hw).srcId = q ++ fedBytes (s.tick hw).srcId before ∧ t.enc = s.enc ∧ t.env = later

/-- A reset "aborts whatever command is running" (R300): one that strikes a command, whichever it is, between its acceptance
and its first action that can be seen, leaves the state that the same moment leaves without the command: nothing was
answered, dispatched, reported, read or written to ENC, and the registers are those of R40. -/
def Obligations.ResetAbortsEveryCommand : Prop :=
  ∀ (i : Instr) (s : State), (∀ text, i ≠ .line text) → s.Struck →
    ∃ t, exec i s = .next t ∧ t = s.tick hw ∧ t.pstate = .detached ∧ t.busy = false ∧ t.hndSet = false ∧ t.lbLen = 0 ∧
      t.dispTx = none ∧ t.trace = s.trace ∧ t.enc = s.enc

/-- A reset that strikes inside an ENCODE (R300), after `n` of its moments: the bytes of ENC written before it stay, since a
reset does not touch "the caller's `ENC` buffer" (R301), and hold what an undisturbed ENCODE leaves there; no other byte of
ENC has changed; the ERR event stands if it came before (R190); there is no RSP; and everything else is as the environment's
moments leave it, the reset among them. -/
def Obligations.ResetCutsEncodeShort : Prop :=
  ∀ (m : Message) (capacity : Capacity) (s : State) (n : Nat), s.enc.wf → s.Spared n → (s.ticks hw n).Struck →
    n < encodeMoments m.plen capacity.toNat →
    ∃ u t, exec (.encode m capacity) { s with env := [] } = .next u ∧ exec (.encode m capacity) s = .next t ∧
      (∀ a, t.enc.read a = if a < min n (storedBytes m.plen capacity.toNat) then u.enc.read a else s.enc.read a) ∧
      t.trace = s.trace ++ (if n ≤ storedBytes m.plen capacity.toNat then [] else [.err .overflowOnEncode]) ∧
      t = { s.ticks hw (n + 1) with enc := t.enc, trace := t.trace } ∧
      t.pstate = .detached ∧ t.busy = false ∧ t.hndSet = false ∧ t.lbLen = 0 ∧ t.dispTx = none

/-! ### The parameters -/

/-- The codec at every value of the parameters within the constraints of `00_scope.md` section 5, `MAX_PAYLOAD` from 0 to
255 (R9) among them: DECODE takes lines of up to `MAX_PAYLOAD` pairs and no more (R158), a Wire Message holds up to
`MAX_PAYLOAD` bytes, a length that fits 8 bits, and every one comes back from the text ENCODE writes for it with enough
capacity (R196), under every `HexFallback` (R13). The machine is the codec at the defaults (R7, R8, R9, R11, R12). -/
def Obligations.CodecHoldsForEveryParameter : Prop :=
  (∀ c : Params, c.Valid →
    (∀ line : Line, line.head? = some c.marker → 24 ≤ line.length →
      (c.maxPayload < (line.length - 24) / 2 → decodeLine c line = .err .payloadTooLong) ∧
      ((line.length - 24) / 2 ≤ c.maxPayload → ∃ m, decodeLine c line = .ok m ∧ m.plen = (line.length - 24) / 2)) ∧
    (∀ payload : List Byte, (∃ m : WireMessage c.maxPayload, m.payload = payload) ↔ payload.length ≤ c.maxPayload) ∧
    ∀ (m : WireMessage c.maxPayload) (capacity : Nat) (enc : Memory), m.plen < 2 ^ 8 ∧
      (m.pgn.toNat ≤ 0xFFFFF → 25 + 2 * m.plen ≤ capacity → enc.wf →
        decodeLine c ((enc.writeAll (encodeText c m capacity).writes).readBytes 0 (encodeText c m capacity).len) = .ok m)) ∧
  hw.Valid ∧ hw.marker = 0x41 ∧ hw.term = 0x0A ∧ hw.lineCap = 300 ∧ hw.maxPayload = 223 ∧
  hw.tsPlaceholder = [0x30, 0x30, 0x30, 0x30, 0x30, 0x30, 0x2E, 0x30, 0x30, 0x30]
end

