-- ==== Sys2Proof/Laws/Memory.lean ====
section
/-! SUPPORT. The laws of the sparse storage, the byte memories and the source queues: read after write, and that every
operation keeps the canonical form. -/

namespace Sys2Proof.Machine

variable {α : Type} {d : α}

/-! ### Sparse storage -/

theorem sparseGet_of_not_mem {m : List (Nat × α)} {a : Nat} (h : ∀ p ∈ m, p.1 ≠ a) : sparseGet d m a = d := by
  induction m with
  | nil => rfl
  | cons p m ih =>
    have hp := h p (by simp)
    simp [sparseGet, hp, ih fun q hq => h q (by simp [hq])]

variable [DecidableEq α]

theorem sparseSet_mem {m : List (Nat × α)} {a : Nat} {v : α} {p : Nat × α} (h : p ∈ sparseSet d m a v) :
    p = (a, v) ∧ v ≠ d ∨ p ∈ m := by
  induction m with
  | nil =>
    by_cases hv : v = d <;> simp_all [sparseSet]
  | cons q m ih =>
    obtain ⟨k, w⟩ := q
    unfold sparseSet at h
    by_cases h1 : a < k
    · by_cases hv : v = d <;> simp_all
    · by_cases h2 : a = k
      · by_cases hv : v = d
        · simp_all
        · simp [h2, hv] at h
          rcases h with h | h <;> simp_all
      · simp only [h1, h2, if_false, List.mem_cons] at h
        rcases h with h | h
        · simp [h]
        · rcases ih h with h | h
          · exact .inl h
          · exact .inr (by simp [h])

/-- Every write keeps the canonical form. -/
theorem sparseSet_wf {m : List (Nat × α)} (h : SparseWf d m) (a : Nat) (v : α) : SparseWf d (sparseSet d m a v) := by
  refine ⟨?_, fun p hp => ?_⟩
  · obtain ⟨hs, -⟩ := h
    induction m with
    | nil => by_cases hv : v = d <;> simp [sparseSet, hv]
    | cons q m ih =>
      obtain ⟨k, w⟩ := q
      have hk := (List.pairwise_cons.1 hs).1
      have hm := (List.pairwise_cons.1 hs).2
      unfold sparseSet
      by_cases h1 : a < k
      · by_cases hv : v = d
        · simpa [h1, hv] using hs
        · simp only [h1, hv, if_true, if_false, List.pairwise_cons]
          refine ⟨fun p hp => ?_, hk, hm⟩
          rcases List.mem_cons.1 hp with rfl | hp
          · exact h1
          · exact Nat.lt_trans h1 (hk p hp)
      · by_cases h2 : a = k
        · by_cases hv : v = d
          · simpa [h2, hv] using hm
          · simpa [h2, hv] using ⟨fun x y hp => hk (x, y) hp, hm⟩
        · simp only [h1, h2, if_false, List.pairwise_cons]
          refine ⟨fun p hp => ?_, ih hm⟩
          rcases sparseSet_mem hp with ⟨rfl, -⟩ | hp
          · show k < a; omega
          · exact hk p hp
  · rcases sparseSet_mem hp with ⟨rfl, hv⟩ | hp
    · exact hv
    · exact h.2 p hp

/-- A write leaves every other key alone. -/
theorem sparseGet_sparseSet_of_ne (m : List (Nat × α)) {a a' : Nat} (v : α) (h : a' ≠ a) :
    sparseGet d (sparseSet d m a v) a' = sparseGet d m a' := by
  have h' : a ≠ a' := fun e => h e.symm
  induction m with
  | nil => by_cases hv : v = d <;> simp [sparseSet, sparseGet, hv, h']
  | cons q m ih =>
    obtain ⟨k, w⟩ := q
    unfold sparseSet
    by_cases h1 : a < k
    · by_cases hv : v = d <;> simp [h1, hv, sparseGet, h']
    · by_cases h2 : a = k
      · subst h2
        by_cases hv : v = d <;> simp [hv, sparseGet, h']
      · simp only [h1, h2, if_false, sparseGet, ih]

/-- A read after a write to the same key gives the value written. -/
theorem sparseGet_sparseSet_self {m : List (Nat × α)} (h : SparseWf d m) (a : Nat) (v : α) :
    sparseGet d (sparseSet d m a v) a = v := by
  obtain ⟨hs, -⟩ := h
  induction m with
  | nil => by_cases hv : v = d <;> simp [sparseSet, sparseGet, hv]
  | cons q m ih =>
    obtain ⟨k, w⟩ := q
    have hk := (List.pairwise_cons.1 hs).1
    have hm := (List.pairwise_cons.1 hs).2
    unfold sparseSet
    by_cases h1 : a < k
    · by_cases hv : v = d
      · subst hv
        simp only [h1, if_true]
        refine sparseGet_of_not_mem fun p hp => ?_
        rcases List.mem_cons.1 hp with rfl | hp
        · exact fun e => absurd h1 (by simp only at e; omega)
        · have := hk p hp; simp only at this; omega
      · simp [h1, hv, sparseGet]
    · by_cases h2 : a = k
      · subst h2
        by_cases hv : v = d
        · subst hv
          simp only [Nat.lt_irrefl, if_true, if_false]
          exact sparseGet_of_not_mem fun p hp => by have := hk p hp; simp only at this; omega
        · simp [hv, sparseGet]
      · have h3 : ¬ k = a := fun e => h2 e.symm
        simp [h1, h2, h3, sparseGet, ih hm]

omit [DecidableEq α] in
/-- The canonical form is unique: canonical lists that read the same everywhere are equal. -/
theorem sparse_ext {m m' : List (Nat × α)} (h : SparseWf d m) (h' : SparseWf d m')
    (he : ∀ a, sparseGet d m a = sparseGet d m' a) : m = m' := by
  induction m generalizing m' with
  | nil =>
    cases m' with
    | nil => rfl
    | cons p m' => exact absurd (by simpa [sparseGet] using (he p.1).symm) (h'.2 p (by simp))
  | cons p m ih =>
    cases m' with
    | nil => exact absurd (by simpa [sparseGet] using he p.1) (h.2 p (by simp))
    | cons p' m' =>
      obtain ⟨k, w⟩ := p
      obtain ⟨k', w'⟩ := p'
      have hk := (List.pairwise_cons.1 h.1).1
      have hk' := (List.pairwise_cons.1 h'.1).1
      have hlt : ¬ k < k' := fun hlt => by
        have e := he k
        rw [sparseGet, if_pos rfl, sparseGet_of_not_mem] at e
        · exact h.2 (k, w) (by simp) e
        · intro q hq
          rcases List.mem_cons.1 hq with rfl | hq
          · simp only; omega
          · have := hk' q hq; simp only at this; omega
      have hgt : ¬ k' < k := fun hgt => by
        have e := he k'
        rw [sparseGet_of_not_mem, sparseGet, if_pos rfl] at e
        · exact h'.2 (k', w') (by simp) e.symm
        · intro q hq
          rcases List.mem_cons.1 hq with rfl | hq
          · simp only; omega
          · have := hk q hq; simp only at this; omega
      obtain rfl : k = k' := by omega
      obtain rfl : w = w' := by simpa [sparseGet] using he k
      congr 1
      refine ih ⟨(List.pairwise_cons.1 h.1).2, fun q hq => h.2 q (by simp [hq])⟩
        ⟨(List.pairwise_cons.1 h'.1).2, fun q hq => h'.2 q (by simp [hq])⟩ fun a => ?_
      by_cases hka : k = a
      · subst hka
        rw [sparseGet_of_not_mem fun q hq => by have := hk q hq; simp only at this; omega,
          sparseGet_of_not_mem fun q hq => by have := hk' q hq; simp only at this; omega]
      · simpa [sparseGet, hka] using he a

/-! ### Byte memories -/

/-- A write keeps the canonical form. -/
theorem Memory.write_wf {m : Memory} (h : m.wf) (a : Nat) (v : Byte) : (m.write a v).wf := sparseSet_wf h a v

/-- A read after a write to the same address. -/
theorem Memory.read_write_self {m : Memory} (h : m.wf) (a : Nat) (v : Byte) : (m.write a v).read a = v :=
  sparseGet_sparseSet_self h a v

/-- A write leaves every other address alone. -/
theorem Memory.read_write_of_ne (m : Memory) {a a' : Nat} (v : Byte) (h : a' ≠ a) :
    (m.write a v).read a' = m.read a' := sparseGet_sparseSet_of_ne m v h

/-- Writing bytes keeps the canonical form. -/
theorem Memory.writeBytes_wf {m : Memory} (h : m.wf) (a : Nat) (vs : List Byte) : (m.writeBytes a vs).wf := by
  induction vs generalizing m a with
  | nil => exact h
  | cons v vs ih => exact ih (Memory.write_wf h a v) (a + 1)

/-- Writing bytes leaves every address outside them alone. -/
theorem Memory.read_writeBytes_of_not_mem (m : Memory) (a : Nat) (vs : List Byte) {a' : Nat}
    (h : a' < a ∨ a + vs.length ≤ a') : (m.writeBytes a vs).read a' = m.read a' := by
  induction vs generalizing m a with
  | nil => rfl
  | cons v vs ih =>
    simp only [List.length_cons] at h
    rw [Memory.writeBytes, ih (m.write a v) (a + 1) (by omega), Memory.read_write_of_ne m v (by omega)]

/-- Reading inside the bytes written gives them. -/
theorem Memory.read_writeBytes {m : Memory} (h : m.wf) (a : Nat) (vs : List Byte) {i : Nat} (hi : i < vs.length) :
    (m.writeBytes a vs).read (a + i) = vs[i] := by
  induction vs generalizing m a i with
  | nil => simp at hi
  | cons v vs ih =>
    rw [Memory.writeBytes]
    cases i with
    | zero =>
      rw [Memory.read_writeBytes_of_not_mem _ _ _ (by omega)]
      simpa using Memory.read_write_self h a v
    | succ i =>
      have := ih (Memory.write_wf h a v) (a + 1) (i := i) (by simpa using hi)
      simpa [Nat.add_assoc, Nat.add_comm 1 i] using this

@[simp] theorem Memory.length_readBytes (m : Memory) (a n : Nat) : (m.readBytes a n).length = n := by
  induction n generalizing a with
  | zero => rfl
  | succ n ih => simp [Memory.readBytes, ih]

theorem Memory.getElem_readBytes (m : Memory) (a : Nat) {n i : Nat} (h : i < (m.readBytes a n).length) :
    (m.readBytes a n)[i] = m.read (a + i) := by
  induction n generalizing a i with
  | zero => simp at h
  | succ n ih =>
    cases i with
    | zero => rfl
    | succ i =>
      simp only [Memory.readBytes, List.getElem_cons_succ]
      rw [ih]; congr 1; omega

/-- Reading a range depends on the bytes of that range only. -/
theorem Memory.readBytes_congr {m m' : Memory} {a n : Nat} (h : ∀ i < n, m.read (a + i) = m'.read (a + i)) :
    m.readBytes a n = m'.readBytes a n := by
  refine List.ext_getElem (by simp) fun i h1 h2 => ?_
  rw [Memory.getElem_readBytes, Memory.getElem_readBytes]
  exact h i (by simpa using h1)

/-- Reading back exactly the bytes written. -/
theorem Memory.readBytes_writeBytes {m : Memory} (h : m.wf) (a : Nat) (vs : List Byte) :
    (m.writeBytes a vs).readBytes a vs.length = vs := by
  refine List.ext_getElem (by simp) fun i h1 h2 => ?_
  rw [Memory.getElem_readBytes, Memory.read_writeBytes h a vs h2]

/-- Reading one byte more. -/
theorem Memory.readBytes_succ (m : Memory) (a n : Nat) :
    m.readBytes a (n + 1) = m.readBytes a n ++ [m.read (a + n)] := by
  induction n generalizing a with
  | zero => rfl
  | succ n ih =>
    rw [Memory.readBytes, ih (a + 1)]
    simp [Memory.readBytes, Nat.add_assoc, Nat.add_comm 1 n]

/-- A free memory is canonical. -/
theorem freeMemory_wf (k n : Nat) : (freeMemory k n).wf := by
  refine ⟨?_, fun p hp => ?_⟩
  · unfold freeMemory
    rw [List.pairwise_filterMap]
    refine List.Pairwise.imp ?_ (List.pairwise_lt_range (n := n))
    intro i j hij p hp q hq
    simp only [Option.ite_none_left_eq_some, Option.some.injEq] at hp hq
    obtain ⟨-, rfl⟩ := hp
    obtain ⟨-, rfl⟩ := hq
    exact hij
  · unfold freeMemory at hp
    simp only [List.mem_filterMap, List.mem_range, Option.ite_none_left_eq_some, Option.some.injEq] at hp
    obtain ⟨i, -, hne, rfl⟩ := hp
    exact hne

/-- A free memory holds `n` bytes. -/
theorem freeMemory_lt {k n : Nat} {p : Nat × Byte} (hp : p ∈ freeMemory k n) : p.1 < n := by
  unfold freeMemory at hp
  simp only [List.mem_filterMap, List.mem_range, Option.ite_none_left_eq_some, Option.some.injEq] at hp
  obtain ⟨i, hi, -, rfl⟩ := hp
  exact hi

/-- What a memory lists after a write was listed before or is the byte written. -/
theorem Memory.mem_write {m : Memory} {a : Nat} {v : Byte} {p : Nat × Byte} (h : p ∈ m.write a v) :
    p.1 = a ∨ p ∈ m := by
  rcases sparseSet_mem h with ⟨rfl, -⟩ | h
  · exact .inl rfl
  · exact .inr h

/-- What a memory lists after writing bytes stands among them or was listed before. -/
theorem Memory.mem_writeBytes {m : Memory} {a : Nat} {vs : List Byte} {p : Nat × Byte} (h : p ∈ m.writeBytes a vs) :
    (a ≤ p.1 ∧ p.1 < a + vs.length) ∨ p ∈ m := by
  induction vs generalizing m a with
  | nil => exact .inr h
  | cons v vs ih =>
    simp only [List.length_cons]
    rcases ih h with h | h
    · exact .inl (by omega)
    · rcases Memory.mem_write h with h | h
      · exact .inl (by omega)
      · exact .inr h

/-! ### Source queues -/

/-- Replacing a queue keeps the canonical form. -/
theorem Queues.set_wf {q : Queues} (h : q.wf) (i : SrcId) (bytes : List Byte) : (q.set i bytes).wf :=
  sparseSet_wf h _ _

/-- The queue that was replaced. -/
theorem Queues.get_set_self {q : Queues} (h : q.wf) (i : SrcId) (bytes : List Byte) : (q.set i bytes).get i = bytes :=
  sparseGet_sparseSet_self h _ _

/-- Replacing a queue leaves every other source alone. -/
theorem Queues.get_set_of_ne (q : Queues) {i j : SrcId} (bytes : List Byte) (h : j ≠ i) :
    (q.set i bytes).get j = q.get j :=
  sparseGet_sparseSet_of_ne _ _ fun e => h (BitVec.eq_of_toNat_eq e)

/-- Of two replacements of one queue the second counts. -/
theorem Queues.set_set {q : Queues} (h : q.wf) (i : SrcId) (b b' : List Byte) : (q.set i b).set i b' = q.set i b' := by
  refine sparse_ext (Queues.set_wf (Queues.set_wf h i b) i b') (Queues.set_wf h i b') fun a => ?_
  by_cases ha : a = i.toNat
  · subst ha
    exact (Queues.get_set_self (Queues.set_wf h i b) i b').trans (Queues.get_set_self h i b').symm
  · exact ((sparseGet_sparseSet_of_ne _ _ ha).trans (sparseGet_sparseSet_of_ne _ _ ha)).trans
      (sparseGet_sparseSet_of_ne _ _ ha).symm

/-- Replacing a queue by itself changes nothing. -/
theorem Queues.set_get {q : Queues} (h : q.wf) (i : SrcId) : q.set i (q.get i) = q := by
  refine sparse_ext (Queues.set_wf h i _) h fun a => ?_
  by_cases ha : a = i.toNat
  · subst ha
    exact Queues.get_set_self h i _
  · exact sparseGet_sparseSet_of_ne _ _ ha

/-- The memories and the queues of `State.reset` are in canonical form. -/
theorem reset_wf : State.reset.lb.wf ∧ State.reset.pay.wf ∧ State.reset.enc.wf ∧ State.reset.srcs.wf := by
  simp [State.reset, Memory.wf, Queues.wf, SparseWf]

end Sys2Proof.Machine
end

