-- ==== Sys2Proof/Laws/State.lean ====
section
/-! SUPPORT. One lemma per field and update of the state, true by `rfl`. -/

namespace Sys2Proof.Machine

variable (s : State)

/-! ### `State.accept` -/

@[simp] theorem State.accept_pstate : s.accept.pstate = s.pstate := rfl
@[simp] theorem State.accept_busy : s.accept.busy = true := rfl
@[simp] theorem State.accept_srcId : s.accept.srcId = s.srcId := rfl
@[simp] theorem State.accept_hndSet : s.accept.hndSet = s.hndSet := rfl
@[simp] theorem State.accept_hndId : s.accept.hndId = s.hndId := rfl
@[simp] theorem State.accept_defsrc : s.accept.defsrc = s.defsrc := rfl
@[simp] theorem State.accept_lbLen : s.accept.lbLen = s.lbLen := rfl
@[simp] theorem State.accept_termSeen : s.accept.termSeen = s.termSeen := rfl
@[simp] theorem State.accept_lb : s.accept.lb = s.lb := rfl
@[simp] theorem State.accept_pay : s.accept.pay = s.pay := rfl
@[simp] theorem State.accept_enc : s.accept.enc = s.enc := rfl
@[simp] theorem State.accept_cmdq : s.accept.cmdq = s.cmdq := rfl
@[simp] theorem State.accept_dispTx : s.accept.dispTx = s.dispTx := rfl
@[simp] theorem State.accept_srcs : s.accept.srcs = s.srcs := rfl
@[simp] theorem State.accept_trace : s.accept.trace = s.trace := rfl
@[simp] theorem State.accept_env : s.accept.env = s.env := rfl
@[simp] theorem State.accept_holds : s.accept.holds = s.holds := rfl
@[simp] theorem State.accept_freeIdx : s.accept.freeIdx = s.freeIdx := rfl

/-! ### `State.respond` -/

@[simp] theorem State.respond_pstate (r : Response) : (s.respond r).pstate = s.pstate := rfl
@[simp] theorem State.respond_busy (r : Response) : (s.respond r).busy = false := rfl
@[simp] theorem State.respond_srcId (r : Response) : (s.respond r).srcId = s.srcId := rfl
@[simp] theorem State.respond_hndSet (r : Response) : (s.respond r).hndSet = s.hndSet := rfl
@[simp] theorem State.respond_hndId (r : Response) : (s.respond r).hndId = s.hndId := rfl
@[simp] theorem State.respond_defsrc (r : Response) : (s.respond r).defsrc = s.defsrc := rfl
@[simp] theorem State.respond_lbLen (r : Response) : (s.respond r).lbLen = s.lbLen := rfl
@[simp] theorem State.respond_termSeen (r : Response) : (s.respond r).termSeen = s.termSeen := rfl
@[simp] theorem State.respond_lb (r : Response) : (s.respond r).lb = s.lb := rfl
@[simp] theorem State.respond_pay (r : Response) : (s.respond r).pay = s.pay := rfl
@[simp] theorem State.respond_enc (r : Response) : (s.respond r).enc = s.enc := rfl
@[simp] theorem State.respond_cmdq (r : Response) : (s.respond r).cmdq = s.cmdq := rfl
@[simp] theorem State.respond_dispTx (r : Response) : (s.respond r).dispTx = s.dispTx := rfl
@[simp] theorem State.respond_srcs (r : Response) : (s.respond r).srcs = s.srcs := rfl
@[simp] theorem State.respond_trace (r : Response) : (s.respond r).trace = s.trace ++ [.rsp r] := rfl
@[simp] theorem State.respond_env (r : Response) : (s.respond r).env = s.env := rfl
@[simp] theorem State.respond_holds (r : Response) : (s.respond r).holds = s.holds := rfl
@[simp] theorem State.respond_freeIdx (r : Response) : (s.respond r).freeIdx = s.freeIdx := rfl

/-! ### `State.srcTake` -/

@[simp] theorem State.srcTake_pstate (b : Byte) (q : List Byte) : (s.srcTake b q).pstate = s.pstate := rfl
@[simp] theorem State.srcTake_busy (b : Byte) (q : List Byte) : (s.srcTake b q).busy = s.busy := rfl
@[simp] theorem State.srcTake_srcId (b : Byte) (q : List Byte) : (s.srcTake b q).srcId = s.srcId := rfl
@[simp] theorem State.srcTake_hndSet (b : Byte) (q : List Byte) : (s.srcTake b q).hndSet = s.hndSet := rfl
@[simp] theorem State.srcTake_hndId (b : Byte) (q : List Byte) : (s.srcTake b q).hndId = s.hndId := rfl
@[simp] theorem State.srcTake_defsrc (b : Byte) (q : List Byte) : (s.srcTake b q).defsrc = s.defsrc := rfl
@[simp] theorem State.srcTake_lbLen (b : Byte) (q : List Byte) : (s.srcTake b q).lbLen = s.lbLen := rfl
@[simp] theorem State.srcTake_termSeen (b : Byte) (q : List Byte) : (s.srcTake b q).termSeen = s.termSeen := rfl
@[simp] theorem State.srcTake_lb (b : Byte) (q : List Byte) : (s.srcTake b q).lb = s.lb := rfl
@[simp] theorem State.srcTake_pay (b : Byte) (q : List Byte) : (s.srcTake b q).pay = s.pay := rfl
@[simp] theorem State.srcTake_enc (b : Byte) (q : List Byte) : (s.srcTake b q).enc = s.enc := rfl
@[simp] theorem State.srcTake_cmdq (b : Byte) (q : List Byte) : (s.srcTake b q).cmdq = s.cmdq := rfl
@[simp] theorem State.srcTake_dispTx (b : Byte) (q : List Byte) : (s.srcTake b q).dispTx = s.dispTx := rfl
@[simp] theorem State.srcTake_srcs (b : Byte) (q : List Byte) : (s.srcTake b q).srcs = s.srcs.set s.srcId q := rfl
@[simp] theorem State.srcTake_trace (b : Byte) (q : List Byte) : (s.srcTake b q).trace = s.trace ++ [.srcRead s.srcId (some b)] := rfl
@[simp] theorem State.srcTake_env (b : Byte) (q : List Byte) : (s.srcTake b q).env = s.env := rfl
@[simp] theorem State.srcTake_holds (b : Byte) (q : List Byte) : (s.srcTake b q).holds = s.holds := rfl
@[simp] theorem State.srcTake_freeIdx (b : Byte) (q : List Byte) : (s.srcTake b q).freeIdx = s.freeIdx := rfl

/-! ### `State.srcNone` -/

@[simp] theorem State.srcNone_pstate : s.srcNone.pstate = s.pstate := rfl
@[simp] theorem State.srcNone_busy : s.srcNone.busy = s.busy := rfl
@[simp] theorem State.srcNone_srcId : s.srcNone.srcId = s.srcId := rfl
@[simp] theorem State.srcNone_hndSet : s.srcNone.hndSet = s.hndSet := rfl
@[simp] theorem State.srcNone_hndId : s.srcNone.hndId = s.hndId := rfl
@[simp] theorem State.srcNone_defsrc : s.srcNone.defsrc = s.defsrc := rfl
@[simp] theorem State.srcNone_lbLen : s.srcNone.lbLen = s.lbLen := rfl
@[simp] theorem State.srcNone_termSeen : s.srcNone.termSeen = s.termSeen := rfl
@[simp] theorem State.srcNone_lb : s.srcNone.lb = s.lb := rfl
@[simp] theorem State.srcNone_pay : s.srcNone.pay = s.pay := rfl
@[simp] theorem State.srcNone_enc : s.srcNone.enc = s.enc := rfl
@[simp] theorem State.srcNone_cmdq : s.srcNone.cmdq = s.cmdq := rfl
@[simp] theorem State.srcNone_dispTx : s.srcNone.dispTx = s.dispTx := rfl
@[simp] theorem State.srcNone_srcs : s.srcNone.srcs = s.srcs := rfl
@[simp] theorem State.srcNone_trace : s.srcNone.trace = s.trace ++ [.srcRead s.srcId none] := rfl
@[simp] theorem State.srcNone_env : s.srcNone.env = s.env := rfl
@[simp] theorem State.srcNone_holds : s.srcNone.holds = s.holds := rfl
@[simp] theorem State.srcNone_freeIdx : s.srcNone.freeIdx = s.freeIdx := rfl

/-! ### `State.report` -/

@[simp] theorem State.report_pstate (code : Status) : (s.report code).pstate = s.pstate := rfl
@[simp] theorem State.report_busy (code : Status) : (s.report code).busy = s.busy := rfl
@[simp] theorem State.report_srcId (code : Status) : (s.report code).srcId = s.srcId := rfl
@[simp] theorem State.report_hndSet (code : Status) : (s.report code).hndSet = s.hndSet := rfl
@[simp] theorem State.report_hndId (code : Status) : (s.report code).hndId = s.hndId := rfl
@[simp] theorem State.report_defsrc (code : Status) : (s.report code).defsrc = s.defsrc := rfl
@[simp] theorem State.report_lbLen (code : Status) : (s.report code).lbLen = s.lbLen := rfl
@[simp] theorem State.report_termSeen (code : Status) : (s.report code).termSeen = s.termSeen := rfl
@[simp] theorem State.report_lb (code : Status) : (s.report code).lb = s.lb := rfl
@[simp] theorem State.report_pay (code : Status) : (s.report code).pay = s.pay := rfl
@[simp] theorem State.report_enc (code : Status) : (s.report code).enc = s.enc := rfl
@[simp] theorem State.report_cmdq (code : Status) : (s.report code).cmdq = s.cmdq := rfl
@[simp] theorem State.report_dispTx (code : Status) : (s.report code).dispTx = s.dispTx := rfl
@[simp] theorem State.report_srcs (code : Status) : (s.report code).srcs = s.srcs := rfl
@[simp] theorem State.report_trace (code : Status) : (s.report code).trace = s.trace ++ [.err code] := rfl
@[simp] theorem State.report_env (code : Status) : (s.report code).env = s.env := rfl
@[simp] theorem State.report_holds (code : Status) : (s.report code).holds = s.holds := rfl
@[simp] theorem State.report_freeIdx (code : Status) : (s.report code).freeIdx = s.freeIdx := rfl

/-! ### `State.dispatch` -/

@[simp] theorem State.dispatch_pstate (m : Message) : (s.dispatch m).pstate = s.pstate := rfl
@[simp] theorem State.dispatch_busy (m : Message) : (s.dispatch m).busy = (s.busy || s.holds.headD false) := rfl
@[simp] theorem State.dispatch_srcId (m : Message) : (s.dispatch m).srcId = s.srcId := rfl
@[simp] theorem State.dispatch_hndSet (m : Message) : (s.dispatch m).hndSet = s.hndSet := rfl
@[simp] theorem State.dispatch_hndId (m : Message) : (s.dispatch m).hndId = s.hndId := rfl
@[simp] theorem State.dispatch_defsrc (m : Message) : (s.dispatch m).defsrc = s.defsrc := rfl
@[simp] theorem State.dispatch_lbLen (m : Message) : (s.dispatch m).lbLen = s.lbLen := rfl
@[simp] theorem State.dispatch_termSeen (m : Message) : (s.dispatch m).termSeen = s.termSeen := rfl
@[simp] theorem State.dispatch_lb (m : Message) : (s.dispatch m).lb = s.lb := rfl
@[simp] theorem State.dispatch_pay (m : Message) : (s.dispatch m).pay = s.pay := rfl
@[simp] theorem State.dispatch_enc (m : Message) : (s.dispatch m).enc = s.enc := rfl
@[simp] theorem State.dispatch_cmdq (m : Message) : (s.dispatch m).cmdq = s.cmdq := rfl
@[simp] theorem State.dispatch_dispTx (m : Message) : (s.dispatch m).dispTx = if s.holds.headD false then some (s.hndId, m) else s.dispTx := rfl
@[simp] theorem State.dispatch_srcs (m : Message) : (s.dispatch m).srcs = s.srcs := rfl
@[simp] theorem State.dispatch_trace (m : Message) : (s.dispatch m).trace = s.trace ++ [.disp s.hndId m] := rfl
@[simp] theorem State.dispatch_env (m : Message) : (s.dispatch m).env = s.env := rfl
@[simp] theorem State.dispatch_holds (m : Message) : (s.dispatch m).holds = s.holds.tail := rfl
@[simp] theorem State.dispatch_freeIdx (m : Message) : (s.dispatch m).freeIdx = s.freeIdx := rfl

/-! ### `State.feed` -/

@[simp] theorem State.feed_pstate (i : SrcId) (bytes : List Byte) : (s.feed i bytes).pstate = s.pstate := rfl
@[simp] theorem State.feed_busy (i : SrcId) (bytes : List Byte) : (s.feed i bytes).busy = s.busy := rfl
@[simp] theorem State.feed_srcId (i : SrcId) (bytes : List Byte) : (s.feed i bytes).srcId = s.srcId := rfl
@[simp] theorem State.feed_hndSet (i : SrcId) (bytes : List Byte) : (s.feed i bytes).hndSet = s.hndSet := rfl
@[simp] theorem State.feed_hndId (i : SrcId) (bytes : List Byte) : (s.feed i bytes).hndId = s.hndId := rfl
@[simp] theorem State.feed_defsrc (i : SrcId) (bytes : List Byte) : (s.feed i bytes).defsrc = s.defsrc := rfl
@[simp] theorem State.feed_lbLen (i : SrcId) (bytes : List Byte) : (s.feed i bytes).lbLen = s.lbLen := rfl
@[simp] theorem State.feed_termSeen (i : SrcId) (bytes : List Byte) : (s.feed i bytes).termSeen = s.termSeen := rfl
@[simp] theorem State.feed_lb (i : SrcId) (bytes : List Byte) : (s.feed i bytes).lb = s.lb := rfl
@[simp] theorem State.feed_pay (i : SrcId) (bytes : List Byte) : (s.feed i bytes).pay = s.pay := rfl
@[simp] theorem State.feed_enc (i : SrcId) (bytes : List Byte) : (s.feed i bytes).enc = s.enc := rfl
@[simp] theorem State.feed_cmdq (i : SrcId) (bytes : List Byte) : (s.feed i bytes).cmdq = s.cmdq := rfl
@[simp] theorem State.feed_dispTx (i : SrcId) (bytes : List Byte) : (s.feed i bytes).dispTx = s.dispTx := rfl
@[simp] theorem State.feed_srcs (i : SrcId) (bytes : List Byte) : (s.feed i bytes).srcs = s.srcs.set i (s.srcs.get i ++ bytes) := rfl
@[simp] theorem State.feed_trace (i : SrcId) (bytes : List Byte) : (s.feed i bytes).trace = s.trace := rfl
@[simp] theorem State.feed_env (i : SrcId) (bytes : List Byte) : (s.feed i bytes).env = s.env := rfl
@[simp] theorem State.feed_holds (i : SrcId) (bytes : List Byte) : (s.feed i bytes).holds = s.holds := rfl
@[simp] theorem State.feed_freeIdx (i : SrcId) (bytes : List Byte) : (s.feed i bytes).freeIdx = s.freeIdx := rfl

/-! ### `State.issue` -/

@[simp] theorem State.issue_pstate (bytes : List Byte) : (s.issue bytes).pstate = s.pstate := rfl
@[simp] theorem State.issue_busy (bytes : List Byte) : (s.issue bytes).busy = s.busy := rfl
@[simp] theorem State.issue_srcId (bytes : List Byte) : (s.issue bytes).srcId = s.srcId := rfl
@[simp] theorem State.issue_hndSet (bytes : List Byte) : (s.issue bytes).hndSet = s.hndSet := rfl
@[simp] theorem State.issue_hndId (bytes : List Byte) : (s.issue bytes).hndId = s.hndId := rfl
@[simp] theorem State.issue_defsrc (bytes : List Byte) : (s.issue bytes).defsrc = s.defsrc := rfl
@[simp] theorem State.issue_lbLen (bytes : List Byte) : (s.issue bytes).lbLen = s.lbLen := rfl
@[simp] theorem State.issue_termSeen (bytes : List Byte) : (s.issue bytes).termSeen = s.termSeen := rfl
@[simp] theorem State.issue_lb (bytes : List Byte) : (s.issue bytes).lb = s.lb := rfl
@[simp] theorem State.issue_pay (bytes : List Byte) : (s.issue bytes).pay = s.pay := rfl
@[simp] theorem State.issue_enc (bytes : List Byte) : (s.issue bytes).enc = s.enc := rfl
@[simp] theorem State.issue_cmdq (bytes : List Byte) : (s.issue bytes).cmdq = s.cmdq ++ [bytes] := rfl
@[simp] theorem State.issue_dispTx (bytes : List Byte) : (s.issue bytes).dispTx = s.dispTx := rfl
@[simp] theorem State.issue_srcs (bytes : List Byte) : (s.issue bytes).srcs = s.srcs := rfl
@[simp] theorem State.issue_trace (bytes : List Byte) : (s.issue bytes).trace = s.trace := rfl
@[simp] theorem State.issue_env (bytes : List Byte) : (s.issue bytes).env = s.env := rfl
@[simp] theorem State.issue_holds (bytes : List Byte) : (s.issue bytes).holds = s.holds := rfl
@[simp] theorem State.issue_freeIdx (bytes : List Byte) : (s.issue bytes).freeIdx = s.freeIdx := rfl

/-! ### `State.handlerReturns` -/

@[simp] theorem State.handlerReturns_pstate : s.handlerReturns.pstate = s.pstate := rfl
@[simp] theorem State.handlerReturns_busy : s.handlerReturns.busy = s.busy := rfl
@[simp] theorem State.handlerReturns_srcId : s.handlerReturns.srcId = s.srcId := rfl
@[simp] theorem State.handlerReturns_hndSet : s.handlerReturns.hndSet = s.hndSet := rfl
@[simp] theorem State.handlerReturns_hndId : s.handlerReturns.hndId = s.hndId := rfl
@[simp] theorem State.handlerReturns_defsrc : s.handlerReturns.defsrc = s.defsrc := rfl
@[simp] theorem State.handlerReturns_lbLen : s.handlerReturns.lbLen = s.lbLen := rfl
@[simp] theorem State.handlerReturns_termSeen : s.handlerReturns.termSeen = s.termSeen := rfl
@[simp] theorem State.handlerReturns_lb : s.handlerReturns.lb = s.lb := rfl
@[simp] theorem State.handlerReturns_pay : s.handlerReturns.pay = s.pay := rfl
@[simp] theorem State.handlerReturns_enc : s.handlerReturns.enc = s.enc := rfl
@[simp] theorem State.handlerReturns_cmdq : s.handlerReturns.cmdq = s.cmdq := rfl
@[simp] theorem State.handlerReturns_dispTx : s.handlerReturns.dispTx = none := rfl
@[simp] theorem State.handlerReturns_srcs : s.handlerReturns.srcs = s.srcs := rfl
@[simp] theorem State.handlerReturns_trace : s.handlerReturns.trace = s.trace := rfl
@[simp] theorem State.handlerReturns_env : s.handlerReturns.env = s.env := rfl
@[simp] theorem State.handlerReturns_holds : s.handlerReturns.holds = s.holds := rfl
@[simp] theorem State.handlerReturns_freeIdx : s.handlerReturns.freeIdx = s.freeIdx := rfl

/-! ### `State.endRead` -/

@[simp] theorem State.endRead_pstate : s.endRead.pstate = .idle := rfl
@[simp] theorem State.endRead_busy : s.endRead.busy = s.busy := rfl
@[simp] theorem State.endRead_srcId : s.endRead.srcId = s.srcId := rfl
@[simp] theorem State.endRead_hndSet : s.endRead.hndSet = s.hndSet := rfl
@[simp] theorem State.endRead_hndId : s.endRead.hndId = s.hndId := rfl
@[simp] theorem State.endRead_defsrc : s.endRead.defsrc = s.defsrc := rfl
@[simp] theorem State.endRead_lbLen : s.endRead.lbLen = s.lbLen := rfl
@[simp] theorem State.endRead_termSeen : s.endRead.termSeen = s.termSeen := rfl
@[simp] theorem State.endRead_lb : s.endRead.lb = s.lb := rfl
@[simp] theorem State.endRead_pay : s.endRead.pay = s.pay := rfl
@[simp] theorem State.endRead_enc : s.endRead.enc = s.enc := rfl
@[simp] theorem State.endRead_cmdq : s.endRead.cmdq = s.cmdq := rfl
@[simp] theorem State.endRead_dispTx : s.endRead.dispTx = s.dispTx := rfl
@[simp] theorem State.endRead_srcs : s.endRead.srcs = s.srcs := rfl
@[simp] theorem State.endRead_trace : s.endRead.trace = s.trace := rfl
@[simp] theorem State.endRead_env : s.endRead.env = s.env := rfl
@[simp] theorem State.endRead_holds : s.endRead.holds = s.holds := rfl
@[simp] theorem State.endRead_freeIdx : s.endRead.freeIdx = s.freeIdx := rfl

/-! ### `State.seeTerm` -/

@[simp] theorem State.seeTerm_pstate : s.seeTerm.pstate = s.pstate := rfl
@[simp] theorem State.seeTerm_busy : s.seeTerm.busy = s.busy := rfl
@[simp] theorem State.seeTerm_srcId : s.seeTerm.srcId = s.srcId := rfl
@[simp] theorem State.seeTerm_hndSet : s.seeTerm.hndSet = s.hndSet := rfl
@[simp] theorem State.seeTerm_hndId : s.seeTerm.hndId = s.hndId := rfl
@[simp] theorem State.seeTerm_defsrc : s.seeTerm.defsrc = s.defsrc := rfl
@[simp] theorem State.seeTerm_lbLen : s.seeTerm.lbLen = s.lbLen := rfl
@[simp] theorem State.seeTerm_termSeen : s.seeTerm.termSeen = true := rfl
@[simp] theorem State.seeTerm_lb : s.seeTerm.lb = s.lb := rfl
@[simp] theorem State.seeTerm_pay : s.seeTerm.pay = s.pay := rfl
@[simp] theorem State.seeTerm_enc : s.seeTerm.enc = s.enc := rfl
@[simp] theorem State.seeTerm_cmdq : s.seeTerm.cmdq = s.cmdq := rfl
@[simp] theorem State.seeTerm_dispTx : s.seeTerm.dispTx = s.dispTx := rfl
@[simp] theorem State.seeTerm_srcs : s.seeTerm.srcs = s.srcs := rfl
@[simp] theorem State.seeTerm_trace : s.seeTerm.trace = s.trace := rfl
@[simp] theorem State.seeTerm_env : s.seeTerm.env = s.env := rfl
@[simp] theorem State.seeTerm_holds : s.seeTerm.holds = s.holds := rfl
@[simp] theorem State.seeTerm_freeIdx : s.seeTerm.freeIdx = s.freeIdx := rfl

/-! ### `State.startLine` -/

@[simp] theorem State.startLine_pstate : s.startLine.pstate = s.pstate := rfl
@[simp] theorem State.startLine_busy : s.startLine.busy = s.busy := rfl
@[simp] theorem State.startLine_srcId : s.startLine.srcId = s.srcId := rfl
@[simp] theorem State.startLine_hndSet : s.startLine.hndSet = s.hndSet := rfl
@[simp] theorem State.startLine_hndId : s.startLine.hndId = s.hndId := rfl
@[simp] theorem State.startLine_defsrc : s.startLine.defsrc = s.defsrc := rfl
@[simp] theorem State.startLine_lbLen : s.startLine.lbLen = 0 := rfl
@[simp] theorem State.startLine_termSeen : s.startLine.termSeen = s.termSeen := rfl
@[simp] theorem State.startLine_lb : s.startLine.lb = s.lb := rfl
@[simp] theorem State.startLine_pay : s.startLine.pay = s.pay := rfl
@[simp] theorem State.startLine_enc : s.startLine.enc = s.enc := rfl
@[simp] theorem State.startLine_cmdq : s.startLine.cmdq = s.cmdq := rfl
@[simp] theorem State.startLine_dispTx : s.startLine.dispTx = s.dispTx := rfl
@[simp] theorem State.startLine_srcs : s.startLine.srcs = s.srcs := rfl
@[simp] theorem State.startLine_trace : s.startLine.trace = s.trace := rfl
@[simp] theorem State.startLine_env : s.startLine.env = s.env := rfl
@[simp] theorem State.startLine_holds : s.startLine.holds = s.holds := rfl
@[simp] theorem State.startLine_freeIdx : s.startLine.freeIdx = s.freeIdx := rfl

/-! ### `State.clearTerm` -/

@[simp] theorem State.clearTerm_pstate : s.clearTerm.pstate = s.pstate := rfl
@[simp] theorem State.clearTerm_busy : s.clearTerm.busy = s.busy := rfl
@[simp] theorem State.clearTerm_srcId : s.clearTerm.srcId = s.srcId := rfl
@[simp] theorem State.clearTerm_hndSet : s.clearTerm.hndSet = s.hndSet := rfl
@[simp] theorem State.clearTerm_hndId : s.clearTerm.hndId = s.hndId := rfl
@[simp] theorem State.clearTerm_defsrc : s.clearTerm.defsrc = s.defsrc := rfl
@[simp] theorem State.clearTerm_lbLen : s.clearTerm.lbLen = s.lbLen := rfl
@[simp] theorem State.clearTerm_termSeen : s.clearTerm.termSeen = false := rfl
@[simp] theorem State.clearTerm_lb : s.clearTerm.lb = s.lb := rfl
@[simp] theorem State.clearTerm_pay : s.clearTerm.pay = s.pay := rfl
@[simp] theorem State.clearTerm_enc : s.clearTerm.enc = s.enc := rfl
@[simp] theorem State.clearTerm_cmdq : s.clearTerm.cmdq = s.cmdq := rfl
@[simp] theorem State.clearTerm_dispTx : s.clearTerm.dispTx = s.dispTx := rfl
@[simp] theorem State.clearTerm_srcs : s.clearTerm.srcs = s.srcs := rfl
@[simp] theorem State.clearTerm_trace : s.clearTerm.trace = s.trace := rfl
@[simp] theorem State.clearTerm_env : s.clearTerm.env = s.env := rfl
@[simp] theorem State.clearTerm_holds : s.clearTerm.holds = s.holds := rfl
@[simp] theorem State.clearTerm_freeIdx : s.clearTerm.freeIdx = s.freeIdx := rfl

/-! ### `State.setEnv` -/

@[simp] theorem State.setEnv_pstate (ts : List Tick) : (s.setEnv ts).pstate = s.pstate := rfl
@[simp] theorem State.setEnv_busy (ts : List Tick) : (s.setEnv ts).busy = s.busy := rfl
@[simp] theorem State.setEnv_srcId (ts : List Tick) : (s.setEnv ts).srcId = s.srcId := rfl
@[simp] theorem State.setEnv_hndSet (ts : List Tick) : (s.setEnv ts).hndSet = s.hndSet := rfl
@[simp] theorem State.setEnv_hndId (ts : List Tick) : (s.setEnv ts).hndId = s.hndId := rfl
@[simp] theorem State.setEnv_defsrc (ts : List Tick) : (s.setEnv ts).defsrc = s.defsrc := rfl
@[simp] theorem State.setEnv_lbLen (ts : List Tick) : (s.setEnv ts).lbLen = s.lbLen := rfl
@[simp] theorem State.setEnv_termSeen (ts : List Tick) : (s.setEnv ts).termSeen = s.termSeen := rfl
@[simp] theorem State.setEnv_lb (ts : List Tick) : (s.setEnv ts).lb = s.lb := rfl
@[simp] theorem State.setEnv_pay (ts : List Tick) : (s.setEnv ts).pay = s.pay := rfl
@[simp] theorem State.setEnv_enc (ts : List Tick) : (s.setEnv ts).enc = s.enc := rfl
@[simp] theorem State.setEnv_cmdq (ts : List Tick) : (s.setEnv ts).cmdq = s.cmdq := rfl
@[simp] theorem State.setEnv_dispTx (ts : List Tick) : (s.setEnv ts).dispTx = s.dispTx := rfl
@[simp] theorem State.setEnv_srcs (ts : List Tick) : (s.setEnv ts).srcs = s.srcs := rfl
@[simp] theorem State.setEnv_trace (ts : List Tick) : (s.setEnv ts).trace = s.trace := rfl
@[simp] theorem State.setEnv_env (ts : List Tick) : (s.setEnv ts).env = ts := rfl
@[simp] theorem State.setEnv_holds (ts : List Tick) : (s.setEnv ts).holds = s.holds := rfl
@[simp] theorem State.setEnv_freeIdx (ts : List Tick) : (s.setEnv ts).freeIdx = s.freeIdx := rfl

/-! ### `State.stage` -/

@[simp] theorem State.stage_pstate (m : Message) : (s.stage m).pstate = s.pstate := rfl
@[simp] theorem State.stage_busy (m : Message) : (s.stage m).busy = s.busy := rfl
@[simp] theorem State.stage_srcId (m : Message) : (s.stage m).srcId = s.srcId := rfl
@[simp] theorem State.stage_hndSet (m : Message) : (s.stage m).hndSet = s.hndSet := rfl
@[simp] theorem State.stage_hndId (m : Message) : (s.stage m).hndId = s.hndId := rfl
@[simp] theorem State.stage_defsrc (m : Message) : (s.stage m).defsrc = s.defsrc := rfl
@[simp] theorem State.stage_lbLen (m : Message) : (s.stage m).lbLen = s.lbLen := rfl
@[simp] theorem State.stage_termSeen (m : Message) : (s.stage m).termSeen = s.termSeen := rfl
@[simp] theorem State.stage_lb (m : Message) : (s.stage m).lb = s.lb := rfl
@[simp] theorem State.stage_pay (m : Message) : (s.stage m).pay = s.pay.writeBytes 0 m.payload := rfl
@[simp] theorem State.stage_enc (m : Message) : (s.stage m).enc = s.enc := rfl
@[simp] theorem State.stage_cmdq (m : Message) : (s.stage m).cmdq = s.cmdq := rfl
@[simp] theorem State.stage_dispTx (m : Message) : (s.stage m).dispTx = s.dispTx := rfl
@[simp] theorem State.stage_srcs (m : Message) : (s.stage m).srcs = s.srcs := rfl
@[simp] theorem State.stage_trace (m : Message) : (s.stage m).trace = s.trace := rfl
@[simp] theorem State.stage_env (m : Message) : (s.stage m).env = s.env := rfl
@[simp] theorem State.stage_holds (m : Message) : (s.stage m).holds = s.holds := rfl
@[simp] theorem State.stage_freeIdx (m : Message) : (s.stage m).freeIdx = s.freeIdx := rfl

/-! ### `State.putEnc` -/

@[simp] theorem State.putEnc_pstate (a : Nat) (b : Byte) : (s.putEnc a b).pstate = s.pstate := rfl
@[simp] theorem State.putEnc_busy (a : Nat) (b : Byte) : (s.putEnc a b).busy = s.busy := rfl
@[simp] theorem State.putEnc_srcId (a : Nat) (b : Byte) : (s.putEnc a b).srcId = s.srcId := rfl
@[simp] theorem State.putEnc_hndSet (a : Nat) (b : Byte) : (s.putEnc a b).hndSet = s.hndSet := rfl
@[simp] theorem State.putEnc_hndId (a : Nat) (b : Byte) : (s.putEnc a b).hndId = s.hndId := rfl
@[simp] theorem State.putEnc_defsrc (a : Nat) (b : Byte) : (s.putEnc a b).defsrc = s.defsrc := rfl
@[simp] theorem State.putEnc_lbLen (a : Nat) (b : Byte) : (s.putEnc a b).lbLen = s.lbLen := rfl
@[simp] theorem State.putEnc_termSeen (a : Nat) (b : Byte) : (s.putEnc a b).termSeen = s.termSeen := rfl
@[simp] theorem State.putEnc_lb (a : Nat) (b : Byte) : (s.putEnc a b).lb = s.lb := rfl
@[simp] theorem State.putEnc_pay (a : Nat) (b : Byte) : (s.putEnc a b).pay = s.pay := rfl
@[simp] theorem State.putEnc_enc (a : Nat) (b : Byte) : (s.putEnc a b).enc = s.enc.write a b := rfl
@[simp] theorem State.putEnc_cmdq (a : Nat) (b : Byte) : (s.putEnc a b).cmdq = s.cmdq := rfl
@[simp] theorem State.putEnc_dispTx (a : Nat) (b : Byte) : (s.putEnc a b).dispTx = s.dispTx := rfl
@[simp] theorem State.putEnc_srcs (a : Nat) (b : Byte) : (s.putEnc a b).srcs = s.srcs := rfl
@[simp] theorem State.putEnc_trace (a : Nat) (b : Byte) : (s.putEnc a b).trace = s.trace := rfl
@[simp] theorem State.putEnc_env (a : Nat) (b : Byte) : (s.putEnc a b).env = s.env := rfl
@[simp] theorem State.putEnc_holds (a : Nat) (b : Byte) : (s.putEnc a b).holds = s.holds := rfl
@[simp] theorem State.putEnc_freeIdx (a : Nat) (b : Byte) : (s.putEnc a b).freeIdx = s.freeIdx := rfl

/-! ### `State.resetEvent`: the fields R300 and R301 speak of -/

@[simp] theorem State.resetEvent_pstate (c : Params) : (s.resetEvent c).pstate = .detached := rfl
@[simp] theorem State.resetEvent_busy (c : Params) : (s.resetEvent c).busy = false := rfl
@[simp] theorem State.resetEvent_hndSet (c : Params) : (s.resetEvent c).hndSet = false := rfl
@[simp] theorem State.resetEvent_lbLen (c : Params) : (s.resetEvent c).lbLen = 0 := rfl
@[simp] theorem State.resetEvent_cmdq (c : Params) : (s.resetEvent c).cmdq = [] := rfl
@[simp] theorem State.resetEvent_dispTx (c : Params) : (s.resetEvent c).dispTx = none := rfl
@[simp] theorem State.resetEvent_enc (c : Params) : (s.resetEvent c).enc = s.enc := rfl
@[simp] theorem State.resetEvent_srcs (c : Params) : (s.resetEvent c).srcs = s.srcs := rfl
@[simp] theorem State.resetEvent_trace (c : Params) : (s.resetEvent c).trace = s.trace := rfl
@[simp] theorem State.resetEvent_env (c : Params) : (s.resetEvent c).env = s.env := rfl
@[simp] theorem State.resetEvent_holds (c : Params) : (s.resetEvent c).holds = s.holds := rfl

/-! ### `State.storeByte`: everything but `pstate`, `lb` and `lbLen` is kept -/

@[simp] theorem State.storeByte_pstate (c : Params) (b : Byte) : (s.storeByte c b).pstate = .accumulating := by
  unfold State.storeByte; split <;> rfl
@[simp] theorem State.storeByte_busy (c : Params) (b : Byte) : (s.storeByte c b).busy = s.busy := by
  unfold State.storeByte; split <;> rfl
@[simp] theorem State.storeByte_srcId (c : Params) (b : Byte) : (s.storeByte c b).srcId = s.srcId := by
  unfold State.storeByte; split <;> rfl
@[simp] theorem State.storeByte_hndSet (c : Params) (b : Byte) : (s.storeByte c b).hndSet = s.hndSet := by
  unfold State.storeByte; split <;> rfl
@[simp] theorem State.storeByte_hndId (c : Params) (b : Byte) : (s.storeByte c b).hndId = s.hndId := by
  unfold State.storeByte; split <;> rfl
@[simp] theorem State.storeByte_defsrc (c : Params) (b : Byte) : (s.storeByte c b).defsrc = s.defsrc := by
  unfold State.storeByte; split <;> rfl
@[simp] theorem State.storeByte_termSeen (c : Params) (b : Byte) : (s.storeByte c b).termSeen = s.termSeen := by
  unfold State.storeByte; split <;> rfl
@[simp] theorem State.storeByte_pay (c : Params) (b : Byte) : (s.storeByte c b).pay = s.pay := by
  unfold State.storeByte; split <;> rfl
@[simp] theorem State.storeByte_enc (c : Params) (b : Byte) : (s.storeByte c b).enc = s.enc := by
  unfold State.storeByte; split <;> rfl
@[simp] theorem State.storeByte_cmdq (c : Params) (b : Byte) : (s.storeByte c b).cmdq = s.cmdq := by
  unfold State.storeByte; split <;> rfl
@[simp] theorem State.storeByte_dispTx (c : Params) (b : Byte) : (s.storeByte c b).dispTx = s.dispTx := by
  unfold State.storeByte; split <;> rfl
@[simp] theorem State.storeByte_srcs (c : Params) (b : Byte) : (s.storeByte c b).srcs = s.srcs := by
  unfold State.storeByte; split <;> rfl
@[simp] theorem State.storeByte_trace (c : Params) (b : Byte) : (s.storeByte c b).trace = s.trace := by
  unfold State.storeByte; split <;> rfl
@[simp] theorem State.storeByte_env (c : Params) (b : Byte) : (s.storeByte c b).env = s.env := by
  unfold State.storeByte; split <;> rfl
@[simp] theorem State.storeByte_holds (c : Params) (b : Byte) : (s.storeByte c b).holds = s.holds := by
  unfold State.storeByte; split <;> rfl
@[simp] theorem State.storeByte_freeIdx (c : Params) (b : Byte) : (s.storeByte c b).freeIdx = s.freeIdx := by
  unfold State.storeByte; split <;> rfl

end Sys2Proof.Machine
end

