-- ==== Sys2Proof/Laws/Env.lean ====
section
/-! SUPPORT. The environment's ticks and the moments of a running command: what they keep and what they can do. -/

namespace Sys2Proof.Machine

@[simp] theorem envTick_nil (c : Params) (s : State) : s.envTick c [] = s := rfl

@[simp] theorem envTick_cons (c : Params) (e : EnvEvent) (t : Tick) (s : State) :
    s.envTick c (e :: t) = (s.envEvent c e).envTick c t := rfl

/-- Any property of states that every event keeps, a tick keeps. -/
theorem envTick_keeps (c : Params) (P : State → Prop) (t : Tick)
    (h : ∀ e ∈ t, ∀ s, P s → P (s.envEvent c e)) (s : State) (hs : P s) : P (s.envTick c t) := by
  induction t generalizing s with
  | nil => exact hs
  | cons e t ih =>
    exact ih (fun e' he' => h e' (by simp [he'])) _ (h e (by simp) s hs)

/-- A tick does not change what is scheduled after it. -/
@[simp] theorem envTick_env (c : Params) (t : Tick) (s : State) : (s.envTick c t).env = s.env :=
  envTick_keeps c (fun s' => s'.env = s.env) t (fun e _ s' hs' => by cases e <;> exact hs') s rfl

/-- The environment does nothing on the block's channels. -/
@[simp] theorem envTick_trace (c : Params) (t : Tick) (s : State) : (s.envTick c t).trace = s.trace :=
  envTick_keeps c (fun s' => s'.trace = s.trace) t (fun e _ s' hs' => by cases e <;> exact hs') s rfl

/-- The environment does not touch the caller's ENC (R301). -/
@[simp] theorem envTick_enc (c : Params) (t : Tick) (s : State) : (s.envTick c t).enc = s.enc :=
  envTick_keeps c (fun s' => s'.enc = s.enc) t (fun e _ s' hs' => by cases e <;> exact hs') s rfl

@[simp] theorem fedBytes_nil (i : SrcId) : fedBytes i [] = [] := rfl

theorem fedBytes_cons (i : SrcId) (t : Tick) (ts : List Tick) :
    fedBytes i (t :: ts) = t.flatMap (EnvEvent.fedTo i) ++ fedBytes i ts := rfl

theorem fedBytes_append (i : SrcId) (ts ts' : List Tick) : fedBytes i (ts ++ ts') = fedBytes i ts ++ fedBytes i ts' :=
  List.flatMap_append

/-- Everything a tick without a reset can do: bytes are appended to sources, transactions placed on CMD, and the handler
may return. -/
theorem envTick_of_no_reset (c : Params) {t : Tick} (ht : EnvEvent.reset ∉ t) {s : State} (hwf : s.srcs.wf) :
    ∃ srcs cmdq dispTx, s.envTick c t = { s with srcs := srcs, cmdq := cmdq, dispTx := dispTx } ∧ srcs.wf ∧
      (∀ i, srcs.get i = s.srcs.get i ++ t.flatMap (EnvEvent.fedTo i)) ∧ (∃ later, cmdq = s.cmdq ++ later) ∧
      (dispTx = s.dispTx ∨ dispTx = none) := by
  induction t generalizing s with
  | nil => exact ⟨s.srcs, s.cmdq, s.dispTx, rfl, hwf, by simp, ⟨[], by simp⟩, .inl rfl⟩
  | cons e t ih =>
    simp only [List.mem_cons, not_or] at ht
    cases e with
    | reset => exact absurd rfl ht.1
    | feed j bytes =>
      obtain ⟨srcs, cmdq, dispTx, h, h1, h2, h3, h4⟩ :=
        ih ht.2 (s := s.feed j bytes) (Queues.set_wf hwf j (s.srcs.get j ++ bytes))
      refine ⟨srcs, cmdq, dispTx, h, h1, fun i => ?_, h3, h4⟩
      rw [h2, List.flatMap_cons, ← List.append_assoc]
      congr 1
      by_cases hij : i = j
      · subst hij
        simpa [State.feed, EnvEvent.fedTo] using Queues.get_set_self hwf i _
      · have hji : j ≠ i := fun h => hij h.symm
        simpa [State.feed, EnvEvent.fedTo, hji] using Queues.get_set_of_ne s.srcs (s.srcs.get j ++ bytes) hij
    | issue transaction =>
      obtain ⟨srcs, cmdq, dispTx, h, h1, h2, ⟨later, h3⟩, h4⟩ := ih ht.2 (s := s.issue transaction) hwf
      exact ⟨srcs, cmdq, dispTx, h, h1, fun i => by rw [h2]; rfl, ⟨transaction :: later, by simp [h3, State.issue]⟩, h4⟩
    | handlerReturns =>
      obtain ⟨srcs, cmdq, dispTx, h, h1, h2, h3, h4⟩ := ih ht.2 (s := s.handlerReturns) hwf
      exact ⟨srcs, cmdq, dispTx, h, h1, fun i => by rw [h2]; rfl, h3, .inr (by simpa [State.handlerReturns] using h4)⟩

/-- With nothing scheduled the environment does nothing. -/
theorem tick_of_quiet (c : Params) {s : State} (h : s.env = []) : s.tick c = s := by
  simp [State.tick, h]

/-- Any property of states that taking the schedule and every event keep, the environment's next tick keeps. -/
theorem tick_keeps (c : Params) (P : State → Prop) (hset : ∀ ts s, P s → P (s.setEnv ts))
    (h : ∀ e s, P s → P (s.envEvent c e)) (s : State) (hs : P s) : P (s.tick c) := by
  unfold State.tick
  split
  · exact hs
  · exact envTick_keeps c P _ (fun e _ => h e) _ (hset _ _ hs)

@[simp] theorem tick_trace (c : Params) (s : State) : (s.tick c).trace = s.trace :=
  tick_keeps c (·.trace = s.trace) (fun _ _ h => h) (fun e _ h => by cases e <;> exact h) s rfl

@[simp] theorem tick_enc (c : Params) (s : State) : (s.tick c).enc = s.enc :=
  tick_keeps c (·.enc = s.enc) (fun _ _ h => h) (fun e _ h => by cases e <;> exact h) s rfl

@[simp] theorem tick_env (c : Params) (s : State) : (s.tick c).env = s.env.drop 1 := by
  cases h : s.env <;> simp [State.tick, h]

/-! ### Resets and moments -/

theorem spared_one_of_nil {s : State} (h : s.env = []) : s.Spared 1 := by simp [State.Spared, h]

/-- A moment is spared or struck. -/
theorem spared_or_struck (s : State) : s.Spared 1 ∨ s.Struck := by
  cases he : s.env with
  | nil => exact .inl (spared_one_of_nil he)
  | cons t ts =>
    by_cases ht : EnvEvent.reset ∈ t
    · exact .inr ⟨t, ts, he, ht⟩
    · exact .inl (by simpa [State.Spared, he] using ht)

/-- Nothing but a reset asks or changes whether a command is running. -/
theorem envTick_busy_comm (c : Params) {t : Tick} (ht : EnvEvent.reset ∉ t) (s : State) (b : Bool) :
    ({ s with busy := b } : State).envTick c t = { s.envTick c t with busy := b } := by
  induction t generalizing s with
  | nil => rfl
  | cons e t ih =>
    simp only [List.mem_cons, not_or] at ht
    cases e with
    | reset => exact absurd rfl ht.1
    | feed j bytes => exact ih ht.2 (s.feed j bytes)
    | issue transaction => exact ih ht.2 (s.issue transaction)
    | handlerReturns => exact ih ht.2 s.handlerReturns

/-- A reset forgets whether a command was running and what READ_LINE had begun (R300, R40). -/
theorem envTick_of_reset (c : Params) {t : Tick} (ht : EnvEvent.reset ∈ t) (s : State) (busy termSeen : Bool) (lbLen : Nat) :
    ({ s with busy := busy, termSeen := termSeen, lbLen := lbLen } : State).envTick c t = s.envTick c t := by
  induction t generalizing s with
  | nil => cases ht
  | cons e t ih =>
    cases e with
    | reset => rfl
    | feed j bytes => exact ih (by simpa using ht) (s.feed j bytes)
    | issue transaction => exact ih (by simpa using ht) (s.issue transaction)
    | handlerReturns => exact ih (by simpa using ht) s.handlerReturns

/-- The registers that a reset sets, and that no other event moves from there (R40). -/
theorem envTick_after_reset (c : Params) {t : Tick} (ht : EnvEvent.reset ∈ t) (s : State) :
    (s.envTick c t).pstate = .detached ∧ (s.envTick c t).busy = false ∧ (s.envTick c t).hndSet = false ∧
      (s.envTick c t).lbLen = 0 ∧ (s.envTick c t).dispTx = none := by
  induction t generalizing s with
  | nil => cases ht
  | cons e t ih =>
    cases e with
    | reset =>
      refine envTick_keeps c (fun s => s.pstate = .detached ∧ s.busy = false ∧ s.hndSet = false ∧ s.lbLen = 0 ∧
        s.dispTx = none) t (fun e _ s' hs' => ?_) (s.resetEvent c) ⟨rfl, rfl, rfl, rfl, rfl⟩
      cases e with
      | handlerReturns => exact ⟨hs'.1, hs'.2.1, hs'.2.2.1, hs'.2.2.2.1, rfl⟩
      | reset => exact ⟨rfl, rfl, rfl, rfl, rfl⟩
      | _ => exact hs'
    | feed j bytes => exact ih (by simpa using ht) (s.feed j bytes)
    | issue transaction => exact ih (by simpa using ht) (s.issue transaction)
    | handlerReturns => exact ih (by simpa using ht) s.handlerReturns

/-- A moment without a reset comes and goes beside the running command. -/
theorem tick_accept_of_spared (c : Params) {s : State} (h : s.Spared 1) : s.accept.tick c = (s.tick c).accept := by
  cases he : s.env with
  | nil => simp [State.tick, he]
  | cons t ts =>
    have ht : EnvEvent.reset ∉ t := h t (by simp [he])
    simp only [State.tick, State.accept_env, he]
    exact envTick_busy_comm c ht (s.setEnv ts) true

/-- A reset in a moment leaves nothing of the acceptance of a command. -/
theorem tick_accept_of_struck (c : Params) {s : State} (h : s.Struck) : s.accept.tick c = s.tick c := by
  obtain ⟨t, ts, he, ht⟩ := h
  simp only [State.tick, State.accept_env, he]
  exact envTick_of_reset c ht (s.setEnv ts) true _ _

/-- The registers after a moment with a reset (R40). -/
theorem tick_of_struck (c : Params) {s : State} (h : s.Struck) :
    (s.tick c).pstate = .detached ∧ (s.tick c).busy = false ∧ (s.tick c).hndSet = false ∧ (s.tick c).lbLen = 0 ∧
      (s.tick c).dispTx = none := by
  obtain ⟨t, ts, he, ht⟩ := h
  simp only [State.tick, he]
  exact envTick_after_reset c ht (s.setEnv ts)

/-- A moment without a reset leaves a running command running. -/
theorem tick_busy_of_spared (c : Params) {s : State} (h : s.Spared 1) : (s.tick c).busy = s.busy := by
  cases he : s.env with
  | nil => simp [State.tick, he]
  | cons t ts =>
    have ht : EnvEvent.reset ∉ t := h t (by simp [he])
    simp only [State.tick, he]
    have := congrArg State.busy (envTick_busy_comm c ht (s.setEnv ts) s.busy)
    exact this

/-- Everything a moment without a reset can do. -/
theorem tick_of_spared (c : Params) {s : State} (h : s.Spared 1) (hwf : s.srcs.wf) :
    ∃ srcs cmdq dispTx, s.tick c = { s with srcs := srcs, cmdq := cmdq, dispTx := dispTx, env := s.env.drop 1 } ∧
      srcs.wf ∧ (∀ i, srcs.get i = s.srcs.get i ++ fedBytes i (s.env.take 1)) ∧ (∃ later, cmdq = s.cmdq ++ later) ∧
      (dispTx = s.dispTx ∨ dispTx = none) := by
  cases he : s.env with
  | nil =>
    refine ⟨s.srcs, s.cmdq, s.dispTx, ?_, hwf, by simp, ⟨[], by simp⟩, .inl rfl⟩
    rw [tick_of_quiet c he]
    cases s
    simp_all
  | cons t ts =>
    obtain ⟨srcs, cmdq, dispTx, h1, h2, h3, h4, h5⟩ :=
      envTick_of_no_reset c (h t (by simp [he])) (s := s.setEnv ts) hwf
    exact ⟨srcs, cmdq, dispTx, by simpa [State.tick, he, State.setEnv] using h1, h2,
      fun i => by simpa [fedBytes_cons] using h3 i, h4, h5⟩

/-- Everything an action of a command can be: left out after a reset, or performed after its moment. -/
theorem act_cases (c : Params) (f : State → State) (s : State) :
    ((s.moment c).busy = false ∧ s.act c f = s.moment c) ∨ ((s.moment c).busy = true ∧ s.act c f = f (s.moment c)) := by
  cases h : (s.moment c).busy
  · exact .inl ⟨rfl, by simp [State.act, h]⟩
  · exact .inr ⟨rfl, by simp [State.act, h]⟩

/-- The action of a running command that no reset strikes. -/
theorem act_of_spared (c : Params) (f : State → State) {s : State} (hb : s.busy = true) (h : s.Spared 1) :
    s.act c f = f (s.tick c) := by
  simp [State.act, State.moment, hb, tick_busy_of_spared c h]

/-- The action of a running command that a reset strikes (R300). -/
theorem act_of_struck (c : Params) (f : State → State) {s : State} (hb : s.busy = true) (h : s.Struck) :
    s.act c f = s.tick c := by
  have := (tick_of_struck c h).2.1
  simp [State.act, State.moment, hb, this]

/-- An aborted command performs no action. -/
theorem act_of_aborted (c : Params) (f : State → State) {s : State} (hb : s.busy = false) : s.act c f = s := by
  simp [State.act, State.moment, hb]

/-- The one action of a command that no reset strikes. -/
theorem accept_act_of_spared (c : Params) (f : State → State) {s : State} (h : s.Spared 1) :
    s.accept.act c f = f (s.tick c).accept := by
  rw [act_of_spared c f rfl (by simpa [State.Spared] using h), tick_accept_of_spared c h]

/-- The one action of a command that a reset strikes: the state is that of a block that accepted nothing (R300). -/
theorem accept_act_of_struck (c : Params) (f : State → State) {s : State} (h : s.Struck) : s.accept.act c f = s.tick c := by
  rw [act_of_struck c f rfl (by simpa [State.Struck] using h), tick_accept_of_struck c h]

/-- A property of states that a tick keeps, the moment of a command keeps. -/
theorem moment_keeps (c : Params) (P : State → Prop) (htick : ∀ s, P s → P (s.tick c)) (s : State) (h : P s) :
    P (s.moment c) := by
  unfold State.moment
  split
  · exact htick s h
  · exact h

/-- A property of states that a tick and the action keep. -/
theorem act_keeps (c : Params) (P : State → Prop) (f : State → State) (htick : ∀ s, P s → P (s.tick c))
    (hf : ∀ s, P s → s.busy = true → P (f s)) (s : State) (h : P s) : P (s.act c f) := by
  rcases act_cases c f s with ⟨-, he⟩ | ⟨hb, he⟩
  · rw [he]; exact moment_keeps c P htick s h
  · rw [he]; exact hf _ (moment_keeps c P htick s h) hb

@[simp] theorem moment_trace (c : Params) (s : State) : (s.moment c).trace = s.trace :=
  moment_keeps c (·.trace = s.trace) (fun s h => (tick_trace c s).trans h) s rfl

@[simp] theorem moment_enc (c : Params) (s : State) : (s.moment c).enc = s.enc :=
  moment_keeps c (·.enc = s.enc) (fun s h => (tick_enc c s).trans h) s rfl

theorem spared_succ {n : Nat} {s : State} (c : Params) : s.Spared (n + 1) ↔ s.Spared 1 ∧ (s.tick c).Spared n := by
  cases he : s.env <;> simp [State.Spared, he]

/-- Moments after moments. -/
theorem ticks_add (c : Params) (m n : Nat) (s : State) : s.ticks c (m + n) = (s.ticks c m).ticks c n := by
  induction m generalizing s with
  | zero => simp [State.ticks]
  | succ m ih => rw [Nat.succ_add, State.ticks, ih]; rfl

@[simp] theorem ticks_env (c : Params) (n : Nat) (s : State) : (s.ticks c n).env = s.env.drop n := by
  induction n generalizing s with
  | zero => rfl
  | succ n ih => rw [State.ticks, ih, tick_env, List.drop_drop, Nat.add_comm]

theorem spared_add {m n : Nat} {s : State} (c : Params) : s.Spared (m + n) ↔ s.Spared m ∧ (s.ticks c m).Spared n := by
  simp only [State.Spared, ticks_env, List.take_add, List.mem_append]
  exact ⟨fun h => ⟨fun t ht => h t (.inl ht), fun t ht => h t (.inr ht)⟩, fun h t ht => ht.elim (h.1 t) (h.2 t)⟩

theorem ticks_busy_of_spared (c : Params) {n : Nat} {s : State} (h : s.Spared n) : (s.ticks c n).busy = s.busy := by
  induction n generalizing s with
  | zero => rfl
  | succ n ih =>
    obtain ⟨h1, h2⟩ := (spared_succ c).1 h
    rw [State.ticks, ih h2, tick_busy_of_spared c h1]

@[simp] theorem ticks_trace (c : Params) (n : Nat) (s : State) : (s.ticks c n).trace = s.trace := by
  induction n generalizing s with
  | zero => rfl
  | succ n ih => rw [State.ticks, ih, tick_trace]

@[simp] theorem ticks_enc (c : Params) (n : Nat) (s : State) : (s.ticks c n).enc = s.enc := by
  induction n generalizing s with
  | zero => rfl
  | succ n ih => rw [State.ticks, ih, tick_enc]

/-- Moments that are not all spared have a first one that is struck. -/
theorem struck_of_not_spared (c : Params) {n : Nat} {s : State} (h : ¬ s.Spared n) :
    ∃ k < n, s.Spared k ∧ (s.ticks c k).Struck := by
  induction n generalizing s with
  | zero => exact absurd (by simp [State.Spared]) h
  | succ n ih =>
    rcases spared_or_struck s with h1 | h1
    · obtain ⟨k, hk, a, b⟩ := ih (s := s.tick c) (fun h2 => h ((spared_succ c).2 ⟨h1, h2⟩))
      exact ⟨k + 1, by omega, (spared_succ c).2 ⟨h1, a⟩, b⟩
    · exact ⟨0, by omega, by simp [State.Spared], h1⟩

/-- A state with other contents of ENC and another trace: what an ENCODE changes. -/
def State.withLogs (enc : Memory) (trace : List Event) (s : State) : State := { s with enc := enc, trace := trace }

@[simp] theorem withLogs_enc (enc : Memory) (trace : List Event) (s : State) : (s.withLogs enc trace).enc = enc := rfl
@[simp] theorem withLogs_trace (enc : Memory) (trace : List Event) (s : State) : (s.withLogs enc trace).trace = trace := rfl
@[simp] theorem withLogs_env (enc : Memory) (trace : List Event) (s : State) : (s.withLogs enc trace).env = s.env := rfl
@[simp] theorem withLogs_busy (enc : Memory) (trace : List Event) (s : State) : (s.withLogs enc trace).busy = s.busy := rfl
@[simp] theorem withLogs_self (s : State) : s.withLogs s.enc s.trace = s := rfl
@[simp] theorem withLogs_withLogs (enc enc' : Memory) (trace trace' : List Event) (s : State) :
    (s.withLogs enc trace).withLogs enc' trace' = s.withLogs enc' trace' := rfl

/-- What a command has done on its channels and in ENC is nothing to the environment, a reset included (R301). -/
theorem envTick_withLogs (c : Params) (t : Tick) (s : State) (enc : Memory) (trace : List Event) :
    (s.withLogs enc trace).envTick c t = (s.envTick c t).withLogs enc trace := by
  induction t generalizing s with
  | nil => rfl
  | cons e t ih =>
    cases e with
    | feed i bytes => exact ih (s.feed i bytes)
    | issue transaction => exact ih (s.issue transaction)
    | handlerReturns => exact ih s.handlerReturns
    | reset => exact ih (s.resetEvent c)

theorem tick_withLogs (c : Params) (s : State) (enc : Memory) (trace : List Event) :
    (s.withLogs enc trace).tick c = (s.tick c).withLogs enc trace := by
  cases he : s.env with
  | nil => rw [tick_of_quiet c he, tick_of_quiet c (s := s.withLogs enc trace) he]
  | cons t ts =>
    simp only [State.tick, withLogs_env, he]
    exact envTick_withLogs c t (s.setEnv ts) enc trace

theorem act_withLogs_of_spared (c : Params) (f : State → State) {enc : Memory} {trace : List Event} {s : State}
    (hb : s.busy = true) (h : s.Spared 1) : (s.withLogs enc trace).act c f = f ((s.tick c).withLogs enc trace) := by
  rw [← tick_withLogs]
  exact act_of_spared c f hb h

theorem act_withLogs_of_struck (c : Params) (f : State → State) {enc : Memory} {trace : List Event} {s : State}
    (hb : s.busy = true) (h : s.Struck) : (s.withLogs enc trace).act c f = (s.tick c).withLogs enc trace := by
  rw [← tick_withLogs]
  exact act_of_struck c f hb h

theorem ticks_withLogs (c : Params) (n : Nat) (s : State) (enc : Memory) (trace : List Event) :
    (s.withLogs enc trace).ticks c n = (s.ticks c n).withLogs enc trace := by
  induction n generalizing s with
  | zero => rfl
  | succ n ih => rw [State.ticks, State.ticks, tick_withLogs, ih]

/-- Moments without a reset come and go beside the running command. -/
theorem ticks_accept_of_spared (c : Params) {n : Nat} {s : State} (h : s.Spared n) :
    s.accept.ticks c n = (s.ticks c n).accept := by
  induction n generalizing s with
  | zero => rfl
  | succ n ih =>
    obtain ⟨h1, h2⟩ := (spared_succ c).1 h
    rw [State.ticks, State.ticks, tick_accept_of_spared c h1, ih h2]

/-- A reset after moments without one leaves nothing of the acceptance of a command. -/
theorem ticks_accept_of_struck (c : Params) {n : Nat} {s : State} (h : s.Spared n) (hs : (s.ticks c n).Struck) :
    s.accept.ticks c (n + 1) = s.ticks c (n + 1) := by
  rw [ticks_add, ticks_add, ticks_accept_of_spared c h]
  exact tick_accept_of_struck c hs

/-- With nothing scheduled no moment does anything. -/
theorem ticks_of_quiet (c : Params) (n : Nat) {s : State} (h : s.env = []) : s.ticks c n = s := by
  induction n with
  | zero => rfl
  | succ n ih => rw [State.ticks, tick_of_quiet c h, ih]

end Sys2Proof.Machine
end

