-- ==== Sys2Proof/Laws/Codec.lean ====
section
/-! SUPPORT. Hexadecimal fields, DECODE and ENCODE: one lemma for what each function can answer. -/

namespace Sys2Proof.Machine

/-! ### Wire Messages -/

/-- Two Wire Messages with the same fields are the same: the bound of R23 is no field of R20. -/
theorem wireMessage_ext {p : Nat} {m n : WireMessage p} (pgn : m.pgn = n.pgn) (source : m.source = n.source)
    (destination : m.destination = n.destination) (priority : m.priority = n.priority) (payload : m.payload = n.payload) :
    m = n := by
  cases m; cases n; simp_all

@[simp] theorem cutMessage_payload {p : Nat} (m : WireMessage p) (k : Nat) : (cutMessage m k).payload = m.payload.take k := rfl

/-! ### Hexadecimal fields -/

/-- The digit characters are hex digits, with their value (R97, R101). -/
theorem hexDigit?_hexDigitChar {n : Nat} (h : n < 16) : hexDigit? (hexDigitChar n) = some n := by
  interval_cases n <;> decide

@[simp] theorem length_hexDigits (k v : Nat) : (hexDigits k v).length = k := by
  induction k with
  | zero => rfl
  | succ k ih => simp [hexDigits, ih]

theorem all_isHexDigit_hexDigits (k v : Nat) : (hexDigits k v).all isHexDigit = true := by
  induction k with
  | zero => rfl
  | succ k ih =>
    simp [hexDigits, isHexDigit, hexDigit?_hexDigitChar (Nat.mod_lt (v / 16 ^ k) (by omega : 16 > 0))]
    simpa [isHexDigit] using ih

theorem foldHex_foldl (cs : List Byte) (v : Nat) :
    cs.foldl (fun v ch => v * 16 + (hexDigit? ch).getD 0) v = v * 16 ^ cs.length + foldHex cs := by
  induction cs generalizing v with
  | nil => simp [foldHex]
  | cons c cs ih =>
    simp only [List.foldl_cons, List.length_cons, foldHex]
    rw [ih, ih (0 * 16 + (hexDigit? c).getD 0)]
    ring

theorem foldHex_cons (c : Byte) (cs : List Byte) :
    foldHex (c :: cs) = (hexDigit? c).getD 0 * 16 ^ cs.length + foldHex cs := by
  simpa [foldHex] using foldHex_foldl cs (0 * 16 + (hexDigit? c).getD 0)

/-- Reading back the digits of a number (R101). -/
theorem foldHex_hexDigits (k v : Nat) : foldHex (hexDigits k v) = v % 16 ^ k := by
  induction k with
  | zero => simp [hexDigits, foldHex, Nat.mod_one]
  | succ k ih =>
    have h : v / 16 ^ k % 16 < 16 := Nat.mod_lt _ (by omega)
    rw [hexDigits, foldHex_cons, hexDigit?_hexDigitChar h, ih, length_hexDigits, Option.getD_some]
    have h1 : v % 16 ^ (k + 1) = v % 16 ^ k + 16 ^ k * (v / 16 ^ k % 16) := by
      rw [Nat.pow_succ, Nat.mod_mul]
    rw [h1]; ring

theorem hexDigit?_lt {ch : Byte} {n : Nat} (h : hexDigit? ch = some n) : n < 16 := by
  unfold hexDigit? at h
  split at h
  · simp at h; omega
  · split at h
    · simp at h; omega
    · split at h
      · simp at h; omega
      · simp at h

/-- A field of `k` digits is below `16^k` (R99). -/
theorem foldHex_lt (cs : List Byte) : foldHex cs < 16 ^ cs.length := by
  induction cs with
  | nil => simp [foldHex]
  | cons c cs ih =>
    rw [foldHex_cons, List.length_cons, Nat.pow_succ]
    have hd : (hexDigit? c).getD 0 < 16 := by
      cases h : hexDigit? c with
      | none => simp
      | some n => simpa using hexDigit?_lt h
    have hd' : (hexDigit? c).getD 0 ≤ 15 := by omega
    calc (hexDigit? c).getD 0 * 16 ^ cs.length + foldHex cs
        < (hexDigit? c).getD 0 * 16 ^ cs.length + 16 ^ cs.length := by omega
      _ ≤ 15 * 16 ^ cs.length + 16 ^ cs.length := by gcongr
      _ = 16 ^ cs.length * 16 := by ring

theorem hexField_of_all (c : Params) {cs : List Byte} (h : cs.all isHexDigit = true) : hexField c cs = foldHex cs := by
  simp only [hexField, h, if_true]

/-- `hexfield(HEXk(v)) = v` for `v < 16^k`, whatever the fallback (R101). -/
theorem hexField_hexDigits (c : Params) (k v : Nat) : hexField c (hexDigits k v) = v % 16 ^ k := by
  rw [hexField_of_all c (all_isHexDigit_hexDigits k v), foldHex_hexDigits]

/-! ### DECODE -/

/-- The characters of a range of a line (R15). -/
theorem slice_eq_map {line : Line} {a n : Nat} (h : a + n ≤ line.length) :
    slice line a (a + n) = (List.range n).map fun i => charAt line (a + i) := by
  refine List.ext_getElem (by simp [slice]; omega) fun i h1 h2 => ?_
  simp only [slice, List.length_take, List.length_drop] at h1
  simp [slice, charAt, List.getD_eq_getElem?_getD, List.getElem?_eq_getElem (show a + i < line.length by omega)]

/-- The message depends on the values of the fields only (R154, R157). -/
theorem lineMessage_congr {c : Params} (f : List Byte → Nat) {line line' : Line}
    {h : pairCount line.length ≤ c.maxPayload} {h' : pairCount line'.length ≤ c.maxPayload}
    (source : hexField c (slice line 12 14) = hexField { c with hexFallback := f } (slice line' 12 14))
    (destination : hexField c (slice line 14 16) = hexField { c with hexFallback := f } (slice line' 14 16))
    (priority : hexField c (slice line 16 17) = hexField { c with hexFallback := f } (slice line' 16 17))
    (pgn : hexField c (slice line 18 23) = hexField { c with hexFallback := f } (slice line' 18 23))
    (payload : payloadPairs c (line.drop 24) = payloadPairs { c with hexFallback := f } (line'.drop 24)) :
    lineMessage c line h = lineMessage { c with hexFallback := f } line' h' := by
  apply wireMessage_ext <;> simp only [lineMessage, source, destination, priority, pgn, payload]

/-- Everything DECODE can answer with a message (R160). -/
theorem decodeLine_eq_ok {c : Params} {line : Line} {m : WireMessage c.maxPayload} :
    decodeLine c line = .ok m ↔
      line.head? = some c.marker ∧ 24 ≤ line.length ∧
        ∃ h : pairCount line.length ≤ c.maxPayload, m = lineMessage c line h := by
  cases line with
  | nil => simp [decodeLine]
  | cons b bs =>
    simp only [decodeLine, List.head?_cons, Option.some.injEq]
    split
    · simp_all
    · rename_i h1
      split
      · constructor
        · simp
        · rintro ⟨-, h, -, -⟩; omega
      · simp only [ne_eq, Decidable.not_not] at h1
        split
        · rename_i hp
          constructor
          · intro h; exact ⟨h1, by omega, hp, (DecodeResult.ok.inj h).symm⟩
          · rintro ⟨-, -, -, rfl⟩; rfl
        · constructor
          · simp
          · rintro ⟨-, -, h, -⟩; exact absurd h ‹_›

/-- The messages DECODE answers keep the bounds of the record (R21, R23). -/
theorem decodeLine_bounds {c : Params} {line : Line} {m : WireMessage c.maxPayload} (h : decodeLine c line = .ok m) :
    m.plen ≤ c.maxPayload ∧ m.pgn.toNat < 2 ^ 20 := by
  obtain ⟨-, h2, h3, rfl⟩ := decodeLine_eq_ok.1 h
  constructor
  · simpa [WireMessage.plen, lineMessage, length_payloadPairs, pairCount] using h3
  · simp only [lineMessage, BitVec.toNat_setWidth, BitVec.toNat_ofNat]
    omega

/-! ### ENCODE -/

@[simp] theorem length_payloadText (bs : List Byte) : (payloadText bs).length = 2 * bs.length := by
  induction bs with
  | nil => rfl
  | cons b bs ih => simp only [payloadText, List.flatMap_cons, List.length_append, length_hexDigits] at *; simp [ih]; omega

theorem length_headerText {p : Nat} {c : Params} (h : c.tsPlaceholder.length = 10) (m : WireMessage p) :
    (headerText c m).length = 24 := by
  simp [headerText, h]

/-- Writing bytes one after the other. -/
theorem Memory.writeBytes_append (m : Memory) (a : Nat) (vs ws : List Byte) :
    m.writeBytes a (vs ++ ws) = (m.writeBytes a vs).writeBytes (a + vs.length) ws := by
  induction vs generalizing m a with
  | nil => rfl
  | cons v vs ih =>
    simp only [List.cons_append, Memory.writeBytes, List.length_cons]
    rw [ih]; congr 1; omega

@[simp] theorem length_placed (a : Nat) (bs : List Byte) : (placed a bs).length = bs.length := by
  induction bs generalizing a with
  | nil => rfl
  | cons b bs ih => simp [placed, ih]

theorem mem_placed {a : Nat} {bs : List Byte} {w : Nat × Byte} (h : w ∈ placed a bs) :
    a ≤ w.1 ∧ w.1 < a + bs.length ∧ w.2 ∈ bs := by
  induction bs generalizing a with
  | nil => cases h
  | cons b bs ih =>
    rcases List.mem_cons.1 h with rfl | h
    · simp
    · obtain ⟨h1, h2, h3⟩ := ih h
      exact ⟨by omega, by simp only [List.length_cons]; omega, .tail _ h3⟩

theorem placed_append (a : Nat) (bs cs : List Byte) : placed a (bs ++ cs) = placed a bs ++ placed (a + bs.length) cs := by
  induction bs generalizing a with
  | nil => rfl
  | cons b bs ih => simp [placed, ih, Nat.add_assoc, Nat.add_comm 1]

theorem take_placed (a n : Nat) (bs : List Byte) : (placed a bs).take n = placed a (bs.take n) := by
  induction n generalizing a bs with
  | zero => simp [placed]
  | succ n ih =>
    cases bs with
    | nil => rfl
    | cons b bs => simp [placed, ih]

/-- Writes in index order are bytes written one after the other. -/
@[simp] theorem writeAll_placed (enc : Memory) (a : Nat) (bs : List Byte) :
    enc.writeAll (placed a bs) = enc.writeBytes a bs := by
  induction bs generalizing enc a with
  | nil => rfl
  | cons b bs ih => exact ih (enc.write a b) (a + 1)

/-- The payload loop of ENCODE, whole: the bytes that fit are written one after the other at their nominal offsets, the
others are skipped (R185, R186). -/
theorem encodeLoop_eq (capacity i : Nat) (bs : List Byte) (v : EncodeLoop) (hcap : 25 ≤ capacity) (hk : v.k = i) :
    encodeLoop capacity i bs v =
      { writes := v.writes ++ placed (nominalOffset i) (payloadText (bs.take ((capacity - 25) / 2 - i)))
        k := i + min bs.length ((capacity - 25) / 2 - i)
        ovf := v.ovf || decide ((capacity - 25) / 2 - i < bs.length) } := by
  have skip : ∀ (bs : List Byte) (j : Nat) (v : EncodeLoop), (capacity - 25) / 2 ≤ j →
      encodeLoop capacity j bs v = { v with ovf := v.ovf || decide (0 < bs.length) } := by
    intro bs
    induction bs with
    | nil => intro j v _; simp [encodeLoop]
    | cons b bs ih =>
      intro j v hj
      have h : ¬ nominalOffset j + 2 < capacity := by simp only [nominalOffset]; omega
      rw [encodeLoop, if_neg h, ih (j + 1) _ (by omega)]
      simp
  induction bs generalizing i v with
  | nil => cases v; simp_all [encodeLoop, payloadText, placed]
  | cons b bs ih =>
    by_cases h : nominalOffset i + 2 < capacity
    · have h1 : (capacity - 25) / 2 - i = (capacity - 25) / 2 - (i + 1) + 1 := by
        simp only [nominalOffset] at h; omega
      rw [encodeLoop, if_pos h, ih (i + 1) _ rfl, h1]
      simp only [List.take_succ_cons, payloadText, List.flatMap_cons, List.length_cons, placed_append,
        length_hexDigits, EncodeLoop.mk.injEq, List.append_assoc]
      refine ⟨?_, by omega, ?_⟩
      · congr 1
      · congr 1; simp
    · have h0 : (capacity - 25) / 2 ≤ i := by simp only [nominalOffset] at h; omega
      rw [skip _ _ _ h0]
      have h1 : (capacity - 25) / 2 - i = 0 := by omega
      simp [h1, payloadText, placed, hk]

/-- ENCODE with room for the header, whole (R182 to R190): the text is the header and the digits of the payload bytes that
fit; it is written from `ENC[0]` on with the sentinel behind it, and the overflow is signalled if a byte was skipped. -/
theorem encodeText_eq {p : Nat} {c : Params} (hts : c.tsPlaceholder.length = 10) (m : WireMessage p) {capacity : Nat}
    (hcap : 25 ≤ capacity) :
    encodeText c m capacity =
      { writes := placed 0 (headerText c m ++ payloadText (m.payload.take (writtenBytes m.plen capacity)) ++ [0])
        len := 24 + 2 * writtenBytes m.plen capacity
        ovf := decide (writtenBytes m.plen capacity < m.plen) } := by
  have hn : ¬ capacity < 25 := by omega
  have hl := length_headerText hts m
  have hw : m.payload.take ((capacity - 25) / 2) = m.payload.take (writtenBytes m.plen capacity) := by
    rw [List.take_eq_take_iff]; simp [writtenBytes, WireMessage.plen, Nat.min_comm]
  have hloop := encodeLoop_eq capacity 0 m.payload
    { writes := placed 0 (headerText c m), k := 0, ovf := false } hcap rfl
  have hk : min m.payload.length ((capacity - 25) / 2) = writtenBytes m.plen capacity := rfl
  simp only [Nat.sub_zero, hw, Nat.zero_add, Bool.false_or, hk] at hloop
  simp only [encodeText, hn, if_false, hloop]
  refine EncodeResult.mk.injEq .. ▸ ⟨?_, rfl, ?_⟩
  · simp only [placed_append, List.length_append, hl, length_payloadText, List.length_take, Nat.zero_add, nominalOffset,
      Nat.mul_zero, Nat.add_zero]
    have : min (writtenBytes m.plen capacity) m.payload.length = writtenBytes m.plen capacity := by
      simp [writtenBytes]
    rw [this]
    rfl
  · exact decide_eq_decide.2 (by simp only [writtenBytes, WireMessage.plen]; omega)

/-- ENCODE without room for the header, whole (R189). -/
theorem encodeText_of_lt {p : Nat} (c : Params) (m : WireMessage p) {capacity : Nat} (h : capacity < 25) :
    encodeText c m capacity =
      { writes := placed 0 (List.replicate (min 1 capacity) 0), len := 0, ovf := true } := by
  rcases Nat.eq_zero_or_pos capacity with rfl | hpos
  · rfl
  · simp [encodeText, h, show 1 ≤ capacity from hpos, placed]

/-- ENCODE writes from `ENC[0]` on without a gap. -/
theorem encodeText_writes {p : Nat} {c : Params} (hts : c.tsPlaceholder.length = 10) (m : WireMessage p) (capacity : Nat) :
    ∃ chars : List Byte, chars.length = storedBytes m.plen capacity ∧ (encodeText c m capacity).writes = placed 0 chars := by
  by_cases h : capacity < 25
  · exact ⟨List.replicate (min 1 capacity) 0, by simp [storedBytes, h], by rw [encodeText_of_lt c m h]⟩
  · refine ⟨_, ?_, by rw [encodeText_eq hts m (by omega)]⟩
    simp only [List.length_append, length_headerText hts m, length_payloadText, List.length_take, storedBytes, if_neg h,
      List.length_singleton, writtenBytes, WireMessage.plen]
    omega

/-- Whether ENCODE signals an overflow (R190). -/
theorem encodeText_ovf {p : Nat} {c : Params} (hts : c.tsPlaceholder.length = 10) (m : WireMessage p) (capacity : Nat) :
    (encodeText c m capacity).ovf = decide (capacity < 25 + 2 * m.plen) := by
  by_cases h : capacity < 25
  · rw [encodeText_of_lt c m h]; simp; omega
  · rw [encodeText_eq hts m (by omega)]
    exact decide_eq_decide.2 (by simp only [writtenBytes]; omega)

/-! ### ENCODE as a command: its moments -/

/-- The writes of an ENCODE that no reset strikes. -/
theorem storeText_of_spared (c : Params) (ws : List (Nat × Byte)) {s : State} (hb : s.busy = true)
    (h : s.Spared ws.length) :
    s.storeText c ws = (s.ticks c ws.length).withLogs (s.enc.writeAll ws) s.trace ∧
      (s.ticks c ws.length).busy = true := by
  induction ws generalizing s with
  | nil => exact ⟨rfl, hb⟩
  | cons w ws ih =>
    obtain ⟨h1, h2⟩ := (spared_succ c).1 h
    have put : (s.tick c).putEnc w.1 w.2 = (s.tick c).withLogs (s.enc.write w.1 w.2) s.trace := by
      simp [State.putEnc, State.withLogs]
    obtain ⟨e1, e2⟩ := ih (s := (s.tick c).withLogs (s.enc.write w.1 w.2) s.trace)
      (by simpa [tick_busy_of_spared c h1] using hb) h2
    rw [ticks_withLogs] at e1 e2
    rw [State.storeText, act_of_spared c _ hb h1, put, e1]
    exact ⟨rfl, e2⟩

theorem storeText_append (c : Params) (ws ws' : List (Nat × Byte)) (s : State) :
    s.storeText c (ws ++ ws') = (s.storeText c ws).storeText c ws' := by
  induction ws generalizing s with
  | nil => rfl
  | cons w ws ih => exact ih _

/-- An aborted ENCODE writes nothing more. -/
theorem storeText_of_aborted (c : Params) (ws : List (Nat × Byte)) {s : State} (hb : s.busy = false) :
    s.storeText c ws = s := by
  induction ws with
  | nil => rfl
  | cons w ws ih => rw [State.storeText, act_of_aborted c _ hb, ih]

/-- The writes of an ENCODE that a reset strikes: what was written before it stays in ENC (R300, R301). -/
theorem storeText_of_struck (c : Params) (ws : List (Nat × Byte)) {s : State} {n : Nat} (hb : s.busy = true)
    (h : s.Spared n) (hs : (s.ticks c n).Struck) (hn : n < ws.length) :
    s.storeText c ws = (s.ticks c (n + 1)).withLogs (s.enc.writeAll (ws.take n)) s.trace ∧
      (s.ticks c (n + 1)).busy = false := by
  have hl : (ws.take n).length = n := by simp; omega
  obtain ⟨e1, e2⟩ := storeText_of_spared c (ws.take n) hb (by rwa [hl])
  rw [hl] at e1 e2
  have hb2 : (s.ticks c (n + 1)).busy = false := by
    rw [ticks_add c n 1 s]; exact (tick_of_struck c hs).2.1
  have hact : ∀ f, ((s.ticks c n).withLogs (s.enc.writeAll (ws.take n)) s.trace).act c f =
      (s.ticks c (n + 1)).withLogs (s.enc.writeAll (ws.take n)) s.trace := fun f => by
    rw [act_withLogs_of_struck c f e2 hs, ticks_add c n 1 s]; rfl
  refine ⟨?_, hb2⟩
  conv_lhs => rw [← List.take_append_drop n ws]
  rw [storeText_append, e1]
  cases hd : ws.drop n with
  | nil => simp at hd; omega
  | cons w rest => rw [State.storeText, hact]; exact storeText_of_aborted c rest hb2

/-- A property of states that ticks and the writing of a byte keep, the writes of ENCODE keep. -/
theorem storeText_keeps (c : Params) (P : State → Prop) (ws : List (Nat × Byte)) (htick : ∀ s, P s → P (s.tick c))
    (hput : ∀ w ∈ ws, ∀ s, P s → P (s.putEnc w.1 w.2)) (s : State) (h : P s) : P (s.storeText c ws) := by
  induction ws generalizing s with
  | nil => exact h
  | cons w ws ih =>
    exact ih (fun w' h' => hput w' (by simp [h'])) _
      (act_keeps c P _ htick (fun s hs _ => hput w (by simp) s hs) s h)

/-- The moments of the writes of an ENCODE. -/
theorem length_encodeText_writes {p : Nat} {c : Params} (hts : c.tsPlaceholder.length = 10) (m : WireMessage p)
    (capacity : Nat) : (encodeText c m capacity).writes.length = storedBytes m.plen capacity := by
  obtain ⟨chars, hl, hw⟩ := encodeText_writes hts m capacity
  rw [hw, length_placed, hl]

/-- ENCODE that no reset strikes, whole (R180, R190, R195): the environment's moments, ENC, at overflow one ERR event, and
the RSP. -/
theorem encodeCommandResult_of_spared (m : Message) (capacity : Capacity) {s : State}
    (h : s.Spared (encodeMoments m.plen capacity.toNat)) {r : EncodeResult} (hr : encodeText hw m capacity.toNat = r) :
    encodeCommandResult m capacity s.accept =
      { s.ticks hw (encodeMoments m.plen capacity.toNat) with
        busy := false
        enc := s.enc.writeAll r.writes
        trace := s.trace ++ (if r.ovf then [Event.err .overflowOnEncode] else []) ++
          [.rsp (.encoded (encodeStatus r.ovf) (BitVec.ofNat 16 r.len) ((s.enc.writeAll r.writes).readBytes 0 r.len))] } := by
  have hts : hw.tsPlaceholder.length = 10 := rfl
  have hlen : r.writes.length = storedBytes m.plen capacity.toNat := hr ▸ length_encodeText_writes hts m _
  have hovf : r.ovf = decide (capacity.toNat < 25 + 2 * m.plen) := hr ▸ encodeText_ovf hts m _
  have h' : s.accept.Spared (encodeMoments m.plen capacity.toNat) := h
  rw [encodeMoments, spared_add hw] at h'
  obtain ⟨h1, h2⟩ := h'
  obtain ⟨e1, e2⟩ := storeText_of_spared hw r.writes (s := s.accept) rfl (by rwa [hlen])
  rw [hlen] at e1 e2
  simp only [State.accept_enc, State.accept_trace] at e1
  have hacc := ticks_accept_of_spared hw h
  by_cases ho : capacity.toNat < 25 + 2 * m.plen
  · rw [if_pos ho] at h2
    obtain ⟨h3, h4⟩ := (spared_succ hw).1 h2
    have hn : encodeMoments m.plen capacity.toNat = storedBytes m.plen capacity.toNat + 2 := by simp [encodeMoments, ho]
    rw [hn, ticks_add] at hacc
    simp only [encodeCommandResult, hr, e1, hovf, ho, decide_true, State.reportOverflow, if_true]
    have report : ∀ u : State, (u.withLogs (s.enc.writeAll r.writes) s.trace).report .overflowOnEncode =
        u.withLogs (s.enc.writeAll r.writes) (s.trace ++ [.err .overflowOnEncode]) := fun _ => rfl
    rw [act_withLogs_of_spared hw _ e2 h3, report,
      act_withLogs_of_spared hw _ ((tick_busy_of_spared hw h3).trans e2) h4, hn]
    simp only [State.ticks] at hacc
    rw [hacc]
    rfl
  · rw [if_neg ho] at h2
    have hn : encodeMoments m.plen capacity.toNat = storedBytes m.plen capacity.toNat + 1 := by simp [encodeMoments, ho]
    rw [hn, ticks_add] at hacc
    simp only [encodeCommandResult, hr, e1, hovf, ho, decide_false, State.reportOverflow, if_false, Bool.false_eq_true]
    rw [act_withLogs_of_spared hw _ e2 h2, hn]
    simp only [State.ticks] at hacc
    rw [hacc]
    simp [State.respond, State.withLogs, State.accept, State.ticks]

/-- ENCODE that a reset strikes after `n` of its moments, whole (R300, R301): the environment's moments, the reset among
them, ENC as far as it was written, and the ERR event if it came before. -/
theorem encodeCommandResult_of_struck (m : Message) (capacity : Capacity) {s : State} {n : Nat} (h : s.Spared n)
    (hs : (s.ticks hw n).Struck) (hn : n < encodeMoments m.plen capacity.toNat) :
    encodeCommandResult m capacity s.accept =
      (s.ticks hw (n + 1)).withLogs (s.enc.writeAll ((encodeText hw m capacity.toNat).writes.take n))
        (s.trace ++ if n ≤ storedBytes m.plen capacity.toNat then [] else [.err .overflowOnEncode]) := by
  have hlen := length_encodeText_writes (c := hw) rfl m capacity.toNat
  have hovf := encodeText_ovf (c := hw) rfl m capacity.toNat
  unfold encodeCommandResult
  unfold encodeMoments at hn
  generalize encodeText hw m capacity.toNat = r at hlen hovf
  generalize storedBytes m.plen capacity.toNat = k at *
  have hreset := ticks_accept_of_struck hw h hs
  have hbusy : (s.ticks hw (n + 1)).busy = false := by rw [ticks_add]; exact (tick_of_struck hw hs).2.1
  have hs' : (s.accept.ticks hw n).Struck := by rw [ticks_accept_of_spared hw h]; exact hs
  -- what an aborted command has left is what it leaves
  have rest : ∀ enc trace f, (State.reportOverflow hw r.ovf ((s.ticks hw (n + 1)).withLogs enc trace)).act hw f =
      (s.ticks hw (n + 1)).withLogs enc trace := fun enc trace f => by
    have : State.reportOverflow hw r.ovf ((s.ticks hw (n + 1)).withLogs enc trace) =
        (s.ticks hw (n + 1)).withLogs enc trace := by
      unfold State.reportOverflow
      split
      · exact act_of_aborted hw _ hbusy
      · rfl
    rw [this]; exact act_of_aborted hw f hbusy
  by_cases h1 : n < k
  · obtain ⟨e1, -⟩ := storeText_of_struck hw r.writes (s := s.accept) rfl h hs' (by omega)
    rw [hreset] at e1
    simp only [e1, rest, if_pos (show n ≤ k by omega), List.append_nil, State.accept_enc, State.accept_trace]
  · obtain ⟨j, rfl⟩ := Nat.exists_eq_add_of_le (Nat.le_of_not_lt h1)
    obtain ⟨h2, h3⟩ := (spared_add (s := s.accept) hw).1 h
    obtain ⟨e1, e2⟩ := storeText_of_spared hw r.writes (s := s.accept) rfl (by rwa [hlen])
    rw [hlen] at e1 e2
    have last : (s.accept.ticks hw (k + j)).tick hw = s.ticks hw (k + j + 1) := by rw [← hreset, ticks_add hw _ 1]; rfl
    simp only [e1, List.take_of_length_le (show r.writes.length ≤ k + j by omega), State.accept_enc, State.accept_trace]
    cases j with
    | zero =>
      simp only [Nat.add_zero, Nat.le_refl, if_true, List.append_nil] at *
      unfold State.reportOverflow
      split
      · rw [act_withLogs_of_struck hw _ e2 hs', last]; exact act_of_aborted hw _ hbusy
      · rw [act_withLogs_of_struck hw _ e2 hs', last]
    | succ j =>
      have ho : capacity.toNat < 25 + 2 * m.plen := by
        by_contra hc
        rw [if_neg hc] at hn
        omega
      rw [if_pos ho] at hn
      obtain rfl : j = 0 := by omega
      simp only [Nat.zero_add] at *
      rw [ticks_add] at hs' last
      have report : ∀ u : State, (u.withLogs (s.enc.writeAll r.writes) s.trace).report .overflowOnEncode =
          u.withLogs (s.enc.writeAll r.writes) (s.trace ++ [.err .overflowOnEncode]) := fun _ => rfl
      simp only [hovf, decide_eq_true ho, State.reportOverflow, if_true, if_neg (show ¬ k + 1 ≤ k by omega)]
      rw [act_withLogs_of_spared hw _ e2 h3, report,
        act_withLogs_of_struck hw _ ((tick_busy_of_spared hw h3).trans e2) hs']
      exact congrArg _ last

/-- ENCODE with an invariant: if the environment's moments, a write of its text and its ERR event keep `P`, and an
abortion and the RSP each take `P` to `Q`, then ENCODE takes `P` to `Q`. -/
theorem encodeCommandResult_ends (P Q : State → Prop) (m : Message) (capacity : Capacity)
    (htick : ∀ s, P s → P (s.tick hw))
    (hput : ∀ w ∈ (encodeText hw m capacity.toNat).writes, ∀ s, P s → P (s.putEnc w.1 w.2))
    (hreport : ∀ s, P s → P (s.report .overflowOnEncode))
    (habort : ∀ s, P s → s.busy = false → Q s)
    (hdone : ∀ code s, P s → s.busy = true → code = .ok ∨ code = .overflowOnEncode →
      Q (s.respond (.encoded code (BitVec.ofNat 16 (encodeText hw m capacity.toNat).len)
        (s.enc.readBytes 0 (encodeText hw m capacity.toNat).len))))
    (s : State) (h : P s) : Q (encodeCommandResult m capacity s) := by
  have h1 := storeText_keeps hw P _ htick hput s h
  have h2 : P (State.reportOverflow hw (encodeText hw m capacity.toNat).ovf
      (s.storeText hw (encodeText hw m capacity.toNat).writes)) := by
    unfold State.reportOverflow
    split
    · exact act_keeps hw P _ htick (fun s hs _ => hreport s hs) _ h1
    · exact h1
  have h3 := moment_keeps hw P htick _ h2
  unfold encodeCommandResult
  rcases act_cases hw _ (State.reportOverflow hw (encodeText hw m capacity.toNat).ovf
      (s.storeText hw (encodeText hw m capacity.toNat).writes)) with ⟨hb, he⟩ | ⟨hb, he⟩
  · rw [he]; exact habort _ h3 hb
  · rw [he]; exact hdone _ _ h3 hb (by unfold encodeStatus; split <;> simp)

end Sys2Proof.Machine
end

