-- ==== Sys2Proof/Laws/PerInstr.lean ====
section
/-! SUPPORT. Per-instruction statements: the first byte of every encoding. -/

namespace Sys2Proof.Laws

/-- The first byte of an instruction: its code in `30_encoding.md` R107, `MARKER` for the line record (R90). -/
def firstByte : Instr → Byte
  | .nop => 0
  | .attachSource _ => 1
  | .detachSource => 2
  | .setDefaultSourceAddress _ => 3
  | .setHandler _ => 4
  | .pumpOnce => 5
  | .decode _ => 6
  | .encode _ _ => 7
  | .line _ => 0x41

/-- A well-formed instruction's encoding begins with its first byte. -/
def FirstByte.Statement (i : Instr) : Prop := i.wellFormed = true → (encode i).head? = some (firstByte i)

theorem FirstByte.nop : FirstByte.Statement .nop := fun _ => rfl

theorem FirstByte.attachSource (source : SrcId) : FirstByte.Statement (.attachSource source) := fun _ => rfl

theorem FirstByte.detachSource : FirstByte.Statement .detachSource := fun _ => rfl

theorem FirstByte.setDefaultSourceAddress (addr : Address) : FirstByte.Statement (.setDefaultSourceAddress addr) :=
  fun _ => rfl

theorem FirstByte.setHandler (callback : HndId) : FirstByte.Statement (.setHandler callback) := fun _ => rfl

theorem FirstByte.pumpOnce : FirstByte.Statement .pumpOnce := fun _ => rfl

theorem FirstByte.decode (line : Line) : FirstByte.Statement (.decode line) := fun _ => rfl

theorem FirstByte.encode (message : Message) (capacity : Capacity) :
    FirstByte.Statement (.encode message capacity) := fun _ => rfl

theorem FirstByte.line (text : Line) : FirstByte.Statement (.line text) := by
  intro h
  simp only [Instr.wellFormed, Bool.and_eq_true, decide_eq_true_eq] at h
  cases text with
  | nil => simp at h
  | cons b bs => exact congrArg some (Option.some.inj h.1)

end Sys2Proof.Laws
end

