-- ==== Sys2Proof/Laws/ReadLine.lean ====
section
/-! SUPPORT. READ_LINE: what it does while the environment is quiet, as one equation, and what it keeps under any
schedule. -/

namespace Sys2Proof.Machine

@[simp] theorem headLine_nil (c : Params) : headLine c [] = [] := rfl
@[simp] theorem afterLine_nil (c : Params) : afterLine c [] = [] := rfl

theorem headLine_cons (c : Params) (b : Byte) (q : List Byte) :
    headLine c (b :: q) = if b = c.term then [] else b :: headLine c q := by
  by_cases h : b = c.term <;> simp [headLine, h]

theorem afterLine_cons (c : Params) (b : Byte) (q : List Byte) :
    afterLine c (b :: q) = if b = c.term then q else afterLine c q := by
  by_cases h : b = c.term <;> simp [afterLine, headLine_cons, h]

theorem readEvents_cons (c : Params) (i : SrcId) (b : Byte) (q : List Byte) :
    readEvents c i (b :: q) =
      .srcRead i (some b) :: if b = c.term then [] else readEvents c i q := by
  by_cases h : b = c.term
  · simp [readEvents, headLine_cons, h]
  · have h' : ¬ c.term = b := fun e => h e.symm
    simp [readEvents, headLine_cons, h, h']

/-- The events of a READ_LINE are `SrcRead()` calls on its source. -/
theorem mem_readEvents {c : Params} {i : SrcId} {q : List Byte} {e : Event} (h : e ∈ readEvents c i q) :
    ∃ answer, e = .srcRead i answer := by
  rcases List.mem_append.1 h with h | h
  · obtain ⟨b, -, rfl⟩ := List.mem_map.1 h
    exact ⟨_, rfl⟩
  · split at h
    · cases h
    · exact ⟨_, List.mem_singleton.1 h⟩

@[simp] theorem filterMap_dispEntry_readEvents (c : Params) (i : SrcId) (q : List Byte) :
    (readEvents c i q).filterMap Event.dispEntry? = [] := by
  refine List.filterMap_eq_nil_iff.2 fun e h => ?_
  obtain ⟨answer, rfl⟩ := mem_readEvents h
  rfl

@[simp] theorem filterMap_errEntry_readEvents (c : Params) (i : SrcId) (q : List Byte) :
    (readEvents c i q).filterMap Event.errEntry? = [] := by
  refine List.filterMap_eq_nil_iff.2 fun e h => ?_
  obtain ⟨answer, rfl⟩ := mem_readEvents h
  rfl

@[simp] theorem filterMap_rspEntry_readEvents (c : Params) (i : SrcId) (q : List Byte) :
    (readEvents c i q).filterMap Event.rspEntry? = [] := by
  refine List.filterMap_eq_nil_iff.2 fun e h => ?_
  obtain ⟨answer, rfl⟩ := mem_readEvents h
  rfl

theorem headLine_append (c : Params) {l : Line} (hl : c.term ∉ l) (rest : List Byte) :
    headLine c (l ++ c.term :: rest) = l := by
  induction l with
  | nil => simp [headLine]
  | cons b l ih =>
    simp only [List.mem_cons, not_or] at hl
    rw [List.cons_append, headLine_cons, if_neg (fun e => hl.1 e.symm), ih hl.2]

theorem afterLine_append (c : Params) {l : Line} (hl : c.term ∉ l) (rest : List Byte) :
    afterLine c (l ++ c.term :: rest) = rest := by
  simp [afterLine, headLine_append c hl]

theorem headLine_of_not_mem (c : Params) {l : Line} (hl : c.term ∉ l) : headLine c l = l := by
  simp only [headLine, List.takeWhile_eq_self_iff, decide_eq_true_eq]
  exact fun b hb e => hl (e ▸ hb)

theorem afterLine_of_not_mem (c : Params) {l : Line} (hl : c.term ∉ l) : afterLine c l = [] := by
  simp [afterLine, headLine_of_not_mem c hl]

/-- Taking a line shortens a source that is not empty. -/
theorem length_afterLine (c : Params) (q : List Byte) : (afterLine c q).length ≤ q.length - 1 := by
  simp only [afterLine, List.length_drop]; omega

/-- READ_LINE's loop on a quiet environment, whole (R131 to R137): `line` is what stands before the terminator; what fits
is stored, `lb_len` ends at `min`, the source loses the line and its terminator, and `pstate` ends at `IDLE`. -/
theorem readQuiet_eq (c : Params) (q : List Byte) (s : State) (hsrcs : s.srcs.wf)
    (hq : s.srcQueue = q) (hlen : s.lbLen ≤ c.lineCap) :
    readQuiet c q s =
      { s with
        pstate := .idle
        termSeen := s.termSeen || decide (c.term ∈ q)
        lb := s.lb.writeBytes s.lbLen ((headLine c q).take (c.lineCap - s.lbLen))
        lbLen := min (s.lbLen + (headLine c q).length) c.lineCap
        srcs := s.srcs.set s.srcId (afterLine c q)
        trace := s.trace ++ readEvents c s.srcId q } := by
  induction q generalizing s with
  | nil =>
    have : s.srcs.set s.srcId [] = s.srcs := by
      have := Queues.set_get hsrcs s.srcId
      rwa [show s.srcs.get s.srcId = [] from hq] at this
    simp [readQuiet, State.endRead, State.srcNone, Memory.writeBytes, readEvents, this, hlen]
  | cons b q ih =>
    by_cases hb : b = c.term
    · simp [readQuiet, hb, State.endRead, State.seeTerm, State.srcTake, headLine_cons, afterLine_cons, readEvents_cons,
        Memory.writeBytes, hlen]
    · have hb' : ¬ c.term = b := fun e => hb e.symm
      rw [readQuiet, if_neg hb, ih]
      · unfold State.storeByte
        by_cases hlt : s.lbLen < c.lineCap
        · simp only [State.srcTake_lbLen, hlt, if_true]
          have h1 : c.lineCap - s.lbLen = c.lineCap - (s.lbLen + 1) + 1 := by omega
          simp [State.srcTake, headLine_cons, afterLine_cons, readEvents_cons, hb, hb', h1, Memory.writeBytes,
            Queues.set_set hsrcs]
          omega
        · simp only [State.srcTake_lbLen, hlt, if_false]
          have h1 : c.lineCap - s.lbLen = 0 := by omega
          simp [State.srcTake, headLine_cons, afterLine_cons, readEvents_cons, hb, hb', h1, Memory.writeBytes,
            Queues.set_set hsrcs]
          omega
      · simpa using Queues.set_wf hsrcs _ _
      · simpa [State.srcQueue] using Queues.get_set_self hsrcs s.srcId q
      · unfold State.storeByte
        split <;> simp <;> simp at * <;> omega

/-- READ_LINE from the head of the pump's loop on a quiet environment, whole. -/
theorem readLine_startLine_quiet (c : Params) (s : State) (henv : s.env = []) (hsrcs : s.srcs.wf) :
    readLine c s.startLine =
      { s with
        pstate := .idle
        termSeen := decide (c.term ∈ s.srcQueue)
        lb := s.lb.writeBytes 0 ((headLine c s.srcQueue).take c.lineCap)
        lbLen := min (headLine c s.srcQueue).length c.lineCap
        srcs := s.srcs.set s.srcId (afterLine c s.srcQueue)
        trace := s.trace ++ readEvents c s.srcId s.srcQueue } := by
  have h := readQuiet_eq c s.srcQueue s.startLine.clearTerm hsrcs rfl (Nat.zero_le _)
  simp only [readLine, State.startLine_env, henv, readTicks]
  exact h.trans (by simp [State.startLine, State.clearTerm, henv])

/-- The candidate line that READ_LINE leaves: the head line, cut to what the Line Buffer keeps (R134, R136). -/
theorem candidate_readLine_quiet (c : Params) (s : State) (henv : s.env = []) (hsrcs : s.srcs.wf) (hlb : s.lb.wf) :
    (readLine c s.startLine).candidate = (headLine c s.srcQueue).take c.lineCap := by
  rw [readLine_startLine_quiet c s henv hsrcs, State.candidate]
  have h := Memory.readBytes_writeBytes hlb 0 ((headLine c s.srcQueue).take c.lineCap)
  simpa [Nat.min_comm] using h

/-- READ_LINE as a loop with an invariant, whatever the environment does: if a tick and a byte that is pulled and stored or
dropped keep `P`, and each of its three ends, source exhaustion (R132), the terminator (R137) and an abortion by a reset
(R300), takes `P` to `Q`, then READ_LINE of a running command takes `P` to `Q`. -/
theorem readLine_ends (c : Params) (P Q : State → Prop)
    (htick : ∀ t ts s, P s → s.busy = true → s.env = t :: ts → P ((s.setEnv ts).envTick c t))
    (hbyte : ∀ b q s, P s → s.busy = true → s.srcQueue = b :: q → b ≠ c.term → P ((s.srcTake b q).storeByte c b))
    (hnone : ∀ s, P s → s.busy = true → s.srcQueue = [] → Q s.srcNone.endRead)
    (hterm : ∀ q s, P s → s.busy = true → s.srcQueue = c.term :: q → Q (s.srcTake c.term q).seeTerm.endRead)
    (habort : ∀ s, P s → s.busy = false → Q s)
    (hsrcs : ∀ s, P s → s.srcs.wf)
    (s : State) (hb : s.busy = true) (h : P s.clearTerm) : Q (readLine c s) := by
  have quiet : ∀ q s, P s → s.busy = true → s.srcQueue = q → Q (readQuiet c q s) := by
    intro q
    induction q with
    | nil => exact hnone
    | cons b q ih =>
      intro s h hs hq
      rw [readQuiet]
      split
      · rename_i hbt
        subst hbt
        exact hterm q s h hs hq
      · rename_i hbt
        refine ih _ (hbyte b q s h hs hq hbt) (by simpa using hs) ?_
        simpa [State.srcQueue] using Queues.get_set_self (hsrcs s h) s.srcId q
  have ticks : ∀ ts s, P s → s.busy = true → s.env = ts → Q (readTicks c ts s) := by
    intro ts
    induction ts with
    | nil => exact fun s h hs _ => quiet _ s h hs rfl
    | cons t ts ih =>
      intro s h hs he
      have h1 := htick t ts s h hs he
      rw [readTicks]
      split
      · rename_i hs1
        split
        · rename_i hq
          exact hnone _ h1 hs1 hq
        · rename_i b q hq
          split
          · rename_i hbt
            subst hbt
            exact hterm q _ h1 hs1 hq
          · rename_i hbt
            refine ih _ (hbyte b q _ h1 hs1 hq hbt) (by simpa using hs1) ?_
            rw [State.storeByte_env, State.srcTake_env, envTick_env, State.setEnv_env]
      · rename_i hs1
        exact habort _ h1 (by simpa using hs1)
  exact ticks s.env _ h hb rfl

/-- Any property of states that does not depend on what the sources hold and that every part of READ_LINE keeps, READ_LINE
keeps. -/
theorem readLine_keeps_any (c : Params) (P : State → Prop)
    (htick : ∀ t ts s, P s → s.env = t :: ts → P ((s.setEnv ts).envTick c t))
    (htake : ∀ b q s, P s → P (s.srcTake b q))
    (hnone : ∀ s, P s → P s.srcNone)
    (hstore : ∀ b s, P s → P (s.storeByte c b))
    (hterm : ∀ s, P s → P s.seeTerm)
    (hend : ∀ s, P s → P s.endRead)
    (s : State) (h : P s.clearTerm) : P (readLine c s) := by
  have quiet : ∀ q s, P s → P (readQuiet c q s) := by
    intro q
    induction q with
    | nil => exact fun s h => hend _ (hnone _ h)
    | cons b q ih =>
      intro s h
      rw [readQuiet]
      split
      · exact hend _ (hterm _ (htake b q s h))
      · exact ih _ (hstore b _ (htake b q s h))
  have ticks : ∀ ts s, P s → s.env = ts → P (readTicks c ts s) := by
    intro ts
    induction ts with
    | nil => exact fun s h _ => quiet _ s h
    | cons t ts ih =>
      intro s h he
      have h1 := htick t ts s h he
      rw [readTicks]
      split
      · split
        · exact hend _ (hnone _ h1)
        · split
          · exact hend _ (hterm _ (htake _ _ _ h1))
          · refine ih _ (hstore _ _ (htake _ _ _ h1)) ?_
            rw [State.storeByte_env, State.srcTake_env, envTick_env, State.setEnv_env]
      · exact h1
  exact ticks s.env _ h rfl

end Sys2Proof.Machine
end

