-- ==== Sys2Proof/Laws/Pump.lean ====
section
/-! SUPPORT. The pump and the step: what each can do. -/

namespace Sys2Proof.Machine

/-! ### One candidate line -/

/-- Everything the pump can do with a candidate line (R215, R216, R217). -/
theorem handleLine_cases (line : Line) (s : State) :
    (∃ m, decodeLine hw line = .ok m ∧ s.hndSet = true ∧ handleLine line s = (s.stage m).dispatch m) ∨
    (∃ m, decodeLine hw line = .ok m ∧ s.hndSet = false ∧ handleLine line s = s.stage m) ∨
    (∃ e, decodeLine hw line = .err e ∧ handleLine line s = s.report e.status) := by
  cases hd : decodeLine hw line with
  | ok m =>
    cases hh : s.hndSet with
    | true => exact .inl ⟨m, rfl, rfl, by simp [handleLine, hd, hh]⟩
    | false => exact .inr (.inl ⟨m, rfl, rfl, by simp [handleLine, hd, hh]⟩)
  | err e => exact .inr (.inr ⟨e, rfl, by simp [handleLine, hd]⟩)

/-- What a candidate line causes on the channels (R72). -/
theorem handleLine_trace (line : Line) (s : State) :
    (handleLine line s).trace = s.trace ++ lineEvents s.handler line := by
  rcases handleLine_cases line s with ⟨m, hd, hh, h⟩ | ⟨m, hd, hh, h⟩ | ⟨e, hd, h⟩
  · simp [h, lineEvents, hd, State.handler, hh]
  · simp [h, lineEvents, hd, State.handler, hh]
  · simp [h, lineEvents, hd]

/-- A property of states that staging a message, dispatching it and reporting an error keep, handling a line keeps. -/
theorem handleLine_keeps (P : State → Prop) (line : Line)
    (hstage : ∀ m s, decodeLine hw line = .ok m → P s → P (s.stage m))
    (hdisp : ∀ m s, decodeLine hw line = .ok m → P s → s.hndSet = true → P (s.dispatch m))
    (hrep : ∀ e s, decodeLine hw line = .err e → P s → P (s.report e.status))
    (s : State) (h : P s) : P (handleLine line s) := by
  rcases handleLine_cases line s with ⟨m, hd, hh, he⟩ | ⟨m, hd, -, he⟩ | ⟨e, hd, he⟩
  · rw [he]; exact hdisp m _ hd (hstage m s hd h) (by simpa using hh)
  · rw [he]; exact hstage m s hd h
  · rw [he]; exact hrep e s hd h

@[simp] theorem handleLine_pstate (line : Line) (s : State) :
    (handleLine line s).pstate = s.pstate :=
  handleLine_keeps (·.pstate = s.pstate) line (fun _ _ _ h => h) (fun _ _ _ h _ => h) (fun _ _ _ h => h) s rfl

@[simp] theorem handleLine_srcId (line : Line) (s : State) : (handleLine line s).srcId = s.srcId :=
  handleLine_keeps (·.srcId = s.srcId) line (fun _ _ _ h => h) (fun _ _ _ h _ => h) (fun _ _ _ h => h) s rfl

@[simp] theorem handleLine_hndSet (line : Line) (s : State) : (handleLine line s).hndSet = s.hndSet :=
  handleLine_keeps (·.hndSet = s.hndSet) line (fun _ _ _ h => h) (fun _ _ _ h _ => h) (fun _ _ _ h => h) s rfl

@[simp] theorem handleLine_hndId (line : Line) (s : State) : (handleLine line s).hndId = s.hndId :=
  handleLine_keeps (·.hndId = s.hndId) line (fun _ _ _ h => h) (fun _ _ _ h _ => h) (fun _ _ _ h => h) s rfl

@[simp] theorem handleLine_defsrc (line : Line) (s : State) : (handleLine line s).defsrc = s.defsrc :=
  handleLine_keeps (·.defsrc = s.defsrc) line (fun _ _ _ h => h) (fun _ _ _ h _ => h) (fun _ _ _ h => h) s rfl

@[simp] theorem handleLine_lbLen (line : Line) (s : State) : (handleLine line s).lbLen = s.lbLen :=
  handleLine_keeps (·.lbLen = s.lbLen) line (fun _ _ _ h => h) (fun _ _ _ h _ => h) (fun _ _ _ h => h) s rfl

@[simp] theorem handleLine_lb (line : Line) (s : State) : (handleLine line s).lb = s.lb :=
  handleLine_keeps (·.lb = s.lb) line (fun _ _ _ h => h) (fun _ _ _ h _ => h) (fun _ _ _ h => h) s rfl

@[simp] theorem handleLine_enc (line : Line) (s : State) : (handleLine line s).enc = s.enc :=
  handleLine_keeps (·.enc = s.enc) line (fun _ _ _ h => h) (fun _ _ _ h _ => h) (fun _ _ _ h => h) s rfl

@[simp] theorem handleLine_cmdq (line : Line) (s : State) : (handleLine line s).cmdq = s.cmdq :=
  handleLine_keeps (·.cmdq = s.cmdq) line (fun _ _ _ h => h) (fun _ _ _ h _ => h) (fun _ _ _ h => h) s rfl

@[simp] theorem handleLine_srcs (line : Line) (s : State) : (handleLine line s).srcs = s.srcs :=
  handleLine_keeps (·.srcs = s.srcs) line (fun _ _ _ h => h) (fun _ _ _ h _ => h) (fun _ _ _ h => h) s rfl

@[simp] theorem handleLine_env (line : Line) (s : State) : (handleLine line s).env = s.env :=
  handleLine_keeps (·.env = s.env) line (fun _ _ _ h => h) (fun _ _ _ h _ => h) (fun _ _ _ h => h) s rfl

@[simp] theorem handleLine_termSeen (line : Line) (s : State) :
    (handleLine line s).termSeen = s.termSeen :=
  handleLine_keeps (·.termSeen = s.termSeen) line (fun _ _ _ h => h) (fun _ _ _ h _ => h) (fun _ _ _ h => h) s rfl

@[simp] theorem handleLine_freeIdx (line : Line) (s : State) : (handleLine line s).freeIdx = s.freeIdx :=
  handleLine_keeps (·.freeIdx = s.freeIdx) line (fun _ _ _ h => h) (fun _ _ _ h _ => h) (fun _ _ _ h => h) s rfl

/-! ### The loop -/

/-- Taking a line with an invariant: READ_LINE takes `P` to `R`, and its moment `R` to `Q`. -/
theorem takeLine_keeps (c : Params) (P Q : State → Prop) (hread : ∀ s, P s → Q (readLine c s.startLine))
    (htick : ∀ s, Q s → s.busy = true → Q (s.tick c)) (s : State) (h : P s) : Q (takeLine c s) := by
  have hr := hread s h
  unfold takeLine State.moment
  split
  · exact htick _ hr ‹_›
  · exact hr

/-- Any property of states that every part of READ_LINE and every tick keep, whatever the sources hold, taking a line
keeps. -/
theorem takeLine_keeps_any (c : Params) (P : State → Prop)
    (htick : ∀ t ts s, P s → s.env = t :: ts → P ((s.setEnv ts).envTick c t))
    (htake : ∀ b q s, P s → P (s.srcTake b q))
    (hnone : ∀ s, P s → P s.srcNone)
    (hstore : ∀ b s, P s → P (s.storeByte c b))
    (hterm : ∀ s, P s → P s.seeTerm)
    (hend : ∀ s, P s → P s.endRead)
    (s : State) (h : P s.startLine.clearTerm) : P (takeLine c s) := by
  have hr := readLine_keeps_any c P htick htake hnone hstore hterm hend s.startLine h
  refine moment_keeps c P (fun s h => ?_) _ hr
  cases he : s.env with
  | nil => rwa [tick_of_quiet c he]
  | cons t ts => simpa only [State.tick, he] using htick t ts s h he

/-- Taking a line while the environment is quiet is READ_LINE. -/
theorem takeLine_quiet (c : Params) {s : State} (h : s.env = []) (hsrcs : s.srcs.wf) :
    takeLine c s = readLine c s.startLine := by
  have he : (readLine c s.startLine).env = [] := by rw [readLine_startLine_quiet c s h hsrcs]; exact h
  simp [takeLine, State.moment, tick_of_quiet c he]

/-- Everything an iteration of the loop can be (R211 to R217). -/
theorem pumpIter_cases (s : State) :
    ((takeLine hw s).busy = false ∧ pumpIter s = .stop (takeLine hw s)) ∨
    ((takeLine hw s).busy = true ∧ (takeLine hw s).lbLen = 0 ∧
      pumpIter s = .stop ((takeLine hw s).respond (.status .ok))) ∨
    ((takeLine hw s).busy = true ∧ (takeLine hw s).lbLen ≠ 0 ∧
      ∃ t, t = handleLine (takeLine hw s).candidate (takeLine hw s) ∧
        (t.dispTx.isSome = true ∧ pumpIter s = .stop t ∨ t.dispTx.isSome = false ∧ pumpIter s = .again t)) := by
  unfold pumpIter
  generalize takeLine hw s = r
  by_cases hb : r.busy = true
  · by_cases hl : r.lbLen = 0
    · exact .inr (.inl ⟨hb, hl, by simp [hb, hl, lineAvail]⟩)
    · refine .inr (.inr ⟨hb, hl, _, rfl, ?_⟩)
      cases hd : (handleLine r.candidate r).dispTx.isSome with
      | true => exact .inl ⟨rfl, by simp [hb, hl, lineAvail, hd]⟩
      | false => exact .inr ⟨rfl, by simp [hb, hl, lineAvail, hd]⟩
  · exact .inl ⟨by simpa using hb, by simp [hb]⟩

/-- A property of states that taking a line, the completion without a line and the handling of a line keep, the loop keeps. -/
theorem pumpLoop_keeps (P : State → Prop)
    (hread : ∀ s, P s → P (takeLine hw s))
    (hdone : ∀ s, P s → s.busy = true → s.lbLen = 0 → P (s.respond (.status .ok)))
    (hline : ∀ s, P s → s.busy = true → s.lbLen ≠ 0 → P (handleLine s.candidate s))
    (n : Nat) (s : State) (h : P s) : P (pumpLoop n s) := by
  induction n generalizing s with
  | zero => exact h
  | succ n ih =>
    have hr := hread s h
    rw [pumpLoop]
    rcases pumpIter_cases s with ⟨-, he⟩ | ⟨hb, hl, he⟩ | ⟨hb, hl, t, rfl, ⟨-, he⟩ | ⟨-, he⟩⟩
    · rw [he]; exact hr
    · rw [he]; exact hdone _ hr hb hl
    · rw [he]; exact hline _ hr hb hl
    · rw [he]; exact ih _ (hline _ hr hb hl)

/-- A running command stays running while a line is handled. -/
theorem handleLine_busy (line : Line) {s : State} (h : s.busy = true) :
    (handleLine line s).busy = true :=
  handleLine_keeps (·.busy = true) line (fun _ _ _ h => h)
    (fun _ s _ h _ => by simp only [State.dispatch, h, Bool.true_or]) (fun _ _ _ h => h) s h

/-- The loop with an invariant: `P` holds at its head while the command runs, `Q` wherever it stops. -/
theorem pumpLoop_ends (P Q : State → Prop)
    (hbound : ∀ s, P s → s.busy = true → Q s)
    (habort : ∀ s, P s → s.busy = true → (takeLine hw s).busy = false → Q (takeLine hw s))
    (hdone : ∀ s, P s → s.busy = true → (takeLine hw s).busy = true → (takeLine hw s).lbLen = 0 →
      Q ((takeLine hw s).respond (.status .ok)))
    (hheld : ∀ s t, P s → s.busy = true → (takeLine hw s).busy = true → (takeLine hw s).lbLen ≠ 0 →
      t = handleLine (takeLine hw s).candidate (takeLine hw s) → t.dispTx.isSome = true → Q t)
    (hagain : ∀ s t, P s → s.busy = true → (takeLine hw s).busy = true → (takeLine hw s).lbLen ≠ 0 →
      t = handleLine (takeLine hw s).candidate (takeLine hw s) → t.dispTx.isSome = false → P t)
    (n : Nat) (s : State) (hb : s.busy = true) (h : P s) : Q (pumpLoop n s) := by
  induction n generalizing s with
  | zero => exact hbound s h hb
  | succ n ih =>
    rw [pumpLoop]
    rcases pumpIter_cases s with ⟨hr, he⟩ | ⟨hr, hl, he⟩ | ⟨hr, hl, t, ht, ⟨hd, he⟩ | ⟨hd, he⟩⟩
    · rw [he]; exact habort s h hb hr
    · rw [he]; exact hdone s h hb hr hl
    · rw [he]; exact hheld s t h hb hr hl ht hd
    · rw [he]; exact ih t (ht ▸ handleLine_busy _ hr) (hagain s t h hb hr hl ht hd)

/-! ### The step -/

/-- Everything a step can be: the environment's tick, and then waiting for a handler, the completion of a PUMP_ONCE, the
abortion of one, a line of one, an idle block, a command, or bytes that are none. -/
theorem step_cases (s : State) :
    ((s.tick hw).busy = true ∧ (s.tick hw).dispTx.isSome = true ∧ step s = .next (s.tick hw)) ∨
    ((s.tick hw).busy = true ∧ (s.tick hw).dispTx.isSome = false ∧ (s.tick hw).pstate = .detached ∧
      step s = .next ((s.tick hw).respond (.status .ok))) ∨
    ((s.tick hw).busy = true ∧ (s.tick hw).dispTx.isSome = false ∧ (s.tick hw).pstate ≠ .detached ∧
      ((takeLine hw (s.tick hw)).busy = false ∧ step s = .next (takeLine hw (s.tick hw)) ∨
       (takeLine hw (s.tick hw)).busy = true ∧ (takeLine hw (s.tick hw)).lbLen = 0 ∧
         step s = .next ((takeLine hw (s.tick hw)).respond (.status .ok)) ∨
       (takeLine hw (s.tick hw)).busy = true ∧ (takeLine hw (s.tick hw)).lbLen ≠ 0 ∧
         step s = exec (.line (takeLine hw (s.tick hw)).candidate) (takeLine hw (s.tick hw)))) ∨
    ((s.tick hw).busy = false ∧ (s.tick hw).cmdq = [] ∧ step s = .next (s.tick hw)) ∨
    ((s.tick hw).busy = false ∧ ∃ bytes rest, (s.tick hw).cmdq = bytes :: rest ∧
      ((∃ i, decodeCommand bytes = .ok (i, []) ∧ step s = exec i { s.tick hw with cmdq := rest }) ∨
       ((∀ i, decodeCommand bytes ≠ .ok (i, [])) ∧ ∃ e, step s = .refused (.malformedCommand e)))) := by
  unfold step fetch
  generalize s.tick hw = u
  cases hb : u.busy with
  | true =>
    cases hd : u.dispTx.isSome with
    | true => exact .inl ⟨rfl, rfl, by simp [hb, hd]⟩
    | false =>
      by_cases hp : u.pstate = .detached
      · exact .inr (.inl ⟨rfl, rfl, hp, by simp [fetchLine, hp, hb, hd]⟩)
      · refine .inr (.inr (.inl ⟨rfl, rfl, hp, ?_⟩))
        simp only [fetchLine, hp, hb, hd, if_false, if_true, Bool.false_eq_true]
        generalize takeLine hw u = r
        cases hrb : r.busy with
        | false => exact .inl ⟨rfl, by simp⟩
        | true =>
          by_cases hl : r.lbLen = 0
          · exact .inr (.inl ⟨rfl, hl, by simp [hl, lineAvail]⟩)
          · exact .inr (.inr ⟨rfl, hl, by simp [hl, lineAvail]⟩)
  | false =>
    cases hq : u.cmdq with
    | nil => exact .inr (.inr (.inr (.inl ⟨rfl, rfl, by simp [hb, fetchCommand, hq]⟩)))
    | cons bytes rest =>
      refine .inr (.inr (.inr (.inr ⟨rfl, bytes, rest, rfl, ?_⟩)))
      cases hc : decodeCommand bytes with
      | error e => exact .inr ⟨by simp, e, by simp [hb, fetchCommand, hq, hc]⟩
      | ok p =>
        obtain ⟨i, r⟩ := p
        cases r with
        | nil => exact .inl ⟨i, rfl, by simp [hb, fetchCommand, hq, hc]⟩
        | cons b bs => exact .inr ⟨by simp, _, by simp [hb, fetchCommand, hq, hc]; rfl⟩

end Sys2Proof.Machine
end

