-- ==== Sys2Proof/Laws/Stream.lean ====
section
/-! SUPPORT. The fields of the instruction stream: reading back a field that was written. -/

namespace Sys2Proof

@[simp] theorem length_natBytes (n v : Nat) : (natBytes n v).length = n := by
  induction n with
  | zero => rfl
  | succ n ih => simp [natBytes, ih]

theorem foldl_bytes (bs : List Byte) (v : Nat) :
    bs.foldl (fun v b => v * 256 + b.toNat) v = v * 256 ^ bs.length + bytesNat bs := by
  induction bs generalizing v with
  | nil => simp [bytesNat]
  | cons b bs ih =>
    simp only [List.foldl_cons, List.length_cons, bytesNat]
    rw [ih, ih (0 * 256 + b.toNat)]
    ring

theorem bytesNat_cons (b : Byte) (bs : List Byte) :
    bytesNat (b :: bs) = b.toNat * 256 ^ bs.length + bytesNat bs := by
  simpa [bytesNat] using foldl_bytes bs (0 * 256 + b.toNat)

/-- The number that the `n` bytes of `v` spell. -/
theorem bytesNat_natBytes (n v : Nat) : bytesNat (natBytes n v) = v % 256 ^ n := by
  induction n with
  | zero => simp [natBytes, bytesNat, Nat.mod_one]
  | succ n ih =>
    have h : v % 256 ^ (n + 1) = v % 256 ^ n + 256 ^ n * (v / 256 ^ n % 256) := by rw [Nat.pow_succ, Nat.mod_mul]
    rw [natBytes, bytesNat_cons, ih, length_natBytes, BitVec.toNat_ofNat, h, show 2 ^ 8 = 256 from rfl]
    ring

/-- The bytes of the number that `bs` spells are `bs`. -/
theorem natBytes_bytesNat (bs : List Byte) : natBytes bs.length (bytesNat bs) = bs := by
  have lt : ∀ bs : List Byte, bytesNat bs < 256 ^ bs.length := by
    intro bs
    induction bs with
    | nil => simp [bytesNat]
    | cons b bs ih =>
      have hb := b.isLt
      rw [bytesNat_cons, List.length_cons, Nat.pow_succ]
      nlinarith
  have cong : ∀ (n v w : Nat), natBytes n (v * 256 ^ n + w) = natBytes n w := by
    intro n
    induction n with
    | zero => intros; rfl
    | succ n ih =>
      intro v w
      have e : v * 256 ^ (n + 1) + w = (v * 256) * 256 ^ n + w := by ring
      simp only [natBytes, e, ih, List.cons.injEq, and_true]
      apply BitVec.eq_of_toNat_eq
      rw [BitVec.toNat_ofNat, BitVec.toNat_ofNat, Nat.add_comm, Nat.add_mul_div_right _ _ (Nat.pow_pos (by omega))]
      omega
  induction bs with
  | nil => rfl
  | cons b bs ih =>
    rw [List.length_cons, natBytes, bytesNat_cons, cong, ih, Nat.add_comm,
      Nat.add_mul_div_right _ _ (Nat.pow_pos (by omega)), Nat.div_eq_of_lt (lt bs)]
    simp

theorem bytesNat_lt (bs : List Byte) : bytesNat bs < 256 ^ bs.length := by
  have h := bytesNat_natBytes bs.length (bytesNat bs)
  rw [natBytes_bytesNat] at h
  rw [h]
  exact Nat.mod_lt _ (Nat.pow_pos (by omega))

/-- Taking bytes that stand there. -/
theorem takeBytes_append {n : Nat} {bs : List Byte} (h : bs.length = n) (rest : List Byte) :
    takeBytes n (bs ++ rest) = .ok (bs, rest) := by
  subst h
  simp [takeBytes]

/-- Everything `takeBytes` can answer. -/
theorem takeBytes_eq_ok {n : Nat} {bs taken rest : List Byte} :
    takeBytes n bs = .ok (taken, rest) ↔ taken.length = n ∧ bs = taken ++ rest := by
  constructor
  · intro h
    unfold takeBytes at h
    split at h
    · cases h
    · cases h
      exact ⟨by simp; omega, by simp⟩
  · rintro ⟨rfl, rfl⟩
    exact takeBytes_append rfl rest

/-- Reading back a number. -/
theorem takeNat_append {n v : Nat} (h : v < 256 ^ n) (rest : List Byte) :
    takeNat n (natBytes n v ++ rest) = .ok (v, rest) := by
  simp [takeNat, takeBytes_append (length_natBytes n v), Except.map, bytesNat_natBytes, Nat.mod_eq_of_lt h]

/-- Everything `takeNat` can answer. -/
theorem takeNat_eq_ok {n v : Nat} {bs rest : List Byte} :
    takeNat n bs = .ok (v, rest) ↔ v < 256 ^ n ∧ bs = natBytes n v ++ rest := by
  constructor
  · intro h
    unfold takeNat at h
    cases ht : takeBytes n bs with
    | error e => rw [ht] at h; cases h
    | ok p =>
      rw [ht] at h
      obtain ⟨taken, rest'⟩ := p
      obtain ⟨rfl, rfl⟩ := takeBytes_eq_ok.1 ht
      cases h
      exact ⟨bytesNat_lt _, by rw [natBytes_bytesNat]⟩
  · rintro ⟨hv, rfl⟩
    exact takeNat_append hv rest

/-- Reading back a priority. -/
theorem takePriority_append (p : Priority) (rest : List Byte) :
    takePriority (natBytes 1 p.toNat ++ rest) = .ok (p, rest) := by
  have := p.isLt
  unfold takePriority
  rw [takeNat_append (by omega)]
  simp [bind, Except.bind]
  omega

/-- Everything `takePriority` can answer. -/
theorem takePriority_eq_ok {bs rest : List Byte} {p : Priority} :
    takePriority bs = .ok (p, rest) ↔ bs = natBytes 1 p.toNat ++ rest := by
  constructor
  · intro h
    unfold takePriority at h
    cases ht : takeNat 1 bs with
    | error e => rw [ht] at h; cases h
    | ok q =>
      rw [ht] at h
      obtain ⟨v, r⟩ := q
      obtain ⟨-, rfl⟩ := takeNat_eq_ok.1 ht
      simp only [bind, Except.bind] at h
      split at h
      · cases h
      · cases h
        rw [BitVec.toNat_ofNat, Nat.mod_eq_of_lt (by omega)]
  · rintro rfl
    exact takePriority_append p rest

/-- Reading back a payload. -/
theorem takePayload_append {p n : Nat} {payload : List Byte} (h : payload.length ≤ p)
    (hn : payload.length = n) (rest : List Byte) : takePayload p n (payload ++ rest) = .ok (⟨payload, h⟩, rest) := by
  subst hn
  simp [takePayload, h]

/-- Everything `takePayload` can answer. -/
theorem takePayload_eq_ok {p n : Nat} {bs rest : List Byte} {payload : { payload : List Byte // payload.length ≤ p }} :
    takePayload p n bs = .ok (payload, rest) ↔ payload.1.length = n ∧ bs = payload.1 ++ rest := by
  constructor
  · intro h
    unfold takePayload at h
    split at h
    · split at h
      · cases h
      · cases h
        exact ⟨by simp; omega, by simp⟩
    · cases h
  · rintro ⟨rfl, rfl⟩
    exact takePayload_append payload.2 rfl rest

/-- Reading back a Wire Message (R108). -/
theorem takeMessage_append (m : Message) (rest : List Byte) :
    takeMessage (messageBytes m ++ rest) = .ok (m, rest) := by
  have h1 := m.pgn.isLt
  have h2 := m.source.isLt
  have h3 := m.destination.isLt
  have h4 : m.plen < 256 := Nat.lt_of_le_of_lt m.payload_le (Nat.lt_succ_of_le Machine.hw.maxPayload_le)
  simp only [takeMessage, messageBytes, List.append_assoc, bind, Except.bind]
  rw [takeNat_append (by omega)]
  simp only
  rw [takeNat_append (by omega)]
  simp only
  rw [takeNat_append (by omega)]
  simp only
  rw [takePriority_append]
  simp only
  rw [takeNat_append (by omega)]
  simp only
  rw [takePayload_append m.payload_le rfl]
  simp

/-- A line ends at its first terminator (R137). -/
theorem splitLine_append {term : Byte} {l : Line} (hl : term ∉ l) (rest : List Byte) :
    splitLine term (l ++ term :: rest) = (l, rest) := by
  induction l with
  | nil => simp [splitLine]
  | cons b l ih =>
    simp only [List.mem_cons, not_or] at hl
    rw [List.cons_append, splitLine, if_neg (fun e => hl.1 e.symm), ih hl.2]

end Sys2Proof
end

