-- ==== Sys2Proof/Tests/Slice0.lean ====
section
/-! SUPPORT. The model's own tests: ill-formed terms that WellFormed refuses, words written out from the spec's encodings,
single instructions on small states with results from the spec's examples, and one witness for each obligation that has
hypotheses. -/

namespace Sys2Proof.Tests

open Sys2Proof.Machine

/-! ### Small states -/

/-- The header `A173321.107 23FF7 1F513 ` of R169. -/
def header : Line :=
  [0x41, 0x31, 0x37, 0x33, 0x33, 0x32, 0x31, 0x2E, 0x31, 0x30, 0x37, 0x20, 0x32, 0x33, 0x46, 0x46, 0x37, 0x20,
   0x31, 0x46, 0x35, 0x31, 0x33, 0x20]

/-- The payload characters `012F3070002F30709F` of R91. -/
def digits : Line :=
  [0x30, 0x31, 0x32, 0x46, 0x33, 0x30, 0x37, 0x30, 0x30, 0x30, 0x32, 0x46, 0x33, 0x30, 0x37, 0x30, 0x39, 0x46]

/-- The source's worked example (R91). -/
def example91 : Line := header ++ digits

/-- What it decodes to (R170). -/
def message170 : Message where
  pgn := 0x1F513
  source := 0x23
  destination := 0xFF
  priority := 7
  payload := [0x01, 0x2F, 0x30, 0x70, 0x00, 0x2F, 0x30, 0x70, 0x9F]

/-- What the header alone decodes to (R169). -/
def message0 : Message := cutMessage message170 0

/-- A block with source 1 attached, which holds `bytes`, and with handler 2 registered. -/
def ready (bytes : List Byte) : State :=
  { State.reset with
    pstate := .idle, srcId := 1, hndSet := true, hndId := 2
    srcs := if bytes = [] then [] else [(1, bytes)] }

/-- The same with a PUMP_ONCE at the head of its loop. -/
def pumping (bytes : List Byte) : State := { ready bytes with busy := true }

/-- The same, its handler still running. -/
def waiting : State := { pumping [] with dispTx := some (2, message0) }

/-- A block whose environment feeds a source in the next moment, and whose reset comes only after that. -/
def lively : State := { ready [] with env := [[.feed 1 [0x41]], [.reset]] }

/-- A block that a reset strikes after `n` moments of its next command. -/
def strikeAfter (n : Nat) (s : State) : State := { s with env := List.replicate n [] ++ [[.reset]] }

/-- Parameters with the longest payload that R9 admits. -/
def widest : Params := { hw with maxPayload := 255, maxPayload_le := Nat.le_refl 255 }

/-- A block with command bytes on CMD. -/
def commanded (bytes : List Byte) : State := { State.reset with cmdq := [bytes] }

/-- The state an outcome leaves. -/
def after (o : Host.Outcome State Fault Refusal) : State :=
  match o with
  | .next t => t
  | .fault _ | .refused _ => State.reset

/-! ### WellFormed -/

theorem test_decode_length_has_16_bits : (Instr.decode (List.replicate 65536 0)).wellFormed = false := by
  simp only [Instr.wellFormed, List.length_replicate]
  decide

/-- The longest record is one, and its ENCODE is well-formed (R23); a longer one cannot be written down. -/
theorem test_encode_payload_bound_admits :
    (Instr.encode (WireMessage.mk 0 0 0 0 (List.replicate 223 0) (Nat.le_of_eq List.length_replicate)) 471).wellFormed =
      true := rfl

theorem test_line_needs_the_marker : (Instr.line [0x61, 0x31]).wellFormed = false := by decide

theorem test_line_is_not_empty : (Instr.line []).wellFormed = false := by decide

theorem test_line_holds_no_terminator : (Instr.line [0x41, 0x0A]).wellFormed = false := by decide

/-! ### Words written out from R107, R108 and R90 -/

theorem test_word_nop : decode [0x00] = .ok (.nop, []) := by decide

theorem test_word_attach_source : decode [0x01, 0x2A, 0xFF] = .ok (.attachSource 0x2A, [0xFF]) := by decide

theorem test_word_detach_source : decode [0x02] = .ok (.detachSource, []) := by decide

theorem test_word_set_default_source_address : decode [0x03, 0x81] = .ok (.setDefaultSourceAddress 0x81, []) := by
  decide

theorem test_word_set_handler : decode [0x04, 0x07] = .ok (.setHandler 0x07, []) := by decide

theorem test_word_pump_once : decode [0x05] = .ok (.pumpOnce, []) := by decide

theorem test_word_decode : decode [0x06, 0x00, 0x03, 0x41, 0x31, 0x32] = .ok (.decode [0x41, 0x31, 0x32], []) := by
  decide

theorem test_word_encode :
    decode [0x07, 0x01, 0xF5, 0x13, 0x23, 0xFF, 0x07, 0x02, 0x01, 0x2F, 0x01, 0xD7] =
      .ok (.encode (WireMessage.mk 0x1F513 0x23 0xFF 7 [0x01, 0x2F]) 471, []) := by decide

theorem test_word_line : decode [0x41, 0x31, 0x0A, 0x42] = .ok (.line [0x41, 0x31], [0x42]) := by decide

theorem test_encode_word :
    encode (.encode (WireMessage.mk 0x1F513 0x23 0xFF 7 [0x01, 0x2F]) 471) =
      [0x07, 0x01, 0xF5, 0x13, 0x23, 0xFF, 0x07, 0x02, 0x01, 0x2F, 0x01, 0xD7] := by decide

theorem test_no_command : decode [0x08] = .error (.notACommand 0x08) := by decide

theorem test_missing_operand : decode [0x01] = .error .missingOperand := by decide

theorem test_priority_padding :
    decode [0x07, 0, 0, 0, 0, 0, 0x10, 0, 0, 0] = .error (.priorityPadding 0x10) := by decide

theorem test_plen_bound : decode [0x07, 0, 0, 0, 0, 0, 0, 0xE0] = .error (.notAWireMessage 0xE0) := by decide

/-! ### Table words -/

theorem test_table_word_attach_source : decodeTableWord 16 0x2A01 = some (.attachSource 0x2A) := by decide

theorem test_table_word_encode : decodeTableWord 80 0x7 = some (.encode (WireMessage.mk 0 0 0 0 []) 0) := by decide

theorem test_table_word_line : decodeTableWord 192 0x41 = some (.line (0x41 :: List.replicate 23 0)) := by decide

theorem test_fetch_word_set_handler :
    (after (step (State.reset.withFetchWord 16 0x0704))).hndId = 7 ∧
      (after (step (State.reset.withFetchWord 16 0x0704))).rspLog = [.status .ok] := by decide

theorem test_fetch_word_line : (after (step (State.reset.withFetchWord 192 0x41))).errLog = [] := by decide

/-- The constraints of the parameter table of `00_scope.md`. -/
theorem test_parameters_valid : hw.Valid := by decide

/-- R9: `MAX_PAYLOAD` may be 255; a line of 224 pairs is then no `PayloadTooLong`, as it is at the default. -/
theorem test_longest_max_payload :
    widest.Valid ∧ decodeLine hw (header ++ List.replicate 448 0x30) = .err .payloadTooLong ∧
      (match decodeLine widest (header ++ List.replicate 448 0x30) with
        | .ok m => m.plen
        | .err _ => 0) = 224 := by decide +kernel

/-- U1: the three readings of `HexFallback` on the characters `1x2`. -/
theorem test_fallback_readings :
    nibbleZeroFallback [0x31, 0x78, 0x32] = 0x102 ∧ fieldZeroFallback [0x31, 0x78, 0x32] = 0 ∧
      longestPrefixFallback [0x31, 0x78, 0x32] = 1 := by decide

/-! ### Instructions -/

/-- R248. -/
theorem test_nop : (after (exec .nop State.reset)).trace = [.rsp (.status .ok)] := by decide

/-- R240. -/
theorem test_attach_source :
    (after (exec (.attachSource 5) State.reset)).srcId = 5 ∧ (after (exec (.attachSource 5) State.reset)).pstate = .idle :=
  by decide

/-- R242. -/
theorem test_detach_source : (after (exec .detachSource (ready []))).pstate = .detached := by decide

/-- R244. -/
theorem test_set_default_source_address : (after (exec (.setDefaultSourceAddress 0x81) State.reset)).defsrc = 0x81 := by
  decide

/-- R246, R247: the second registration replaces the first. -/
theorem test_set_handler_replaces :
    (after (exec (.setHandler 9) (ready []))).hndId = 9 ∧ (after (exec (.setHandler 9) (ready []))).hndSet = true := by
  decide

/-- R230: one DISP transaction, no ERR event, 44 `SrcRead()` calls. -/
theorem test_pump_worked_example :
    (after (exec .pumpOnce (ready (example91 ++ [0x0A])))).dispLog = [(2, message170)] ∧
      (after (exec .pumpOnce (ready (example91 ++ [0x0A])))).srcLog.length = 44 ∧
      (after (exec .pumpOnce (ready (example91 ++ [0x0A])))).rspLog = [.status .ok] := by decide +kernel

/-- R229, row `L1 T T L2 T` with an `xyz T` before it: ERR InvalidStart, DISP m1, and `L2 T` left. -/
theorem test_pump_stops_at_an_empty_line :
    (after (exec .pumpOnce (ready ([0x78, 0x79, 0x7A, 0x0A] ++ header ++ [0x0A, 0x0A, 0x41, 0x0A])))).errLog =
        [.invalidStart] ∧
      (after (exec .pumpOnce (ready ([0x78, 0x79, 0x7A, 0x0A] ++ header ++ [0x0A, 0x0A, 0x41, 0x0A])))).dispLog =
        [(2, message0)] ∧
      (after (exec .pumpOnce (ready ([0x78, 0x79, 0x7A, 0x0A] ++ header ++ [0x0A, 0x0A, 0x41, 0x0A])))).srcs =
        [(1, [0x41, 0x0A])] := by decide

/-- R170. -/
theorem test_decode_worked_example :
    (after (exec (.decode example91) State.reset)).trace = [.rsp (.message message170)] := by decide

/-- R161, R165: a wrong first character comes before the length. -/
theorem test_decode_errors :
    (after (exec (.decode [0x41, 0x31, 0x32]) State.reset)).rspLog = [.status .tooShort] ∧
      (after (exec (.decode [0x58, 0x31, 0x32]) State.reset)).rspLog = [.status .invalidStart] := by decide

/-- R199: 42 characters, the sentinel at 42. -/
theorem test_encode_worked_example :
    (after (exec (.encode message170 64) State.reset)).rspLog =
        [.encoded .ok 42
          ([0x41, 0x30, 0x30, 0x30, 0x30, 0x30, 0x30, 0x2E, 0x30, 0x30, 0x30, 0x20, 0x32, 0x33, 0x46, 0x46, 0x37, 0x20,
            0x31, 0x46, 0x35, 0x31, 0x33, 0x20] ++ digits)] ∧
      (after (exec (.encode message170 64) { State.reset with enc := [(42, 0xEE), (43, 0xEE)] })).enc.read 42 = 0 ∧
      (after (exec (.encode message170 64) { State.reset with enc := [(42, 0xEE), (43, 0xEE)] })).enc.read 43 = 0xEE := by
  decide +kernel

/-- R198: capacities 42 and 24. -/
theorem test_encode_overflow :
    ((after (exec (.encode message170 42) State.reset)).rspLog.map Response.code = [.overflowOnEncode]) ∧
      (after (exec (.encode message170 42) State.reset)).enc.read 39 = 0x30 ∧
      (after (exec (.encode message170 42) State.reset)).errLog = [.overflowOnEncode] ∧
      (after (exec (.encode message170 24) State.reset)).rspLog = [.encoded .overflowOnEncode 0 []] := by decide +kernel

/-- R215, R216. -/
theorem test_line :
    (after (exec (.line header) (ready []))).dispLog = [(2, message0)] ∧
      (after (exec (.line [0x41, 0x31]) (ready []))).errLog = [.tooShort] := by decide

/-- R144: the first READ_LINE of the example. -/
theorem test_read_line :
    (readLine hw (pumping [0x41, 0x31, 0x0A, 0x41, 0x32, 0x0A, 0x42])).candidate = [0x41, 0x31] ∧
      (readLine hw (pumping [0x41, 0x31, 0x0A, 0x41, 0x32, 0x0A, 0x42])).srcQueue = [0x41, 0x32, 0x0A, 0x42] := by decide

/-- R64: a byte that is fed before the second `SrcRead()` is seen by the same PUMP_ONCE. -/
theorem test_late_byte :
    (readLine hw { pumping [0x41] with env := [[], [.feed 1 [0x31]]] }).candidate = [0x41, 0x31] := by decide

/-- R66: a held handler, its return, and the next line. -/
theorem test_held_handler :
    (after (exec .pumpOnce { ready (header ++ [0x0A]) with holds := [true] })).busy = true ∧
      (after (step { waiting with env := [[.handlerReturns]] })).rspLog = [.status .ok] := by decide

/-- R300: a reset inside a DECODE: no RSP. -/
theorem test_reset_in_decode : (after (exec (.decode header) (strikeAfter 0 State.reset))).trace = [] := by decide

/-- R300, R301: a reset after three bytes of ENCODE: they stay in ENC, and nothing is answered. -/
theorem test_reset_in_encode :
    (after (exec (.encode message170 64) (strikeAfter 3 State.reset))).enc = [(0, 0x41), (1, 0x30), (2, 0x30)] ∧
      (after (exec (.encode message170 64) (strikeAfter 3 State.reset))).trace = [] ∧
      (after (exec (.encode message170 64) (strikeAfter 3 State.reset))).busy = false := by decide +kernel

/-- R300: a reset after the last `SrcRead()` of a line and before its DISP transaction. -/
theorem test_reset_between_line_and_dispatch :
    (after (exec .pumpOnce (strikeAfter 25 (ready (header ++ [0x0A]))))).srcLog.length = 25 ∧
      (after (exec .pumpOnce (strikeAfter 25 (ready (header ++ [0x0A]))))).dispLog = [] ∧
      (after (exec .pumpOnce (strikeAfter 25 (ready (header ++ [0x0A]))))).rspLog = [] ∧
      (after (exec .pumpOnce (strikeAfter 26 (ready (header ++ [0x0A]))))).dispLog = [(2, message0)] := by decide +kernel

/-! ### Witnesses: a state and operands that meet the hypotheses of an obligation -/

theorem quiet_Spared {s : State} (h : s.env = []) (n : Nat) : s.Spared n := by simp [State.Spared, h]

/-- Something is scheduled for the moment of a command, but no reset. -/
theorem lively_Spared : lively.Spared 1 := by unfold State.Spared; decide

theorem witness_Nop : lively.Spared 1 := lively_Spared

theorem witness_AttachSource : lively.Spared 1 ∧ State.reset.env = [] := ⟨lively_Spared, rfl⟩

theorem witness_DetachSource :
    lively.Spared 1 ∧ ({ lively with pstate := .detached } : State).pstate = .detached ∧
      ({ lively with pstate := .detached } : State).Spared 1 := ⟨lively_Spared, rfl, lively_Spared⟩

theorem witness_SetDefaultSourceAddress : lively.Spared 1 := lively_Spared

theorem witness_DetachedPump : State.reset.pstate = .detached ∧ State.reset.Spared 1 := ⟨rfl, quiet_Spared rfl 1⟩

/-- The clauses: the command, a quiet PUMP_ONCE, one under a schedule, a line. -/
theorem witness_SetHandler :
    lively.Spared 1 ∧ (ready header).env = [] ∧ (ready header).hndSet = true ∧ (ready header).dispTx = none ∧
      (ready header).srcs.wf ∧ (ready header).lb.wf ∧
      exec .pumpOnce (ready header) = .next (after (exec .pumpOnce (ready header))) :=
  ⟨lively_Spared, rfl, rfl, rfl, by decide, by decide, rfl⟩

theorem witness_SetHandler_line :
    (ready []).hndSet = true ∧ (ready []).hndId = 2 ∧ (ready []).pstate ≠ .detached ∧ header ≠ [] ∧
      decodeLine hw (header.take hw.lineCap) = .ok message0 := by decide

/-- R246 through the pump: the message goes to handler 2. -/
theorem test_set_handler_then_pump :
    (after (exec .pumpOnce (after (exec (.setHandler 9) (ready (header ++ [0x0A])))))).dispLog = [(9, message0)] := by
  decide

theorem reset_NoReset : State.reset.NoReset := by unfold State.NoReset; decide

theorem ready_NoReset (bytes : List Byte) : (ready bytes).NoReset := reset_NoReset

theorem ready_HandlersReturn (bytes : List Byte) : (ready bytes).HandlersReturn := by
  unfold State.HandlersReturn; exact fun _ h => (List.not_mem_nil h).elim

theorem witness_EachRegister :
    (ready []).NoReset ∧ exec .pumpOnce (ready []) = .next (after (exec .pumpOnce (ready []))) ∧
      exec (.setHandler 9) (ready []) = .next (after (exec (.setHandler 9) (ready []))) :=
  ⟨ready_NoReset [], rfl, rfl⟩

theorem witness_OnlyAttach :
    (commanded [1, 5]).pstate = .detached ∧ step (commanded [1, 5]) = .next (after (step (commanded [1, 5]))) ∧
      (after (step (commanded [1, 5]))).pstate ≠ .detached := ⟨rfl, rfl, by decide⟩

/-- R97 at the ends of its ranges. -/
theorem witness_Hexval :
    hexDigit? 0x2F = none ∧ hexDigit? 0x30 = some 0 ∧ hexDigit? 0x39 = some 9 ∧ hexDigit? 0x3A = none ∧
      hexDigit? 0x40 = none ∧ hexDigit? 0x41 = some 10 ∧ hexDigit? 0x46 = some 15 ∧ hexDigit? 0x47 = none ∧
      hexDigit? 0x60 = none ∧ hexDigit? 0x61 = some 10 ∧ hexDigit? 0x66 = some 15 ∧ hexDigit? 0x67 = none := by decide

theorem witness_WrongMarker : (0x61 : Byte) ≠ 0x41 ∧ lively.Spared 1 := ⟨by decide, lively_Spared⟩

theorem witness_ShortLine :
    (header.take 23).length < 24 ∧ (header.take 23).head? = some 0x41 ∧ ([] : Line).length < 24 ∧
      ([] : Line).head? ≠ some 0x41 ∧ lively.Spared 1 := ⟨by decide, by decide, by decide, by decide, lively_Spared⟩

theorem witness_LongPayload :
    (header ++ List.replicate 446 0x30).head? = some 0x41 ∧ 24 ≤ (header ++ List.replicate 446 0x30).length ∧
      ((header ++ List.replicate 446 0x30).length - 24) / 2 = 223 ∧
      ((header ++ List.replicate 448 0x30).length - 24) / 2 = 224 ∧
      (header ++ List.replicate 448 0x30).head? = some 0x41 ∧ State.reset.Spared 1 := by
  simp only [List.length_append, List.length_replicate, quiet_Spared (s := State.reset) rfl, and_true]
  decide

theorem witness_DecodeReads :
    example91.head? = some 0x41 ∧ 24 ≤ example91.length ∧ (example91.length - 24) / 2 ≤ 223 ∧ State.reset.pay.wf ∧
      State.reset.Spared 1 := ⟨by decide, by decide, by decide, by decide, quiet_Spared rfl 1⟩

theorem witness_Leftover :
    example91.head? = some 0x41 ∧ 24 ≤ example91.length ∧ example91.length % 2 = 0 ∧
      (example91.length - 24) / 2 ≤ 223 ∧ State.reset.Spared 1 :=
  ⟨by decide, by decide, by decide, by decide, quiet_Spared rfl 1⟩

/-- Two lines that differ in the timestamp and in a separator. -/
theorem witness_Timestamp :
    header ≠ (header.set 1 0x39).set 11 0x2D ∧ header.length = ((header.set 1 0x39).set 11 0x2D).length ∧
      ∀ i < 24, ¬(1 ≤ i ∧ i < 12) → i ≠ 17 → i ≠ 23 → charAt header i = charAt ((header.set 1 0x39).set 11 0x2D) i := by
  decide

theorem witness_Fallback : DigitsValid example91 := by
  have h : ∀ i < 42, 12 ≤ i → i ≠ 17 → i ≠ 23 → isHexDigit (charAt example91 i) = true := by decide
  exact fun i hi h1 h2 h3 _ => h i hi h1 h2 h3

theorem witness_WorkedExample : lively.Spared 1 := lively_Spared

/-- The capacity that just suffices. -/
theorem witness_EncodeWrites :
    25 + 2 * message170.plen ≤ (43 : Capacity).toNat ∧ message170.pgn.toNat ≤ 0xFFFFF ∧ State.reset.enc.wf ∧
      State.reset.Spared (encodeMoments message170.plen (43 : Capacity).toNat) ∧ lively.Spared 1 :=
  ⟨by decide, by decide, by decide, quiet_Spared rfl _, lively_Spared⟩

theorem witness_EncodeTruncates :
    25 ≤ (25 : Capacity).toNat ∧ (25 : Capacity).toNat < 25 + 2 * message170.plen ∧
      25 ≤ (42 : Capacity).toNat ∧ (42 : Capacity).toNat < 25 + 2 * message170.plen ∧
      (24 : Capacity).toNat < 25 ∧ (0 : Capacity).toNat < 25 ∧ 1 ≤ (1 : Capacity).toNat ∧ State.reset.enc.wf ∧
      ∀ n, State.reset.Spared n :=
  ⟨by decide, by decide, by decide, by decide, by decide, by decide, by decide, by decide, quiet_Spared rfl⟩

theorem witness_EncodeStays :
    State.reset.enc.wf ∧
      exec (.encode message170 42) State.reset = .next (after (exec (.encode message170 42) State.reset)) ∧
      ∃ code len text, (after (exec (.encode message170 42) State.reset)).trace =
        State.reset.trace ++ [.err .overflowOnEncode] ++ [.rsp (.encoded code len text)] :=
  ⟨by decide, rfl, .overflowOnEncode, 40, (after (exec (.encode message170 42) State.reset)).enc.readBytes 0 40,
    by decide +kernel⟩

/-- A transaction that declares 224 payload bytes. -/
theorem witness_EncodeTakes :
    [1, 0xF5, 0x13, 0x23, 0xFF, (0x0F : Byte)].length = 6 ∧
      (charAt [1, 0xF5, 0x13, 0x23, 0xFF, 0x0F] 5).toNat < 16 ∧ 223 < (0xE0 : Byte).toNat ∧
      ((commanded [7, 1, 0xF5, 0x13, 0x23, 0xFF, 0x0F, 0xE0, 0x55]).tick hw).busy = false ∧
      ((commanded [7, 1, 0xF5, 0x13, 0x23, 0xFF, 0x0F, 0xE0, 0x55]).tick hw).cmdq =
        (7 :: [1, 0xF5, 0x13, 0x23, 0xFF, 0x0F] ++ 0xE0 :: [0x55]) :: [] ∧
      State.reset.Spared (encodeMoments message170.plen (42 : Capacity).toNat) :=
  ⟨by decide, by decide, by decide, by decide, by decide, quiet_Spared rfl _⟩

theorem witness_ReadLine :
    (pumping example91).busy = true ∧ (pumping example91).NoReset ∧ (pumping example91).srcs.wf ∧
      (pumping example91).lb.wf := ⟨rfl, reset_NoReset, by decide, by decide⟩

/-- A block that can run a PUMP_ONCE: what the statements about the pump suppose. -/
theorem witness_Pump :
    (ready example91).pstate = .idle ∧ (ready example91).pstate ≠ .accumulating ∧ (ready example91).env = [] ∧
      (ready example91).NoReset ∧ (ready example91).HandlersReturn ∧ (ready example91).dispTx = none ∧
      (ready example91).hndSet = true ∧ (ready example91).srcs.wf ∧ (ready example91).lb.wf :=
  ⟨rfl, by decide, rfl, ready_NoReset _, ready_HandlersReturn _, rfl, rfl, by decide, by decide⟩

theorem witness_ThreeLines :
    (ready (header ++ [hw.term] ++ header ++ [hw.term] ++ header ++ [hw.term])).srcQueue =
        header ++ [hw.term] ++ header ++ [hw.term] ++ header ++ [hw.term] ∧
      hw.term ∉ header ∧ decodeLine hw (header.take 300) = .ok message0 := by decide

theorem witness_PumpBound :
    (pumping example91).busy = true ∧ (pumping example91).srcs.wf ∧ pumpBound (pumping example91) ≤ 43 := by decide

theorem witness_PumpReads :
    (ready [0x41]).env = [] ∧ (ready [0x41]).srcs.wf ∧
      exec .pumpOnce (ready [0x41]) = .next (after (exec .pumpOnce (ready [0x41]))) := ⟨rfl, by decide, rfl⟩

theorem witness_EmptyLine :
    (ready (hw.term :: example91)).pstate = .idle ∧ (ready (hw.term :: example91)).env = [] ∧
      (ready (hw.term :: example91)).srcs.wf ∧ (ready (hw.term :: example91)).srcQueue = hw.term :: example91 := by decide

/-- Two lines, then the empty line, then more. -/
theorem witness_EmptyLineSplits :
    let s := ready (lineBytes hw [header, [0x41]] ++ hw.term :: example91)
    s.pstate ≠ .detached ∧ s.env = [] ∧ s.HandlersReturn ∧ s.dispTx = none ∧ s.srcs.wf ∧ s.lb.wf ∧
      (∀ l ∈ [header, [0x41]], l ≠ [] ∧ hw.term ∉ l) ∧
      s.srcQueue = lineBytes hw [header, [0x41]] ++ hw.term :: example91 :=
  ⟨by decide, rfl, ready_HandlersReturn _, rfl, by decide, by decide, by decide, by decide⟩

/-- One line read whole, two bytes of the next one, then the reset; the producer and the host act meanwhile. -/
def struck : State :=
  { ready (lineBytes hw [[0x41]] ++ [0x42, 0x43] ++ [0x44]) with
    env := [[.feed 1 [0x45]], [.issue [0]], [], [], []] ++ [.reset] :: [[.feed 1 [0x46]]] }

theorem witness_ResetAborts :
    struck.pstate ≠ .detached ∧ struck.HandlersReturn ∧ struck.dispTx = none ∧ struck.srcs.wf ∧ struck.lb.wf ∧
      (∀ l ∈ [[(0x41 : Byte)]], l ≠ [] ∧ hw.term ∉ l) ∧ hw.term ∉ [(0x42 : Byte), 0x43] ∧
      struck.srcQueue = lineBytes hw [[0x41]] ++ [0x42, 0x43] ++ [0x44] ∧
      (∀ t ∈ ([[.feed 1 [0x45]], [.issue [0]], [], [], []] : List Tick), EnvEvent.reset ∉ t) ∧
      ([[.feed 1 [0x45]], [.issue [0]], [], [], []] : List Tick).length =
        (lineBytes hw [[0x41]] ++ [0x42, 0x43]).length + [[(0x41 : Byte)]].length ∧
      struck.env = [[.feed 1 [0x45]], [.issue [0]], [], [], []] ++ [.reset] :: [[.feed 1 [0x46]]] :=
  ⟨by decide +kernel, ready_HandlersReturn [], rfl, by decide +kernel, by decide +kernel, by decide +kernel,
    by decide +kernel, by decide +kernel, by decide +kernel, by decide +kernel, rfl⟩

/-- The same for a PUMP_ONCE that a step resumes. -/
def struckAgain : State :=
  { pumping [0x42, 0x43, 0x44] with env := [] :: ([[], [.feed 1 [0x45]]] ++ [.reset] :: [[.feed 1 [0x46]]]) }

theorem witness_ResetAbortsResumed :
    (struckAgain.tick hw).busy = true ∧ (struckAgain.tick hw).dispTx = none ∧ (struckAgain.tick hw).pstate ≠ .detached ∧
      (struckAgain.tick hw).srcs.wf ∧ hw.term ∉ [(0x42 : Byte), 0x43] ∧
      (struckAgain.tick hw).srcQueue = [0x42, 0x43] ++ [0x44] ∧
      (∀ t ∈ ([[], [.feed 1 [0x45]]] : List Tick), EnvEvent.reset ∉ t) ∧
      (struckAgain.tick hw).env = [[], [.feed 1 [0x45]]] ++ [.reset] :: [[.feed 1 [0x46]]] := by decide +kernel

/-- One line handled, and the reset after the last byte of the second, its terminator. -/
def struckLine : State :=
  { ready (lineBytes hw [[0x41]] ++ [0x42] ++ hw.term :: [0x44]) with
    env := [[.feed 1 [0x45]], [.issue [0]], [], [], []] ++ [.reset] :: [[.feed 1 [0x46]]] }

theorem witness_ResetBetween :
    struckLine.pstate ≠ .detached ∧ struckLine.HandlersReturn ∧ struckLine.dispTx = none ∧ struckLine.srcs.wf ∧
      struckLine.lb.wf ∧ (∀ l ∈ [[(0x41 : Byte)]], l ≠ [] ∧ hw.term ∉ l) ∧ hw.term ∉ [(0x42 : Byte)] ∧
      struckLine.srcQueue = lineBytes hw [[0x41]] ++ [0x42] ++ hw.term :: [0x44] ∧
      (∀ t ∈ ([[.feed 1 [0x45]], [.issue [0]], [], [], []] : List Tick), EnvEvent.reset ∉ t) ∧
      ([[.feed 1 [0x45]], [.issue [0]], [], [], []] : List Tick).length =
        (lineBytes hw [[0x41]] ++ [0x42]).length + [[(0x41 : Byte)]].length + 1 ∧
      struckLine.env = [[.feed 1 [0x45]], [.issue [0]], [], [], []] ++ [.reset] :: [[.feed 1 [0x46]]] :=
  ⟨by decide +kernel, ready_HandlersReturn [], rfl, by decide +kernel, by decide +kernel, by decide +kernel,
    by decide +kernel, by decide +kernel, by decide +kernel, by decide +kernel, rfl⟩

/-- The second line ends with the source, which is fed nothing meanwhile. -/
def struckEnd : State :=
  { ready (lineBytes hw [[0x41]] ++ [0x42]) with
    env := [[.feed 7 [0x45]], [.issue [0]], [], [], []] ++ [.reset] :: [[.feed 1 [0x46]]] }

theorem witness_ResetBetweenAtTheEnd :
    struckEnd.pstate ≠ .detached ∧ struckEnd.HandlersReturn ∧ struckEnd.dispTx = none ∧ struckEnd.srcs.wf ∧
      struckEnd.lb.wf ∧ struckEnd.srcQueue = lineBytes hw [[0x41]] ++ [0x42] ∧
      (∀ t ∈ ([[.feed 7 [0x45]], [.issue [0]], [], [], []] : List Tick), EnvEvent.reset ∉ t) ∧
      ([[.feed 7 [0x45]], [.issue [0]], [], [], []] : List Tick).length =
        (lineBytes hw [[0x41]] ++ [0x42]).length + [[(0x41 : Byte)]].length + 1 ∧
      fedBytes struckEnd.srcId [[.feed 7 [0x45]], [.issue [0]], [], [], []] = [] ∧
      struckEnd.env = [[.feed 7 [0x45]], [.issue [0]], [], [], []] ++ [.reset] :: [[.feed 1 [0x46]]] :=
  ⟨by decide +kernel, ready_HandlersReturn [], rfl, by decide +kernel, by decide +kernel, by decide +kernel,
    by decide +kernel, by decide +kernel, by decide +kernel, rfl⟩

/-- A resumed PUMP_ONCE. -/
def struckLineAgain : State :=
  { pumping [0x42, 0x0A, 0x44] with env := [] :: ([[], [.feed 1 [0x45]]] ++ [.reset] :: [[.feed 1 [0x46]]]) }

theorem witness_ResetBetweenResumed :
    (struckLineAgain.tick hw).busy = true ∧ (struckLineAgain.tick hw).dispTx = none ∧
      (struckLineAgain.tick hw).pstate ≠ .detached ∧ (struckLineAgain.tick hw).srcs.wf ∧ hw.term ∉ [(0x42 : Byte)] ∧
      (struckLineAgain.tick hw).srcQueue = [0x42] ++ hw.term :: [0x44] ∧
      (∀ t ∈ ([[], [.feed 1 [0x45]]] : List Tick), EnvEvent.reset ∉ t) ∧
      ([[], [.feed 1 [0x45]]] : List Tick).length = [(0x42 : Byte)].length + 1 ∧
      (struckLineAgain.tick hw).env = [[], [.feed 1 [0x45]]] ++ [.reset] :: [[.feed 1 [0x46]]] := by decide +kernel

theorem witness_ResetAbortsEveryCommand : (∀ text, Instr.pumpOnce ≠ .line text) ∧ (strikeAfter 0 (ready header)).Struck :=
  ⟨by simp, [.reset], [], rfl, by simp⟩

theorem strikeAfter_Struck (n : Nat) (s : State) : ((strikeAfter n s).ticks hw n).Struck := by
  induction n with
  | zero => exact ⟨[.reset], [], rfl, by simp⟩
  | succ n ih => exact ih

theorem strikeAfter_Spared (n : Nat) (s : State) : (strikeAfter n s).Spared n := by
  intro t ht
  simp [strikeAfter] at ht
  simp [ht]

/-- Before the first byte, inside the text, after the last byte, and between the ERR event and the RSP. -/
theorem witness_ResetCuts :
    (∀ n, (strikeAfter n State.reset).enc.wf ∧ (strikeAfter n State.reset).Spared n ∧
      ((strikeAfter n State.reset).ticks hw n).Struck) ∧
      0 < encodeMoments message170.plen (64 : Capacity).toNat ∧ 3 < encodeMoments message170.plen (64 : Capacity).toNat ∧
      storedBytes message170.plen (64 : Capacity).toNat = 43 ∧ 43 < encodeMoments message170.plen (64 : Capacity).toNat ∧
      storedBytes message170.plen (42 : Capacity).toNat = 41 ∧ 42 < encodeMoments message170.plen (42 : Capacity).toNat :=
  ⟨fun n => ⟨⟨List.Pairwise.nil, by simp [strikeAfter, State.reset]⟩, strikeAfter_Spared n _, strikeAfter_Struck n _⟩,
    by decide, by decide, by decide, by decide, by decide, by decide⟩

/-- Lines of 255 and of 256 pairs under the widest `MAX_PAYLOAD`, and a message of 255 bytes with room for its text. -/
theorem witness_Codec :
    widest.Valid ∧ (header ++ List.replicate 510 0x30).head? = some widest.marker ∧
      24 ≤ (header ++ List.replicate 510 0x30).length ∧
      ((header ++ List.replicate 510 0x30).length - 24) / 2 ≤ widest.maxPayload ∧
      widest.maxPayload < ((header ++ List.replicate 512 0x30).length - 24) / 2 ∧
      (∃ m : WireMessage widest.maxPayload, m.plen = 255 ∧ m.pgn.toNat ≤ 0xFFFFF ∧ 25 + 2 * m.plen ≤ 535) ∧
      State.reset.enc.wf := by
  simp only [List.length_append, List.length_replicate]
  refine ⟨by decide, by decide, by decide, by decide, by decide, ?_, by decide⟩
  refine ⟨WireMessage.mk 0 0 0 0 (List.replicate 255 0) (Nat.le_of_eq List.length_replicate), List.length_replicate,
    Nat.zero_le _, ?_⟩
  rw [WireMessage.plen, List.length_replicate]

theorem witness_Line :
    (ready []).pstate ≠ .detached ∧ header ≠ [] ∧ (ready []).holds.headD false = false ∧
      decodeLine hw (header.take 300) = .ok message0 ∧ (ready []).hndSet = true ∧
      ({ ready [] with hndSet := false } : State).hndSet = false ∧
      ({ ready [] with holds := [true] } : State).holds.headD false = true ∧
      decodeLine hw ([0x41].take 300) = .err .tooShort := by decide

theorem witness_RunningHandler :
    ({ ready (header ++ hw.term :: example91) with holds := [true] } : State).srcQueue = header ++ hw.term :: example91 ∧
      ({ ready (header ++ hw.term :: example91) with holds := [true] } : State).holds = true :: [] ∧
      ({ ready (header ++ hw.term :: example91) with holds := [true] } : State).srcs.wf ∧
      decodeLine hw (header.take 300) = .ok message0 := by decide

theorem witness_Waiting : (waiting.tick hw).busy = true ∧ (waiting.tick hw).dispTx.isSome = true := by decide

theorem witness_Busy :
    (pumping [0x41]).busy = true ∧ (pumping [0x41]).NoReset ∧ step (pumping [0x41]) = .next (after (step (pumping [0x41]))) :=
  ⟨rfl, reset_NoReset, rfl⟩

theorem witness_Resumed :
    ((pumping [0x41]).tick hw).busy = true ∧ ((pumping [0x41]).tick hw).dispTx = none ∧
      ((pumping [0x41]).tick hw).pstate ≠ .detached ∧ ((pumping [0x41]).tick hw).srcs.wf := by
  decide

theorem witness_StepCommand :
    (Instr.setHandler 7).wellFormed = true ∧ (∀ text, Instr.setHandler 7 ≠ .line text) ∧
      ((commanded [4, 7]).tick hw).busy = false ∧ ((commanded [4, 7]).tick hw).cmdq = encode (.setHandler 7) :: [] :=
  ⟨by decide, by simp, by decide, by decide⟩

theorem witness_StepLine :
    (Instr.line header).wellFormed = true ∧ (pumping (header ++ [0x0A, 0x42])).busy = true ∧
      (pumping (header ++ [0x0A, 0x42])).dispTx = none ∧ (pumping (header ++ [0x0A, 0x42])).pstate ≠ .detached ∧
      (pumping (header ++ [0x0A, 0x42])).env = [] ∧ (pumping (header ++ [0x0A, 0x42])).srcs.wf ∧
      (pumping (header ++ [0x0A, 0x42])).lb.wf ∧
      (pumping (header ++ [0x0A, 0x42])).srcQueue = encode (.line header) ++ [0x42] := by decide

/-- No well-formed command begins with the byte 8. -/
theorem witness_Idle : ((commanded [8]).tick hw).busy = false ∧ ((commanded [8]).tick hw).cmdq = [8] :: [] ∧
    (State.reset.tick hw).cmdq = [] ∧ ¬ IsCommand [8] := by
  refine ⟨by decide, by decide, by decide, ?_⟩
  rintro ⟨i, -, h, e⟩
  cases i with
  | line text => exact h text rfl
  | _ => simp [encode] at e

theorem witness_OnlyAttached :
    (pumping [0x41]).env = [] ∧ (pumping [0x41]).srcs.wf ∧ step (pumping [0x41]) = .next (after (step (pumping [0x41]))) ∧
      (0 : SrcId) ≠ (pumping [0x41]).srcId := ⟨rfl, by decide, rfl, by decide⟩

theorem witness_ResetEnds : ({ waiting with env := [[.reset]] } : State).env = [.reset] :: [] := rfl

/-- The invariant holds in a state with a handler running, not only after reset. -/
theorem witness_Inv : waiting.Inv ∧ step waiting = .next (after (step waiting)) :=
  ⟨by
    constructor <;> simp [waiting, pumping, ready, State.reset, Memory.wf, Queues.wf, SparseWf]
    decide, rfl⟩

theorem witness_Proper : (commanded (encode (.setHandler 7))).Proper :=
  ⟨fun bytes h => ⟨.setHandler 7, rfl, fun _ h => (by cases h), List.mem_singleton.1 h⟩,
    fun _ h => (List.not_mem_nil h).elim⟩

theorem witness_AtMostOne : step (pumping [0x41]) = .next (after (step (pumping [0x41]))) := rfl

/-- Another state that a reset may leave: it differs from `State.reset` in every register that is not to be read. -/
def dirty : State :=
  { State.reset with defsrc := 1, termSeen := true, pay := [(0, 1)], lb := [(3, 7)], srcId := 9, hndId := 8 }

theorem witness_Unspecified :
    State.reset.lb.wf ∧ dirty.lb.wf ∧ State.reset ≠ dirty ∧ State.reset.forgetUnread = dirty.forgetUnread := by decide

theorem witness_DecodeOfEncode : (Instr.encode message170 471).wellFormed = true ∧ (Instr.line header).wellFormed = true ∧
    (Instr.decode header).wellFormed = true := by decide

theorem witness_OneEncoding : decodeCommand [4, 7, 1] = .ok (.setHandler 7, [1]) := by decide

theorem witness_EveryCode : 8 ≤ (0x41 : Byte).toNat := by decide

end Sys2Proof.Tests
end

section
/-! The codec at every value of the parameters (`00_scope.md` section 5): what DECODE answers to a line with a whole header,
and that it reads back the text ENCODE writes. -/

namespace Sys2Proof.Machine

/-! ### DECODE of a line with a whole header -/

/-- With a whole header and more pairs than `MAX_PAYLOAD` only the last test is left, and it fails (R158, R160). -/
theorem decodeLine_of_too_many_pairs {c : Params} {line : Line} (hm : line.head? = some c.marker) (hl : 24 ≤ line.length)
    (hp : c.maxPayload < pairCount line.length) : decodeLine c line = .err .payloadTooLong := by
  cases line with
  | nil => cases hm
  | cons b bs =>
    obtain rfl : b = c.marker := Option.some.inj hm
    simp only [decodeLine, ne_eq, not_true_eq_false, if_false, if_neg (Nat.not_lt.2 hl), dif_neg (Nat.not_le.2 hp)]

theorem lineMessage_plen {c : Params} {line : Line} (h : pairCount line.length ≤ c.maxPayload) :
    (lineMessage c line h).plen = pairCount line.length := by
  simp only [WireMessage.plen, lineMessage, length_payloadPairs, List.length_drop, pairCount]

/-! ### The fields of a text that ENCODE writes -/

/-- A range of a line behind its first field is a range of the rest. -/
theorem slice_append_of_length_le {f s : List Byte} {a b : Nat} (h : f.length ≤ a) :
    slice (f ++ s) a b = slice s (a - f.length) (b - f.length) := by
  simp only [slice, List.drop_append, List.drop_eq_nil_of_le h, List.nil_append]
  congr 1
  omega

/-- The range that its first field fills. -/
theorem slice_append_of_length_eq {f s : List Byte} {b : Nat} (h : f.length = b) : slice (f ++ s) 0 b = f := by
  simp [slice, ← h]

/-- The digit fields of the header stand at the offsets at which DECODE reads them (R154, R182). -/
theorem slice_headerText {p : Nat} {c : Params} (hts : c.tsPlaceholder.length = 10) (m : WireMessage p) (tail : List Byte) :
    slice (headerText c m ++ tail) 12 14 = hexDigits 2 m.source.toNat ∧
      slice (headerText c m ++ tail) 14 16 = hexDigits 2 m.destination.toNat ∧
      slice (headerText c m ++ tail) 16 17 = hexDigits 1 m.priority.toNat ∧
      slice (headerText c m ++ tail) 18 23 = hexDigits 5 (m.pgn.setWidth 20).toNat := by
  simp (disch := simp [hts]) only [headerText, List.append_assoc, slice_append_of_length_le, slice_append_of_length_eq,
    List.length_singleton, length_hexDigits, hts, Nat.reduceSub, and_self]

/-- A word of `4k` bits is the value of its `k` digits, whatever the fallback (R101). -/
theorem ofNat_hexField_hexDigits (c : Params) (k : Nat) (v : BitVec (4 * k)) :
    BitVec.ofNat (4 * k) (hexField c (hexDigits k v.toNat)) = v := by
  have hv : v.toNat < 16 ^ k := by simpa only [Nat.pow_mul] using v.isLt
  rw [hexField_hexDigits, Nat.mod_eq_of_lt hv, BitVec.ofNat_toNat, BitVec.setWidth_eq]

/-- Reading back the pairs of payload bytes (R55, R101, R157). -/
theorem payloadPairs_payloadText (c : Params) (bs : List Byte) : payloadPairs c (payloadText bs) = bs := by
  induction bs with
  | nil => rfl
  | cons b bs ih =>
    calc payloadPairs c (payloadText (b :: bs))
        = BitVec.ofNat 8 (hexField c (hexDigits 2 b.toNat)) :: payloadPairs c (payloadText bs) := rfl
      _ = b :: bs := by rw [ofNat_hexField_hexDigits c 2 b, ih]

/-- DECODE reads the fields that the header and the payload text were made from; of `pgn` only the low 20 bits are in the
text (R21, R182). -/
theorem lineMessage_headerText {c : Params} (hts : c.tsPlaceholder.length = 10) (m : WireMessage c.maxPayload)
    (h : pairCount (headerText c m ++ payloadText m.payload).length ≤ c.maxPayload) :
    lineMessage c (headerText c m ++ payloadText m.payload) h = { m with pgn := (m.pgn.setWidth 20).setWidth 24 } := by
  obtain ⟨source, destination, priority, pgn⟩ := slice_headerText hts m (payloadText m.payload)
  have payload : (headerText c m ++ payloadText m.payload).drop 24 = payloadText m.payload :=
    List.drop_left' (length_headerText hts m)
  apply wireMessage_ext <;> simp only [lineMessage, source, destination, priority, pgn, payload]
  case pgn => rw [ofNat_hexField_hexDigits c 5 (m.pgn.setWidth 20)]
  case source => exact ofNat_hexField_hexDigits c 2 m.source
  case destination => exact ofNat_hexField_hexDigits c 2 m.destination
  case priority => exact ofNat_hexField_hexDigits c 1 m.priority
  case payload => exact payloadPairs_payloadText c m.payload

/-- DECODE of the text of a header and a payload (R196). -/
theorem decodeLine_headerText {c : Params} (hts : c.tsPlaceholder.length = 10) (m : WireMessage c.maxPayload) :
    decodeLine c (headerText c m ++ payloadText m.payload) = .ok { m with pgn := (m.pgn.setWidth 20).setWidth 24 } := by
  have hl : (headerText c m ++ payloadText m.payload).length = 24 + 2 * m.plen := by
    rw [List.length_append, length_headerText hts, length_payloadText]
  have hp : pairCount (headerText c m ++ payloadText m.payload).length ≤ c.maxPayload := by
    have hpairs : (24 + 2 * m.plen - 24) / 2 = m.plen := by omega
    rw [hl, pairCount, hpairs]
    exact m.payload_le
  exact decodeLine_eq_ok.2 ⟨rfl, by omega, hp, (lineMessage_headerText hts m hp).symm⟩

/-- A `pgn` that its five digits can hold is not cut (R21). -/
theorem pgn_setWidth_of_le {pgn : Pgn} (h : pgn.toNat ≤ 0xFFFFF) : (pgn.setWidth 20).setWidth 24 = pgn := by
  refine BitVec.eq_of_toNat_eq ?_
  simp only [BitVec.toNat_setWidth]
  omega

/-! ### The text that stands in ENC -/

/-- Reading back the first of the bytes written. -/
theorem Memory.readBytes_writeBytes_append {enc : Memory} (h : enc.wf) (a : Nat) (vs ws : List Byte) :
    (enc.writeBytes a (vs ++ ws)).readBytes a vs.length = vs := by
  rw [Memory.writeBytes_append, Memory.readBytes_congr (m' := enc.writeBytes a vs), Memory.readBytes_writeBytes h]
  intro i hi
  exact Memory.read_writeBytes_of_not_mem _ _ _ (.inl (by omega))

/-- With room for the whole line and the sentinel the text of ENCODE is the header and the whole payload (R182, R183). -/
theorem readBytes_encodeText {p : Nat} {c : Params} (hts : c.tsPlaceholder.length = 10) (m : WireMessage p) {capacity : Nat}
    (hcap : 25 + 2 * m.plen ≤ capacity) {enc : Memory} (hwf : enc.wf) :
    (enc.writeAll (encodeText c m capacity).writes).readBytes 0 (encodeText c m capacity).len =
      headerText c m ++ payloadText m.payload := by
  have hw : writtenBytes m.plen capacity = m.payload.length := Nat.min_eq_left (by omega)
  have hl : 24 + 2 * m.payload.length = (headerText c m ++ payloadText m.payload).length := by
    rw [List.length_append, length_headerText hts, length_payloadText]
  rw [encodeText_eq hts m (by omega)]
  simp only [hw, List.take_length, writeAll_placed]
  rw [hl, Memory.readBytes_writeBytes_append hwf]

/-! ### The statement -/

/-- R23: the bound is the only constraint on the payload of a Wire Message. -/
theorem exists_payload_eq_iff {p : Nat} (payload : List Byte) :
    (∃ m : WireMessage p, m.payload = payload) ↔ payload.length ≤ p :=
  ⟨fun ⟨m, hm⟩ => hm ▸ m.payload_le,
    fun h => ⟨{ pgn := 0, source := 0, destination := 0, priority := 0, payload, payload_le := h }, rfl⟩⟩

/-- R9: a payload length fits 8 bits. -/
theorem plen_lt {c : Params} (m : WireMessage c.maxPayload) : m.plen < 2 ^ 8 :=
  Nat.lt_succ_of_le (Nat.le_trans m.payload_le c.maxPayload_le)

/-- ENCODE with room for the line and then DECODE gives the message back (R196). -/
theorem decodeLine_encodeText {c : Params} (hts : c.tsPlaceholder.length = 10) (m : WireMessage c.maxPayload) {capacity : Nat}
    (hpgn : m.pgn.toNat ≤ 0xFFFFF) (hcap : 25 + 2 * m.plen ≤ capacity) {enc : Memory} (hwf : enc.wf) :
    decodeLine c ((enc.writeAll (encodeText c m capacity).writes).readBytes 0 (encodeText c m capacity).len) = .ok m := by
  rw [readBytes_encodeText hts m hcap hwf, decodeLine_headerText hts, pgn_setWidth_of_le hpgn]

/-- The parameters of this hardware are within their constraints. -/
theorem hw_valid : hw.Valid := by decide

/-- Settles O60: the bound of R158 is the last test of DECODE, and the text of ENCODE is the header and the payload digits,
which DECODE reads back field by field. -/
theorem codecHoldsForEveryParameter : Obligations.CodecHoldsForEveryParameter := by
  refine ⟨fun c ⟨_, _, hts⟩ => ⟨fun line hm hl => ⟨decodeLine_of_too_many_pairs hm hl, fun hfits => ?_⟩,
    exists_payload_eq_iff, fun m capacity enc => ⟨plen_lt m, fun hpgn hcap hwf => ?_⟩⟩, hw_valid, rfl, rfl, rfl, rfl, rfl⟩
  · exact ⟨lineMessage c line hfits, decodeLine_eq_ok.2 ⟨hm, hl, hfits, rfl⟩, lineMessage_plen hfits⟩
  · exact decodeLine_encodeText hts m hpgn hcap hwf

end Sys2Proof.Machine
end

section
/-! What the decoder of commands answers was read from that command's own bytes (R107, R108). -/

namespace Sys2Proof

/-! ### Results -/

theorem map_eq_ok {ε α β : Type} {f : α → β} {x : Except ε α} {b : β} (h : x.map f = .ok b) :
    ∃ a, x = .ok a ∧ f a = b := by
  cases x with
  | error e => cases h
  | ok a => exact ⟨a, rfl, Except.ok.inj h⟩

theorem bind_eq_ok {ε α β : Type} {f : α → Except ε β} {x : Except ε α} {b : β} (h : (x >>= f) = .ok b) :
    ∃ a, x = .ok a ∧ f a = .ok b := by
  cases x with
  | error e => cases h
  | ok a => exact ⟨a, rfl, h⟩

/-! ### Operands -/

/-- A number was read from its own bytes, whole as a word of `8 * n` bits. -/
theorem eq_natBytes_toNat_of_takeNat {n v : Nat} {bs rest : List Byte} (h : takeNat n bs = .ok (v, rest)) :
    bs = natBytes n (BitVec.ofNat (8 * n) v).toNat ++ rest := by
  obtain ⟨hv, rfl⟩ := takeNat_eq_ok.1 h
  have hpow : 2 ^ (8 * n) = 256 ^ n := by rw [Nat.pow_mul]
  rw [BitVec.toNat_ofNat, hpow, Nat.mod_eq_of_lt hv]

/-- A Wire Message was read from its own bytes (R108). -/
theorem eq_messageBytes_of_takeMessage {bs rest : List Byte} {m : Message} (h : takeMessage bs = .ok (m, rest)) :
    bs = messageBytes m ++ rest := by
  obtain ⟨⟨pgn, bs₁⟩, hpgn, h⟩ := bind_eq_ok h
  obtain ⟨⟨source, bs₂⟩, hsource, h⟩ := bind_eq_ok h
  obtain ⟨⟨destination, bs₃⟩, hdestination, h⟩ := bind_eq_ok h
  obtain ⟨⟨priority, bs₄⟩, hpriority, h⟩ := bind_eq_ok h
  obtain ⟨⟨plen, bs₅⟩, hplen, h⟩ := bind_eq_ok h
  obtain ⟨⟨payload, bs₆⟩, hpayload, h⟩ := bind_eq_ok h
  cases h
  obtain ⟨rfl, rfl⟩ := takePayload_eq_ok.1 hpayload
  obtain ⟨-, rfl⟩ := takeNat_eq_ok.1 hplen
  rw [eq_natBytes_toNat_of_takeNat hpgn, eq_natBytes_toNat_of_takeNat hsource,
    eq_natBytes_toNat_of_takeNat hdestination, takePriority_eq_ok.1 hpriority]
  simp only [messageBytes, WireMessage.plen, List.append_assoc, Nat.reduceMul]

/-! ### Commands -/

theorem decodeOperands_eq_ok {op : Nat} {bs rest : List Byte} {i : Instr} (h : decodeOperands op bs = .ok (i, rest)) :
    (∀ text, i ≠ .line text) ∧ BitVec.ofNat 8 op :: bs = encode i ++ rest := by
  unfold decodeOperands at h
  split at h
  case h_1 | h_3 | h_6 => cases h; exact ⟨by simp, rfl⟩
  case h_2 | h_4 | h_5 =>
    obtain ⟨⟨v, r⟩, hv, hi⟩ := map_eq_ok h
    cases hi
    exact ⟨by simp, congrArg _ (eq_natBytes_toNat_of_takeNat hv)⟩
  case h_7 =>
    obtain ⟨⟨len, r⟩, hlen, h⟩ := bind_eq_ok h
    obtain ⟨⟨line, r'⟩, hline, h⟩ := bind_eq_ok h
    cases h
    obtain ⟨rfl, rfl⟩ := takeBytes_eq_ok.1 hline
    obtain ⟨-, rfl⟩ := takeNat_eq_ok.1 hlen
    exact ⟨by simp, by simp [encode]⟩
  case h_8 =>
    obtain ⟨⟨m, r⟩, hm, h⟩ := bind_eq_ok h
    obtain ⟨⟨capacity, r'⟩, hcapacity, h⟩ := bind_eq_ok h
    cases h
    rw [eq_messageBytes_of_takeMessage hm, eq_natBytes_toNat_of_takeNat hcapacity]
    exact ⟨by simp, by simp [encode]⟩
  case h_9 => cases h

/-- Everything the decoder of commands can answer with an instruction: no line record (R109), and read from its encoding. -/
theorem decodeCommand_eq_ok {bytes rest : List Byte} {i : Instr} (h : decodeCommand bytes = .ok (i, rest)) :
    (∀ text, i ≠ .line text) ∧ bytes = encode i ++ rest := by
  cases bytes with
  | nil => cases h
  | cons b bs => simpa using decodeOperands_eq_ok h

end Sys2Proof
end

section
/-! The reset state and the invariant of the machine (R27, R33, R40, R50, R66, R226, R263). A running command does not keep
the invariant at each of its moments; three weaker predicates say what holds there. -/

namespace Sys2Proof.Machine

variable {s : State}

/-! ### The reset event and the reset state -/

/-- Settles O43. -/
theorem resetLeavesTheStatedValues : Obligations.ResetLeavesTheStatedValues :=
  ⟨fun s => ⟨s.resetEvent hw, rfl, rfl, rfl, rfl, rfl, rfl, rfl, rfl, rfl, rfl⟩, rfl, rfl, rfl, rfl, rfl, rfl⟩

theorem reset_inv : State.reset.Inv := by
  obtain ⟨lb_wf, pay_wf, enc_wf, srcs_wf⟩ := reset_wf
  exact {
    lb_wf, pay_wf, enc_wf, srcs_wf
    lb_space := fun _ hp => absurd hp List.not_mem_nil
    pay_space := fun _ hp => absurd hp List.not_mem_nil
    enc_space := fun _ hp => absurd hp List.not_mem_nil
    lbLen_le := Nat.zero_le _
    pstate_settled := nofun
    busy_idle := nofun
    disp_busy := nofun
    quiet_empty := fun _ => rfl
    trace_legal := fun _ he => absurd he List.not_mem_nil
    disp_legal := nofun }

theorem reset_proper : State.reset.Proper :=
  ⟨fun _ h => absurd h List.not_mem_nil, fun _ h => absurd h List.not_mem_nil⟩

/-- Settles O45. -/
theorem resetStateIsLegal : Obligations.ResetStateIsLegal := ⟨reset_inv, reset_proper⟩

/-! ### What holds at every moment -/

/-- The part of the invariant that every single action keeps: the memories, the queues and the trace. -/
structure State.Sound (s : State) : Prop where
  lb_wf : s.lb.wf
  pay_wf : s.pay.wf
  enc_wf : s.enc.wf
  srcs_wf : s.srcs.wf
  lb_space : ∀ p ∈ s.lb, p.1 < hw.lineCap
  pay_space : ∀ p ∈ s.pay, p.1 < hw.maxPayload
  enc_space : ∀ p ∈ s.enc, p.1 < 2 ^ 16 - 1
  lbLen_le : s.lbLen ≤ hw.lineCap
  trace_legal : ∀ e ∈ s.trace, e.Legal

/-- What holds inside a running command, in READ_LINE too: no handler is running, and a command that was aborted left what
a reset leaves (R300). -/
structure State.Running (s : State) : Prop extends State.Sound s where
  no_disp : s.dispTx = none
  aborted : s.busy = false → s.pstate = .detached ∧ s.lbLen = 0

/-- What holds inside a command that is not reading a line: no line is kept (R27, R226). -/
structure State.InCommand (s : State) : Prop extends State.Running s where
  pstate_settled : s.pstate ≠ .accumulating
  lbLen_zero : s.lbLen = 0

/-- What holds in a PUMP_ONCE outside READ_LINE: as long as it runs, a source is attached (R135, R210). -/
structure State.InPump (s : State) : Prop extends State.Running s where
  busy_idle : s.busy = true → s.pstate = .idle

theorem State.Inv.sound (h : s.Inv) : s.Sound := { h with }

theorem legal_append {trace : List Event} {e : Event} (h : ∀ e ∈ trace, e.Legal) (he : e.Legal) :
    ∀ e' ∈ trace ++ [e], e'.Legal := by
  simpa [or_imp, forall_and] using ⟨h, he⟩

/-! ### The events of the environment -/

theorem State.Sound.envEvent (h : s.Sound) (e : EnvEvent) : (s.envEvent hw e).Sound := by
  cases e with
  | feed i bytes => exact { h with srcs_wf := Queues.set_wf h.srcs_wf _ _ }
  | issue transaction => exact { h with }
  | handlerReturns => exact { h with }
  | reset =>
    exact { h with
      lb_wf := freeMemory_wf _ _
      pay_wf := freeMemory_wf _ _
      lb_space := fun _ hp => freeMemory_lt hp
      pay_space := fun _ hp => freeMemory_lt hp
      lbLen_le := Nat.zero_le _ }

theorem State.Running.envEvent (h : s.Running) (e : EnvEvent) : (s.envEvent hw e).Running := by
  refine { h.toSound.envEvent e with no_disp := ?_, aborted := ?_ }
  · cases e with
    | feed i bytes => exact h.no_disp
    | issue transaction => exact h.no_disp
    | handlerReturns => rfl
    | reset => rfl
  · cases e with
    | feed i bytes => exact h.aborted
    | issue transaction => exact h.aborted
    | handlerReturns => exact h.aborted
    | reset => exact fun _ => ⟨rfl, rfl⟩

theorem State.InCommand.envEvent (h : s.InCommand) (e : EnvEvent) : (s.envEvent hw e).InCommand := by
  refine { h.toRunning.envEvent e with pstate_settled := ?_, lbLen_zero := ?_ }
  · cases e with
    | reset => exact nofun
    | _ => exact h.pstate_settled
  · cases e with
    | reset => rfl
    | _ => exact h.lbLen_zero

theorem State.InPump.envEvent (h : s.InPump) (e : EnvEvent) : (s.envEvent hw e).InPump := by
  refine { h.toRunning.envEvent e with busy_idle := ?_ }
  cases e with
  | reset => exact nofun
  | _ => exact h.busy_idle

theorem State.Inv.envEvent (h : s.Inv) (e : EnvEvent) : (s.envEvent hw e).Inv := by
  cases e with
  | feed i bytes => exact { h with srcs_wf := Queues.set_wf h.srcs_wf _ _ }
  | issue transaction => exact { h with }
  | handlerReturns => exact { h with disp_busy := nofun, disp_legal := nofun }
  | reset =>
    exact { h.sound.envEvent .reset with
      pstate_settled := nofun
      busy_idle := nofun
      disp_busy := nofun
      quiet_empty := fun _ => rfl
      disp_legal := nofun }

theorem State.InCommand.tick (h : s.InCommand) : (s.tick hw).InCommand :=
  tick_keeps hw State.InCommand (fun _ _ h => { h with }) (fun e _ h => h.envEvent e) s h

theorem State.InPump.tick (h : s.InPump) : (s.tick hw).InPump :=
  tick_keeps hw State.InPump (fun _ _ h => { h with }) (fun e _ h => h.envEvent e) s h

theorem State.Inv.tick (h : s.Inv) : (s.tick hw).Inv :=
  tick_keeps hw State.Inv (fun _ _ h => { h with }) (fun e _ h => h.envEvent e) s h

/-! ### Into a command and out of it -/

/-- The acceptance of a command: no handler is running and no line is kept (R66, R226). -/
theorem State.Inv.inCommand_accept (h : s.Inv) (hb : s.busy = false) : s.accept.InCommand :=
  { h.sound with
    no_disp := Option.not_isSome_iff_eq_none.1 fun hd => Bool.noConfusion (hb.symm.trans (h.disp_busy hd).1)
    aborted := nofun
    pstate_settled := h.pstate_settled
    lbLen_zero := h.quiet_empty hb }

/-- A PUMP_ONCE whose handler has returned. -/
theorem State.Inv.inPump (h : s.Inv) (hb : s.busy = true) (hd : s.dispTx = none) : s.InPump :=
  { h.sound with
    no_disp := hd
    aborted := fun hf => Bool.noConfusion (hb.symm.trans hf)
    busy_idle := h.busy_idle }

/-- A command that goes on as the loop of PUMP_ONCE. -/
theorem State.InCommand.inPump (h : s.InCommand) (hp : s.pstate ≠ .detached) : s.InPump :=
  { h.toRunning with
    busy_idle := fun _ => by
      cases hs : s.pstate with
      | detached => exact absurd hs hp
      | idle => rfl
      | accumulating => exact absurd hs h.pstate_settled }

/-- A step may end between two lines of a PUMP_ONCE and after an abortion. -/
theorem State.InPump.inv (h : s.InPump) : s.Inv :=
  { h.toSound with
    pstate_settled := by
      cases hb : s.busy with
      | true => simp [h.busy_idle hb]
      | false => simp [(h.aborted hb).1]
    busy_idle := h.busy_idle
    disp_busy := by simp [h.no_disp]
    quiet_empty := fun hb => (h.aborted hb).2
    disp_legal := by simp [h.no_disp] }

theorem State.Running.inv_of_aborted (h : s.Running) (hb : s.busy = false) : s.Inv :=
  State.InPump.inv { h with busy_idle := fun ht => Bool.noConfusion (hb.symm.trans ht) }

/-- The completion of a command (R69): `hd`, `hp` and `hl` are what the invariant asks of an idle block. -/
theorem State.Sound.inv_respond (h : s.Sound) (hd : s.dispTx = none) (hp : s.pstate ≠ .accumulating) (hl : s.lbLen = 0)
    {r : Response} (hr : (Event.rsp r).Legal) : (s.respond r).Inv :=
  { h with
    pstate_settled := hp
    busy_idle := nofun
    disp_busy := by simp [hd]
    quiet_empty := fun _ => hl
    trace_legal := legal_append h.trace_legal hr
    disp_legal := by simp [hd] }

theorem State.InCommand.inv_respond (h : s.InCommand) {r : Response} (hr : (Event.rsp r).Legal) : (s.respond r).Inv :=
  h.toSound.inv_respond h.no_disp h.pstate_settled h.lbLen_zero hr

/-- A command with one action. -/
theorem State.InCommand.inv_act (h : s.InCommand) {f : State → State} (hf : ∀ s : State, s.InCommand → (f s).Inv) :
    (s.act hw f).Inv := by
  have hm := moment_keeps hw State.InCommand (fun _ h => h.tick) s h
  rcases act_cases hw f s with ⟨hb, he⟩ | ⟨-, he⟩
  · rw [he]; exact hm.toRunning.inv_of_aborted hb
  · rw [he]; exact hf _ hm

/-! ### DECODE and ENCODE -/

theorem legal_ok : (Event.rsp (.status .ok)).Legal := ⟨nofun, nofun⟩

/-- The codes of decode errors are among those that ERR and RSP carry (R260, R261). -/
theorem legal_decodeError (e : DecodeError) : (Event.err e.status).Legal ∧ (Event.rsp (.status e.status)).Legal := by
  cases e <;> simp [Event.Legal, DecodeError.status]

theorem State.Sound.stage (h : s.Sound) (m : Message) : (s.stage m).Sound :=
  { h with
    pay_wf := Memory.writeBytes_wf h.pay_wf _ _
    pay_space := fun p hp => by
      rcases Memory.mem_writeBytes hp with ⟨-, hlt⟩ | hp
      · have := m.payload_le; omega
      · exact h.pay_space p hp }

theorem decodeCommandResult_inv (line : Line) (h : s.InCommand) : (decodeCommandResult line s).Inv := by
  unfold decodeCommandResult
  split
  · next m hd => exact (h.toSound.stage m).inv_respond h.no_disp h.pstate_settled h.lbLen_zero (decodeLine_bounds hd)
  · next e _ => exact h.inv_respond (legal_decodeError e).2

/-- ENC has a place for everything ENCODE writes: at most 25 + 2 * 223 bytes (R181). -/
theorem storedBytes_lt (m : Message) (capacity : Nat) : storedBytes m.plen capacity < 2 ^ 16 - 1 := by
  have hp : m.plen ≤ 223 := m.payload_le
  unfold storedBytes writtenBytes
  split <;> omega

theorem encodeText_len_lt (m : Message) (capacity : Nat) : (encodeText hw m capacity).len < 2 ^ 16 := by
  have hp : m.plen ≤ 223 := m.payload_le
  by_cases hc : capacity < 25
  · simp [encodeText_of_lt hw m hc]
  · rw [encodeText_eq rfl m (by omega)]
    simp only [writtenBytes]
    omega

theorem State.InCommand.putEnc (h : s.InCommand) {m : Message} {capacity : Nat} {w : Nat × Byte}
    (hwrite : w ∈ (encodeText hw m capacity).writes) : (s.putEnc w.1 w.2).InCommand :=
  { h with
    enc_wf := Memory.write_wf h.enc_wf _ _
    enc_space := fun p hp => by
      rcases Memory.mem_write hp with hp | hp
      · obtain ⟨chars, hlen, hchars⟩ := encodeText_writes (c := hw) rfl m capacity
        obtain ⟨-, hlt, -⟩ := mem_placed (hchars ▸ hwrite)
        have := storedBytes_lt m capacity
        omega
      · exact h.enc_space p hp }

theorem encodeCommandResult_inv (m : Message) (capacity : Capacity) (h : s.InCommand) :
    (encodeCommandResult m capacity s).Inv :=
  encodeCommandResult_ends State.InCommand State.Inv m capacity
    (htick := fun _ h => h.tick)
    (hput := fun _ hwrite _ h => h.putEnc hwrite)
    (hreport := fun _ h => { h with trace_legal := legal_append h.trace_legal ⟨nofun, nofun⟩ })
    (habort := fun _ h hb => h.toRunning.inv_of_aborted hb)
    (hdone := fun code s h _ hcode => h.inv_respond ⟨hcode, by
      rw [BitVec.toNat_ofNat, Nat.mod_eq_of_lt (encodeText_len_lt m _), Memory.length_readBytes]⟩)
    s h

/-! ### READ_LINE -/

theorem State.Sound.srcTake (h : s.Sound) (b : Byte) (q : List Byte) : (s.srcTake b q).Sound :=
  { h with srcs_wf := Queues.set_wf h.srcs_wf _ _, trace_legal := legal_append h.trace_legal trivial }

theorem State.Sound.storeByte (h : s.Sound) (b : Byte) : (s.storeByte hw b).Sound := by
  unfold State.storeByte
  split
  · next hlt =>
    exact { h with
      lb_wf := Memory.write_wf h.lb_wf _ _
      lb_space := fun p hp => by
        rcases Memory.mem_write hp with hp | hp
        · exact hp ▸ hlt
        · exact h.lb_space p hp
      lbLen_le := hlt }
  · exact { h with }

/-- READ_LINE ends with `pstate` at IDLE (R135). -/
theorem State.Sound.inPump_endRead {t : State} (h : t.Sound) (hd : t.dispTx = none) (hb : t.busy = true) :
    t.endRead.InPump :=
  { h with no_disp := hd, aborted := fun hf => Bool.noConfusion (hb.symm.trans hf), busy_idle := fun _ => rfl }

theorem readLine_inPump (h : s.Running) (hb : s.busy = true) : (readLine hw s).InPump :=
  readLine_ends hw State.Running State.InPump
    (htick := fun t ts s h _ _ => envTick_keeps hw State.Running t (fun e _ _ h => h.envEvent e) _ { h with })
    (hbyte := fun b q s h hb _ _ =>
      { (h.toSound.srcTake b q).storeByte b with
        no_disp := by simpa using h.no_disp
        aborted := by simp [hb] })
    (hnone := fun s h hb _ =>
      State.Sound.inPump_endRead { h with trace_legal := legal_append h.trace_legal trivial } h.no_disp hb)
    (hterm := fun q s h hb _ => State.Sound.inPump_endRead { h.toSound.srcTake hw.term q with } h.no_disp hb)
    (habort := fun s h hb => { h with busy_idle := fun ht => Bool.noConfusion (hb.symm.trans ht) })
    (hsrcs := fun s h => h.srcs_wf)
    s hb { h with }

theorem takeLine_inPump (h : s.InPump) (hb : s.busy = true) : (takeLine hw s).InPump :=
  takeLine_keeps hw (fun s => s.InPump ∧ s.busy = true) State.InPump
    (fun _ ⟨h, hb⟩ => readLine_inPump
      { h with lbLen_le := Nat.zero_le _, aborted := fun hf => ⟨(h.aborted hf).1, rfl⟩ } hb)
    (fun _ h _ => h.tick) s ⟨h, hb⟩

/-! ### PUMP_ONCE and LINE -/

theorem handleLine_sound (line : Line) (h : s.Sound) : (handleLine line s).Sound :=
  handleLine_keeps State.Sound line (fun m _ _ h => h.stage m)
    (fun _ _ hd h _ => { h with trace_legal := legal_append h.trace_legal (decodeLine_bounds hd) })
    (fun e _ _ h => { h with trace_legal := legal_append h.trace_legal (legal_decodeError e).1 }) s h

/-- A DISP transaction that a line leaves in progress carries the registered handler's handle and a message DECODE
produced (R66, R215). -/
theorem handleLine_dispTx (line : Line) (s : State) :
    (handleLine line s).dispTx = s.dispTx ∨
      s.hndSet = true ∧ ∃ m, decodeLine hw line = .ok m ∧ (handleLine line s).dispTx = some (s.hndId, m) := by
  rcases handleLine_cases line s with ⟨m, hd, hh, he⟩ | ⟨m, -, -, he⟩ | ⟨e, -, he⟩
  · cases hheld : s.holds.headD false with
    | true => exact .inr ⟨hh, m, hd, by rw [he, State.dispatch_dispTx, State.stage_holds, hheld]; rfl⟩
    | false => exact .inl (by rw [he, State.dispatch_dispTx, State.stage_holds, hheld]; rfl)
  · exact .inl (by rw [he]; rfl)
  · exact .inl (by rw [he]; rfl)

theorem handleLine_inPump (line : Line) (h : s.InPump) (hb : s.busy = true) (hd : (handleLine line s).dispTx = none) :
    (handleLine line s).InPump :=
  { handleLine_sound line h.toSound with
    no_disp := hd
    aborted := fun hf => Bool.noConfusion ((handleLine_busy line hb).symm.trans hf)
    busy_idle := fun _ => (handleLine_pstate line s).trans (h.busy_idle hb) }

theorem handleLine_inv (line : Line) (h : s.InPump) (hb : s.busy = true) : (handleLine line s).Inv := by
  rcases handleLine_dispTx line s with hd | ⟨hh, m, hm, hd⟩
  · exact (handleLine_inPump line h hb (hd.trans h.no_disp)).inv
  · have hbusy := handleLine_busy line hb
    have hidle := (handleLine_pstate line s).trans (h.busy_idle hb)
    exact { handleLine_sound line h.toSound with
      pstate_settled := hidle ▸ nofun
      busy_idle := fun _ => hidle
      disp_busy := fun _ => ⟨hbusy, (handleLine_hndSet line s).trans hh⟩
      quiet_empty := fun hf => Bool.noConfusion (hbusy.symm.trans hf)
      disp_legal := fun id m' he => by
        obtain ⟨rfl, rfl⟩ := Prod.mk.inj (Option.some.inj (hd.symm.trans he))
        exact ⟨(handleLine_hndId line s).symm, decodeLine_bounds hm⟩ }

/-- The completion of a PUMP_ONCE that finds no line (R213, R221). -/
theorem State.InPump.inv_respond_ok (h : s.InPump) (hb : s.busy = true) (hl : s.lbLen = 0) :
    (s.respond (.status .ok)).Inv :=
  h.toSound.inv_respond h.no_disp (by simp [h.busy_idle hb]) hl legal_ok

theorem pumpLoop_inv (n : Nat) (h : s.InPump) (hb : s.busy = true) : (pumpLoop n s).Inv :=
  pumpLoop_ends State.InPump State.Inv
    (hbound := fun _ h _ => h.inv)
    (habort := fun _ h hb _ => (takeLine_inPump h hb).inv)
    (hdone := fun _ h hb hr hl => (takeLine_inPump h hb).inv_respond_ok hr hl)
    (hheld := fun _ _ h hb hr _ ht _ => ht ▸ handleLine_inv _ (takeLine_inPump h hb) hr)
    (hagain := fun _ _ h hb hr _ ht hd => by
      subst ht
      exact handleLine_inPump _ (takeLine_inPump h hb) hr (Option.isSome_eq_false_iff.1 hd |> Option.isNone_iff_eq_none.1))
    n s hb h

theorem pumpOnce_inv (h : s.InCommand) (hb : s.busy = true) : (pumpOnce s).Inv := by
  unfold pumpOnce
  split
  · exact h.inv_act fun _ h => h.inv_respond legal_ok
  · next hp => exact pumpLoop_inv _ (h.inPump hp) hb

/-! ### The step -/

/-- Every command keeps the invariant. -/
theorem exec_inv {i : Instr} {t : State} (hi : ∀ text, i ≠ .line text) (h : s.Inv) (hb : s.busy = false)
    (he : exec i s = .next t) : t.Inv := by
  have ha := h.inCommand_accept hb
  cases i with
  | nop => cases he; exact ha.inv_act fun _ h => h.inv_respond legal_ok
  | attachSource source =>
    cases he
    exact ha.inv_act fun s h => State.Sound.inv_respond (s := { s with srcId := source, pstate := .idle })
      { h with } h.no_disp nofun h.lbLen_zero legal_ok
  | detachSource =>
    cases he
    exact ha.inv_act fun s h => State.Sound.inv_respond (s := { s with pstate := .detached })
      { h with } h.no_disp nofun h.lbLen_zero legal_ok
  | setDefaultSourceAddress addr =>
    cases he
    exact ha.inv_act fun s h => State.InCommand.inv_respond (s := { s with defsrc := addr }) { h with } legal_ok
  | setHandler callback =>
    cases he
    exact ha.inv_act fun s h =>
      State.InCommand.inv_respond (s := { s with hndId := callback, hndSet := true }) { h with } legal_ok
  | pumpOnce => cases he; exact pumpOnce_inv ha rfl
  | decode line => cases he; exact ha.inv_act fun _ h => decodeCommandResult_inv line h
  | encode m capacity => cases he; exact encodeCommandResult_inv m capacity ha
  | line text => exact absurd rfl (hi text)

/-- The line record of a resumed PUMP_ONCE keeps the invariant. -/
theorem execLine_inv {text : Line} {t : State} (h : s.InPump) (hb : s.busy = true) (he : exec (.line text) s = .next t) :
    t.Inv := by
  change execLine text s = .next t at he
  unfold execLine at he
  split at he
  · cases he; exact h.inv
  · cases he; exact handleLine_inv _ h hb

/-- Settles O46: the tick keeps the invariant, and whatever runs after it leaves it where it stops. -/
theorem stepKeepsTheInvariant : Obligations.StepKeepsTheInvariant := by
  intro s t hs hstep
  have h := hs.tick
  rcases step_cases s with ⟨-, -, he⟩ | ⟨hb, -, hp, -⟩ | ⟨hb, hd, -, hline⟩ | ⟨-, -, he⟩ | ⟨hb, bytes, rest, -, hcmd⟩
  · cases he.symm.trans hstep; exact h
  · exact absurd (hp.symm.trans (h.busy_idle hb)) nofun
  · have ht := takeLine_inPump (h.inPump hb (by simpa using hd)) hb
    rcases hline with ⟨-, he⟩ | ⟨hr, hl, he⟩ | ⟨hr, -, he⟩
    · cases he.symm.trans hstep; exact ht.inv
    · cases he.symm.trans hstep; exact ht.inv_respond_ok hr hl
    · exact execLine_inv ht hr (he.symm.trans hstep)
  · cases he.symm.trans hstep; exact h
  · rcases hcmd with ⟨i, hi, he⟩ | ⟨-, e, he⟩
    · have hrest : ({ s.tick hw with cmdq := rest } : State).Inv := { h with }
      exact exec_inv (decodeCommand_eq_ok hi).1 hrest hb (he.symm.trans hstep)
    · cases he.symm.trans hstep

end Sys2Proof.Machine
end

section
/-! Two safety properties of the step (R27, R28): a detached block stays detached unless it runs ATTACH_SOURCE, and a busy
block takes nothing from CMD. -/

namespace Sys2Proof.Machine

variable {s t : State}

/-! ### Only ATTACH_SOURCE leaves DETACHED -/

/-- The environment never attaches a source. -/
theorem tick_detached (h : s.pstate = .detached) : (s.tick hw).pstate = .detached :=
  tick_keeps hw (·.pstate = .detached) (fun _ _ h => h) (fun e _ h => by
    cases e with
    | reset => rfl
    | _ => exact h) s h

/-- A command with one action that leaves `pstate` alone. -/
theorem act_detached {f : State → State} (h : s.pstate = .detached)
    (hf : ∀ s : State, s.pstate = .detached → (f s).pstate = .detached) : (s.act hw f).pstate = .detached :=
  act_keeps hw (·.pstate = .detached) f (fun _ h => tick_detached h) (fun s h _ => hf s h) s h

theorem decodeCommandResult_pstate (line : Line) (s : State) : (decodeCommandResult line s).pstate = s.pstate := by
  unfold decodeCommandResult
  split <;> rfl

/-- Every instruction but ATTACH_SOURCE leaves a detached block detached (R27). -/
theorem exec_detached {i : Instr} (hi : ∀ source, i ≠ .attachSource source) (h : s.pstate = .detached)
    (he : exec i s = .next t) : t.pstate = .detached := by
  have ha : s.accept.pstate = .detached := h
  cases i with
  | nop => cases he; exact act_detached ha fun _ h => h
  | attachSource source => exact absurd rfl (hi source)
  | detachSource => cases he; exact act_detached ha fun _ _ => rfl
  | setDefaultSourceAddress addr => cases he; exact act_detached ha fun _ h => h
  | setHandler callback => cases he; exact act_detached ha fun _ h => h
  | pumpOnce =>
    cases he
    rw [pumpOnce, if_pos ha]
    exact act_detached ha fun _ h => h
  | decode line => cases he; exact act_detached ha fun s h => (decodeCommandResult_pstate line s).trans h
  | encode m capacity =>
    cases he
    exact encodeCommandResult_ends (·.pstate = .detached) (·.pstate = .detached) m capacity (fun _ h => tick_detached h)
      (fun _ _ _ h => h) (fun _ h => h) (fun _ h _ => h) (fun _ _ h _ _ => h) _ ha
  | line text =>
    change execLine text s = .next t at he
    rw [execLine, if_pos (.inl h)] at he
    cases he
    exact h

/-- ATTACH_SOURCE that is not aborted attaches its operand (R240). -/
theorem exec_attachSource_of_not_detached {source : SrcId} (h : s.pstate = .detached)
    (he : exec (.attachSource source) s = .next t) (ht : t.pstate ≠ .detached) :
    t.srcId = source ∧ t.pstate = .idle := by
  cases he
  rcases act_cases hw (fun s => State.respond (.status .ok) { s with srcId := source, pstate := .idle }) s.accept with
    ⟨-, he⟩ | ⟨-, he⟩
  · have hm : (s.accept.moment hw).pstate = .detached :=
      moment_keeps hw (·.pstate = .detached) (fun _ h => tick_detached h) _ h
    exact absurd (he ▸ hm) ht
  · rw [he]
    exact ⟨rfl, rfl⟩

/-- Settles O7: of the ways a step can go, a detached block has only waiting, a completion and a command before it. -/
theorem onlyAttachLeavesDetached : Obligations.OnlyAttachLeavesDetached := by
  intro s t hs hstep ht
  have hu := tick_detached hs
  rcases step_cases s with ⟨-, -, he⟩ | ⟨-, -, -, he⟩ | ⟨-, -, hp, -⟩ | ⟨-, -, he⟩ | ⟨-, bytes, rest, hq, hcmd⟩
  · cases he.symm.trans hstep; exact absurd hu ht
  · cases he.symm.trans hstep; exact absurd hu ht
  · exact absurd hu hp
  · cases he.symm.trans hstep; exact absurd hu ht
  · rcases hcmd with ⟨i, hi, he⟩ | ⟨-, e, he⟩
    · have hrun := he.symm.trans hstep
      have hrest : ({ s.tick hw with cmdq := rest } : State).pstate = .detached := hu
      by_cases hattach : ∃ source, i = .attachSource source
      · obtain ⟨source, rfl⟩ := hattach
        have hbytes := (decodeCommand_eq_ok hi).2
        rw [List.append_nil] at hbytes
        exact ⟨source, rest, hbytes ▸ hq, exec_attachSource_of_not_detached hrest hrun ht⟩
      · exact absurd (exec_detached (fun source h => hattach ⟨source, h⟩) hrest hrun) ht
    · cases he.symm.trans hstep

/-! ### A busy block takes nothing from CMD -/

/-- No reset is scheduled, and CMD holds `q` and behind it what was placed since. -/
def State.KeepsCommands (q : List (List Byte)) (s : State) : Prop := s.NoReset ∧ ∃ later, s.cmdq = q ++ later

/-- A tick that is scheduled in such a state. -/
theorem State.KeepsCommands.envTick {q : List (List Byte)} (h : s.KeepsCommands q) {tick : Tick} {ticks : List Tick}
    (he : s.env = tick :: ticks) : ((s.setEnv ticks).envTick hw tick).KeepsCommands q := by
  obtain ⟨hreset, hq⟩ := h
  have htick : EnvEvent.reset ∉ tick := hreset tick (by simp [he])
  refine envTick_keeps hw (·.KeepsCommands q) tick (fun e hin s ⟨hr, later, hs⟩ => ?_) _
    ⟨fun t ht => hreset t (by simpa [he] using .inr ht), hq⟩
  cases e with
  | feed i bytes => exact ⟨hr, later, hs⟩
  | issue transaction => exact ⟨hr, later ++ [transaction], by simp [State.envEvent, State.issue, hs]⟩
  | handlerReturns => exact ⟨hr, later, hs⟩
  | reset => exact absurd hin htick

theorem State.KeepsCommands.tick {q : List (List Byte)} (h : s.KeepsCommands q) : (s.tick hw).KeepsCommands q := by
  cases he : s.env with
  | nil => rwa [tick_of_quiet hw he]
  | cons tick ticks => simpa only [State.tick, he] using h.envTick he

theorem takeLine_keepsCommands {q : List (List Byte)} (h : s.KeepsCommands q) : (takeLine hw s).KeepsCommands q :=
  takeLine_keeps_any hw (·.KeepsCommands q) (fun _ _ _ h he => h.envTick he) (fun _ _ _ h => h) (fun _ h => h)
    (fun b s h => by simpa [State.KeepsCommands, State.NoReset] using h) (fun _ h => h) (fun _ h => h) s h

theorem execLine_cmdq {text : Line} (he : exec (.line text) s = .next t) : t.cmdq = s.cmdq := by
  change execLine text s = .next t at he
  unfold execLine at he
  split at he
  · cases he; rfl
  · cases he; exact handleLine_cmdq _ _

/-- Settles O37: a busy block waits, completes its PUMP_ONCE, or takes a line. -/
theorem busyBlockAcceptsNoCommand : Obligations.BusyBlockAcceptsNoCommand := by
  intro s t hb hreset hstep
  have hbusy : (s.tick hw).busy = true :=
    (tick_busy_of_spared hw fun tick htick => hreset tick (List.mem_of_mem_take htick)).trans hb
  have hu : (s.tick hw).KeepsCommands s.cmdq := State.KeepsCommands.tick ⟨hreset, [], by simp⟩
  have hr := takeLine_keepsCommands hu
  rcases step_cases s with ⟨-, -, he⟩ | ⟨-, -, -, he⟩ | ⟨-, -, -, hline⟩ | ⟨hf, -⟩ | ⟨hf, -⟩
  · cases he.symm.trans hstep; exact hu.2
  · cases he.symm.trans hstep; exact hu.2
  · rcases hline with ⟨-, he⟩ | ⟨-, -, he⟩ | ⟨-, -, he⟩
    · cases he.symm.trans hstep; exact hr.2
    · cases he.symm.trans hstep; exact hr.2
    · rw [execLine_cmdq (he.symm.trans hstep)]; exact hr.2
  · exact absurd (hbusy.symm.trans hf) nofun
  · exact absurd (hbusy.symm.trans hf) nofun

end Sys2Proof.Machine
end

section
/-! Noninterference (R29, R30, R31, R33, R37, R38, R40): two runs whose states differ only in what is not to be read stay such
a pair. Outside a PUMP_ONCE the Line Buffers may differ altogether; inside, they agree below `lb_len`. -/

namespace Sys2Proof.Machine

variable {s s' : State}

/-! ### Pairs of states -/

/-- Two states that differ only in registers and bytes that are not to be read, their Line Buffers canonical. -/
structure State.Alike (s s' : State) : Prop where
  pstate : s.pstate = s'.pstate
  busy : s.busy = s'.busy
  srcId : s.pstate ≠ .detached → s.srcId = s'.srcId
  hndSet : s.hndSet = s'.hndSet
  hndId : s.hndSet = true → s.hndId = s'.hndId
  lbLen : s.lbLen = s'.lbLen
  enc : s.enc = s'.enc
  cmdq : s.cmdq = s'.cmdq
  dispTx : s.dispTx = s'.dispTx
  srcs : s.srcs = s'.srcs
  trace : s.trace = s'.trace
  env : s.env = s'.env
  holds : s.holds = s'.holds
  freeIdx : s.freeIdx = s'.freeIdx
  left_wf : s.lb.wf
  right_wf : s'.lb.wf

/-- The same inside a PUMP_ONCE: it runs only with a source attached (R210), and the bytes of its line agree (R136). -/
structure State.AlikeInPump (s s' : State) : Prop extends State.Alike s s' where
  attached : s.busy = true → s.pstate ≠ .detached
  line : ∀ i < s.lbLen, s.lb.read i = s'.lb.read i

theorem alike_of_forgetUnread (hs : s.lb.wf) (hs' : s'.lb.wf) (h : s.forgetUnread = s'.forgetUnread) : s.Alike s' := by
  simp only [State.forgetUnread, State.mk.injEq, true_and] at h
  obtain ⟨pstate, busy, srcId, hndSet, hndId, lbLen, enc, cmdq, dispTx, srcs, trace, env, holds, freeIdx⟩ := h
  exact {
    pstate, busy, hndSet, lbLen, enc, cmdq, dispTx, srcs, trace, env, holds, freeIdx
    srcId := fun hp => by simpa only [hp, pstate ▸ hp, if_false] using srcId
    hndId := fun hh => by simpa only [hh, hndSet ▸ hh, if_true] using hndId
    left_wf := hs
    right_wf := hs' }

theorem State.Alike.forgetUnread (h : s.Alike s') : s.forgetUnread = s'.forgetUnread := by
  have srcId : (if s.pstate = .detached then 0 else s.srcId) = if s'.pstate = .detached then 0 else s'.srcId := by
    rw [← h.pstate]
    split
    · rfl
    · next hp => exact h.srcId hp
  have hndId : (if s.hndSet then s.hndId else 0) = if s'.hndSet then s'.hndId else 0 := by
    rw [← h.hndSet]
    split
    · next hh => exact h.hndId hh
    · rfl
  simp only [State.forgetUnread, State.mk.injEq, true_and]
  exact ⟨h.pstate, h.busy, srcId, h.hndSet, hndId, h.lbLen, h.enc, h.cmdq, h.dispTx, h.srcs, h.trace, h.env, h.holds,
    h.freeIdx⟩

/-! ### The events of the environment -/

theorem State.Alike.envEvent (h : s.Alike s') (e : EnvEvent) : (s.envEvent hw e).Alike (s'.envEvent hw e) := by
  cases e with
  | feed i bytes => exact { h with srcs := by simp [State.envEvent, State.feed, h.srcs] }
  | issue transaction => exact { h with cmdq := by simp [State.envEvent, State.issue, h.cmdq] }
  | handlerReturns => exact { h with dispTx := rfl }
  | reset =>
    exact { h with
      pstate := rfl, busy := rfl, hndSet := rfl, lbLen := rfl, cmdq := rfl, dispTx := rfl
      srcId := nofun
      hndId := nofun
      freeIdx := by simp [State.envEvent, State.resetEvent, h.freeIdx]
      left_wf := freeMemory_wf _ _
      right_wf := freeMemory_wf _ _ }

theorem State.AlikeInPump.envEvent (h : s.AlikeInPump s') (e : EnvEvent) :
    (s.envEvent hw e).AlikeInPump (s'.envEvent hw e) := by
  cases e with
  | reset => exact { h.toAlike.envEvent .reset with attached := nofun, line := fun _ hi => absurd hi (Nat.not_lt_zero _) }
  | feed i bytes => exact { h.toAlike.envEvent (.feed i bytes) with attached := h.attached, line := h.line }
  | issue transaction => exact { h.toAlike.envEvent (.issue transaction) with attached := h.attached, line := h.line }
  | handlerReturns => exact { h.toAlike.envEvent .handlerReturns with attached := h.attached, line := h.line }

/-- A relation of states that every event keeps, the next tick keeps, if the two schedules are the same. -/
theorem tick_related (R : State → State → Prop) (henv : ∀ s s', R s s' → s.env = s'.env)
    (hset : ∀ ticks s s', R s s' → R (s.setEnv ticks) (s'.setEnv ticks))
    (hevent : ∀ e s s', R s s' → R (s.envEvent hw e) (s'.envEvent hw e)) (h : R s s') :
    R (s.tick hw) (s'.tick hw) := by
  have htick : ∀ (t : Tick) s s', R s s' → R (s.envTick hw t) (s'.envTick hw t) := by
    intro t
    induction t with
    | nil => exact fun _ _ h => h
    | cons e t ih => exact fun s s' h => ih _ _ (hevent e s s' h)
  cases he : s.env with
  | nil => rwa [tick_of_quiet hw he, tick_of_quiet hw ((henv s s' h).symm.trans he)]
  | cons t ts =>
    simp only [State.tick, he, (henv s s' h).symm.trans he]
    exact htick t _ _ (hset ts s s' h)

theorem State.Alike.tick (h : s.Alike s') : (s.tick hw).Alike (s'.tick hw) :=
  tick_related State.Alike (fun _ _ h => h.env) (fun _ _ _ h => { h with env := rfl }) (fun e _ _ h => h.envEvent e) h

theorem State.AlikeInPump.tick (h : s.AlikeInPump s') : (s.tick hw).AlikeInPump (s'.tick hw) :=
  tick_related State.AlikeInPump (fun _ _ h => h.env) (fun _ _ _ h => { h with env := rfl }) (fun e _ _ h => h.envEvent e) h

theorem State.Alike.moment (h : s.Alike s') : (s.moment hw).Alike (s'.moment hw) := by
  unfold State.moment
  rw [← h.busy]
  split
  · exact h.tick
  · exact h

theorem State.AlikeInPump.moment (h : s.AlikeInPump s') : (s.moment hw).AlikeInPump (s'.moment hw) := by
  unfold State.moment
  rw [← h.busy]
  split
  · exact h.tick
  · exact h

/-- One action of a command. -/
theorem State.Alike.act (h : s.Alike s') {f : State → State} (hf : ∀ s s' : State, s.Alike s' → (f s).Alike (f s')) :
    (s.act hw f).Alike (s'.act hw f) := by
  have hm := h.moment
  unfold State.act
  rw [← hm.busy]
  split
  · exact hf _ _ hm
  · exact hm

/-! ### Actions -/

theorem State.Alike.accept (h : s.Alike s') : s.accept.Alike s'.accept := { h with busy := rfl }

theorem State.Alike.respond (h : s.Alike s') (r : Response) : (s.respond r).Alike (s'.respond r) :=
  { h with busy := rfl, trace := by simp only [State.respond_trace, h.trace] }

theorem State.Alike.report (h : s.Alike s') (code : Status) : (s.report code).Alike (s'.report code) :=
  { h with trace := by simp only [State.report_trace, h.trace] }

theorem State.Alike.stage (h : s.Alike s') (m : Message) : (s.stage m).Alike (s'.stage m) := { h with }

/-- `hnd_id` is read only while a handler is registered (R30, R215). -/
theorem State.Alike.dispatch (h : s.Alike s') (m : Message) (hh : s.hndSet = true) :
    (s.dispatch m).Alike (s'.dispatch m) :=
  { h with
    busy := by simp only [State.dispatch_busy, h.busy, h.holds]
    dispTx := by simp only [State.dispatch_dispTx, h.hndId hh, h.holds, h.dispTx]
    trace := by simp only [State.dispatch_trace, h.trace, h.hndId hh]
    holds := congrArg List.tail h.holds }

theorem handleLine_alike (line : Line) (h : s.Alike s') : (handleLine line s).Alike (handleLine line s') := by
  unfold handleLine
  rw [← h.hndSet]
  split
  · next m _ =>
    split
    · next hh => exact (h.stage m).dispatch m hh
    · exact h.stage m
  · exact h.report _

theorem decodeCommandResult_alike (line : Line) (h : s.Alike s') :
    (decodeCommandResult line s).Alike (decodeCommandResult line s') := by
  unfold decodeCommandResult
  split
  · next m _ => exact (h.stage m).respond _
  · exact h.respond _

theorem storeText_alike (writes : List (Nat × Byte)) (h : s.Alike s') :
    (s.storeText hw writes).Alike (s'.storeText hw writes) := by
  induction writes generalizing s s' with
  | nil => exact h
  | cons w writes ih =>
    exact ih (h.act fun _ _ h => { h with enc := congrArg (·.write w.1 w.2) h.enc })

theorem reportOverflow_alike (ovf : Bool) (h : s.Alike s') :
    (s.reportOverflow hw ovf).Alike (s'.reportOverflow hw ovf) := by
  unfold State.reportOverflow
  split
  · exact h.act fun _ _ h => h.report _
  · exact h

theorem encodeCommandResult_alike (m : Message) (capacity : Capacity) (h : s.Alike s') :
    (encodeCommandResult m capacity s).Alike (encodeCommandResult m capacity s') := by
  have hreported := reportOverflow_alike (encodeText hw m capacity.toNat).ovf
    (storeText_alike (encodeText hw m capacity.toNat).writes h)
  exact hreported.act (f := fun s => s.respond (.encoded _ _ (s.enc.readBytes 0 _)))
    fun s s' h => by rw [h.enc]; exact h.respond _

/-! ### READ_LINE -/

/-- `src_id` is read only while a source is attached (R29, R210). -/
theorem State.AlikeInPump.srcId_eq (h : s.AlikeInPump s') (hb : s.busy = true) : s.srcId = s'.srcId :=
  h.srcId (h.attached hb)

theorem State.AlikeInPump.srcQueue_eq (h : s.AlikeInPump s') (hb : s.busy = true) : s.srcQueue = s'.srcQueue := by
  rw [State.srcQueue, State.srcQueue, h.srcs, h.srcId_eq hb]

theorem State.AlikeInPump.srcTake (h : s.AlikeInPump s') (hb : s.busy = true) (b : Byte) (q : List Byte) :
    (s.srcTake b q).AlikeInPump (s'.srcTake b q) :=
  { h with
    srcs := by simp only [State.srcTake_srcs, h.srcs, h.srcId_eq hb]
    trace := by simp only [State.srcTake_trace, h.trace, h.srcId_eq hb] }

theorem State.AlikeInPump.srcNone (h : s.AlikeInPump s') (hb : s.busy = true) : s.srcNone.AlikeInPump s'.srcNone :=
  { h with trace := by simp only [State.srcNone_trace, h.trace, h.srcId_eq hb] }

/-- READ_LINE ends with the source attached that it read (R135). -/
theorem State.AlikeInPump.endRead (h : s.AlikeInPump s') (hb : s.busy = true) : s.endRead.AlikeInPump s'.endRead :=
  { h with pstate := rfl, srcId := fun _ => h.srcId_eq hb, attached := nofun }

theorem State.AlikeInPump.seeTerm (h : s.AlikeInPump s') : s.seeTerm.AlikeInPump s'.seeTerm := { h with }

/-- The byte that is stored becomes part of the line in both Line Buffers (R134). -/
theorem State.AlikeInPump.storeByte (h : s.AlikeInPump s') (hb : s.busy = true) (b : Byte) :
    (s.storeByte hw b).AlikeInPump (s'.storeByte hw b) := by
  unfold State.storeByte
  rw [← h.lbLen]
  split
  · exact { h with
      pstate := rfl
      srcId := fun _ => h.srcId_eq hb
      lbLen := rfl
      left_wf := Memory.write_wf h.left_wf _ _
      right_wf := Memory.write_wf h.right_wf _ _
      attached := nofun
      line := fun i hi => by
        rcases Nat.lt_succ_iff_lt_or_eq.1 hi with hlt | rfl
        · rw [Memory.read_write_of_ne _ _ hlt.ne, Memory.read_write_of_ne _ _ hlt.ne]
          exact h.line i hlt
        · rw [Memory.read_write_self h.left_wf, Memory.read_write_self h.right_wf] }
  · exact { h with pstate := rfl, srcId := fun _ => h.srcId_eq hb, lbLen := rfl, attached := nofun }

theorem readQuiet_alike (q : List Byte) (h : s.AlikeInPump s') (hb : s.busy = true) :
    (readQuiet hw q s).AlikeInPump (readQuiet hw q s') := by
  induction q generalizing s s' with
  | nil => exact (h.srcNone hb).endRead hb
  | cons b q ih =>
    have htake := h.srcTake hb b q
    unfold readQuiet
    split
    · exact htake.seeTerm.endRead hb
    · exact ih (htake.storeByte hb b) (by simpa using hb)

theorem readTicks_alike (ticks : List Tick) (h : s.AlikeInPump s') (hb : s.busy = true) :
    (readTicks hw ticks s).AlikeInPump (readTicks hw ticks s') := by
  induction ticks generalizing s s' with
  | nil =>
    unfold readTicks
    rw [← h.srcQueue_eq hb]
    exact readQuiet_alike _ h hb
  | cons t ticks ih =>
    have ht : ((s.setEnv ticks).envTick hw t).AlikeInPump ((s'.setEnv ticks).envTick hw t) :=
      State.AlikeInPump.tick (s := s.setEnv (t :: ticks)) (s' := s'.setEnv (t :: ticks)) { h with env := rfl }
    unfold readTicks
    simp only [← ht.busy]
    split
    · next hbusy =>
      rw [← ht.srcQueue_eq hbusy]
      split
      · exact (ht.srcNone hbusy).endRead hbusy
      · next b q _ =>
        have htake := ht.srcTake hbusy b q
        split
        · exact htake.seeTerm.endRead hbusy
        · exact ih (htake.storeByte hbusy b) (by simpa using hbusy)
    · exact ht

/-- Taking a line begins with the reset of the Line Buffer, so nothing of what LB held is read (R33, R211). -/
theorem takeLine_alike (h : s.Alike s') (hp : s.pstate ≠ .detached) (hb : s.busy = true) :
    (takeLine hw s).AlikeInPump (takeLine hw s') := by
  have hstart : s.startLine.clearTerm.AlikeInPump s'.startLine.clearTerm :=
    { h with lbLen := rfl, attached := fun _ => hp, line := fun _ hi => absurd hi (Nat.not_lt_zero _) }
  have hread : (readLine hw s.startLine).AlikeInPump (readLine hw s'.startLine) := by
    unfold readLine
    rw [show s'.startLine.env = s.startLine.env from h.env.symm]
    exact readTicks_alike _ hstart hb
  exact hread.moment

theorem State.AlikeInPump.candidate_eq (h : s.AlikeInPump s') : s.candidate = s'.candidate := by
  rw [State.candidate, State.candidate, ← h.lbLen]
  exact Memory.readBytes_congr fun i hi => by simpa using h.line i hi

theorem State.AlikeInPump.lineAvail_eq (h : s.AlikeInPump s') : lineAvail s = lineAvail s' := by
  rw [lineAvail, lineAvail, h.lbLen]

/-! ### PUMP_ONCE -/

/-- The same end of an iteration, with states that are alike; a pump that goes on is running with a source attached. -/
inductive PumpStep.Alike : PumpStep → PumpStep → Prop
  | stop {t t' : State} (h : t.Alike t') : Alike (.stop t) (.stop t')
  | again {t t' : State} (h : t.Alike t') (hb : t.busy = true) (hp : t.pstate ≠ .detached) : Alike (.again t) (.again t')

theorem pumpIter_alike (h : s.Alike s') (hp : s.pstate ≠ .detached) (hb : s.busy = true) :
    (pumpIter s).Alike (pumpIter s') := by
  have ht := takeLine_alike h hp hb
  unfold pumpIter
  generalize takeLine hw s = r at ht
  generalize takeLine hw s' = r' at ht
  have hline := handleLine_alike r.candidate ht.toAlike
  simp only [← ht.busy, ← ht.lineAvail_eq, ← ht.candidate_eq, ← hline.dispTx]
  split
  · exact .stop ht.toAlike
  · next hbusy =>
    have hbusy : r.busy = true := by simpa using hbusy
    split
    · exact .stop (ht.toAlike.respond _)
    · split
      · exact .stop hline
      · exact .again hline (handleLine_busy _ hbusy) (handleLine_pstate _ r ▸ ht.attached hbusy)

theorem pumpLoop_alike (n : Nat) (h : s.Alike s') (hp : s.pstate ≠ .detached) (hb : s.busy = true) :
    (pumpLoop n s).Alike (pumpLoop n s') := by
  induction n generalizing s s' with
  | zero => exact h
  | succ n ih =>
    have hiter := pumpIter_alike h hp hb
    unfold pumpLoop
    generalize pumpIter s = p at hiter
    generalize pumpIter s' = p' at hiter
    cases hiter with
    | stop ht => exact ht
    | again ht hb hp => exact ih ht hp hb

theorem pumpOnce_alike (h : s.Alike s') (hb : s.busy = true) : (pumpOnce s).Alike (pumpOnce s') := by
  unfold pumpOnce
  rw [← h.pstate]
  split
  · exact h.act fun _ _ h => h.respond _
  · next hp =>
    have hbound : pumpBound s = pumpBound s' := by
      rw [pumpBound, pumpBound, State.srcQueue, State.srcQueue, h.srcs, h.srcId hp, h.env]
    rw [hbound]
    exact pumpLoop_alike _ h hp hb

/-! ### The step -/

/-- The same outcome, with next states that are alike. -/
inductive OutcomeAlike : Host.Outcome State Fault Refusal → Host.Outcome State Fault Refusal → Prop
  | next {t t' : State} (h : t.Alike t') : OutcomeAlike (.next t) (.next t')
  | refused (r : Refusal) : OutcomeAlike (.refused r) (.refused r)

theorem OutcomeAlike.view_eq {o o' : Host.Outcome State Fault Refusal} (h : OutcomeAlike o o') :
    Outcome.view State.forgetUnread o = Outcome.view State.forgetUnread o' := by
  cases h with
  | next h => exact congrArg Host.Outcome.next h.forgetUnread
  | refused r => rfl

theorem exec_alike (i : Instr) (h : s.Alike s') : OutcomeAlike (exec i s) (exec i s') := by
  have ha := h.accept
  cases i with
  | nop => exact .next (ha.act fun _ _ h => h.respond _)
  | attachSource source =>
    exact .next (ha.act fun s s' h => State.Alike.respond (s := { s with srcId := source, pstate := .idle })
      (s' := { s' with srcId := source, pstate := .idle }) { h with pstate := rfl, srcId := fun _ => rfl } _)
  | detachSource =>
    exact .next (ha.act fun s s' h => State.Alike.respond (s := { s with pstate := .detached })
      (s' := { s' with pstate := .detached }) { h with pstate := rfl, srcId := fun hp => absurd rfl hp } _)
  | setDefaultSourceAddress addr =>
    exact .next (ha.act fun s s' h => State.Alike.respond (s := { s with defsrc := addr })
      (s' := { s' with defsrc := addr }) { h with } _)
  | setHandler callback =>
    exact .next (ha.act fun s s' h => State.Alike.respond (s := { s with hndId := callback, hndSet := true })
      (s' := { s' with hndId := callback, hndSet := true }) { h with hndSet := rfl, hndId := fun _ => rfl } _)
  | pumpOnce => exact .next (pumpOnce_alike ha rfl)
  | decode line => exact .next (ha.act fun _ _ h => decodeCommandResult_alike line h)
  | encode m capacity => exact .next (encodeCommandResult_alike m capacity ha)
  | line text =>
    change OutcomeAlike (execLine text s) (execLine text s')
    unfold execLine
    rw [← h.pstate]
    split
    · exact .next h
    · exact .next (handleLine_alike _ h)

/-- The same thing to do, in states that are alike. -/
inductive Fetched.Alike : Fetched → Fetched → Prop
  | idle {t t' : State} (h : t.Alike t') : Alike (.idle t) (.idle t')
  | run (i : Instr) {t t' : State} (h : t.Alike t') : Alike (.run i t) (.run i t')
  | malformed (e : CommandError) : Alike (.malformed e) (.malformed e)

theorem fetchCommand_alike (h : s.Alike s') : (fetchCommand s).Alike (fetchCommand s') := by
  unfold fetchCommand
  rw [← h.cmdq]
  split
  · exact .idle h
  · split
    · exact .run _ { h with cmdq := rfl }
    · exact .malformed _
    · exact .malformed _

theorem fetchLine_alike (h : s.Alike s') (hb : s.busy = true) : (fetchLine hw s).Alike (fetchLine hw s') := by
  unfold fetchLine
  rw [← h.pstate]
  split
  · exact .idle (h.respond _)
  · next hp =>
    have ht := takeLine_alike h hp hb
    simp only [← ht.busy, ← ht.lineAvail_eq, ← ht.candidate_eq]
    split
    · exact .idle ht.toAlike
    · split
      · exact .idle (ht.toAlike.respond _)
      · exact .run _ ht.toAlike

theorem fetch_alike (h : s.Alike s') : (fetch hw s).Alike (fetch hw s') := by
  have ht := h.tick
  unfold fetch
  simp only [← ht.busy, ← ht.dispTx]
  split
  · next hb =>
    split
    · exact .idle ht
    · exact fetchLine_alike ht hb
  · exact fetchCommand_alike ht

theorem step_alike (h : s.Alike s') : OutcomeAlike (step s) (step s') := by
  have hf := fetch_alike h
  unfold step
  generalize fetch hw s = f at hf
  generalize fetch hw s' = f' at hf
  cases hf with
  | idle h => exact .next h
  | run i h => exact exec_alike i h
  | malformed e => exact .refused _

/-- Settles O49: what is not to be read is not read by the fetch and not by any instruction. -/
theorem unspecifiedRegistersAreNeverRead : Obligations.UnspecifiedRegistersAreNeverRead :=
  fun _ _ hs hs' h => (step_alike (alike_of_forgetUnread hs hs' h)).view_eq

end Sys2Proof.Machine
end

section
/-! A host that places encodings of commands (R69, R107): the decoder of commands reads each of them back, whatever stands
behind it, so that a step runs it. -/

namespace Sys2Proof

open Machine

/-- Reading back a one-byte operand. -/
theorem takeNat_byte_append (v : BitVec 8) (rest : List Byte) :
    takeNat 1 (natBytes 1 v.toNat ++ rest) = .ok (v.toNat, rest) :=
  takeNat_append v.isLt rest

/-- Reading back a two-byte operand. -/
theorem takeNat_capacity_append (v : Capacity) (rest : List Byte) :
    takeNat 2 (natBytes 2 v.toNat ++ rest) = .ok (v.toNat, rest) :=
  takeNat_append v.isLt rest

/-- The decoder of commands reads back every well-formed command and leaves the bytes behind it (R107, R108). -/
theorem decodeCommand_encode_append {i : Instr} (hwf : i.wellFormed = true) (hline : ∀ text, i ≠ .line text)
    (rest : List Byte) : decodeCommand (encode i ++ rest) = .ok (i, rest) := by
  cases i with
  | nop | detachSource | pumpOnce => rfl
  | attachSource operand | setDefaultSourceAddress operand | setHandler operand =>
    simp [encode, decodeCommand, decodeOperands, takeNat_byte_append, Except.map]
  | decode text =>
    have hlen : text.length < 256 ^ 2 := by simpa [Instr.wellFormed] using hwf
    simp [encode, decodeCommand, decodeOperands, takeNat_append hlen, takeBytes_append, bind, Except.bind]
  | encode m capacity =>
    simp [encode, decodeCommand, decodeOperands, takeMessage_append, takeNat_capacity_append, bind, Except.bind]
  | line text => exact absurd rfl (hline text)

/-- A transaction that is one well-formed command, and nothing behind it. -/
theorem decodeCommand_encode {i : Instr} (hwf : i.wellFormed = true) (hline : ∀ text, i ≠ .line text) :
    decodeCommand (encode i) = .ok (i, []) := by
  simpa using decodeCommand_encode_append hwf hline []

end Sys2Proof
end

section
/-! The step seen from the channels (R62, R69, R72): one rule for every property of states that depends only on the
schedule, on CMD and on the trace. -/

namespace Sys2Proof.Machine

variable {s t : State}

/-! ### Which step it is -/

/-- Settles O36. -/
theorem waitingBlockDoesNothing : Obligations.WaitingBlockDoesNothing := by
  intro s hb hd
  have hwait : step s = .next (s.tick hw) := by
    rcases step_cases s with ⟨-, -, he⟩ | ⟨-, hf, -⟩ | ⟨-, hf, -⟩ | ⟨hf, -⟩ | ⟨hf, -⟩
    · exact he
    · exact absurd (hd.symm.trans hf) nofun
    · exact absurd (hd.symm.trans hf) nofun
    · exact absurd (hb.symm.trans hf) nofun
    · exact absurd (hb.symm.trans hf) nofun
  exact ⟨hwait, tick_trace hw s, s.tick hw, hwait, tick_trace hw s⟩

/-- A block that runs no command goes on with the head of CMD. -/
theorem step_of_not_busy (h : (s.tick hw).busy = false) :
    (s.tick hw).cmdq = [] ∧ step s = .next (s.tick hw) ∨
      ∃ bytes rest, (s.tick hw).cmdq = bytes :: rest ∧
        ((∃ i, decodeCommand bytes = .ok (i, []) ∧ step s = exec i { s.tick hw with cmdq := rest }) ∨
         ((∀ i, decodeCommand bytes ≠ .ok (i, [])) ∧ ∃ e, step s = .refused (.malformedCommand e))) := by
  rcases step_cases s with ⟨hb, -⟩ | ⟨hb, -⟩ | ⟨hb, -⟩ | ⟨-, hidle⟩ | ⟨-, hcmd⟩
  · exact absurd (hb.symm.trans h) nofun
  · exact absurd (hb.symm.trans h) nofun
  · exact absurd (hb.symm.trans h) nofun
  · exact .inl hidle
  · exact .inr hcmd

/-- Settles O39: the decoder reads the command back from its encoding. -/
theorem stepRunsTheCommand : Obligations.StepRunsTheCommand := by
  intro s i rest hwf hline hb hq
  have hdecode := decodeCommand_encode hwf hline
  rcases step_of_not_busy hb with ⟨hnil, -⟩ | ⟨bytes, rest', hq', hcmd⟩
  · exact absurd (hq.symm.trans hnil) nofun
  · obtain ⟨rfl, rfl⟩ := List.cons.inj (hq.symm.trans hq')
    rcases hcmd with ⟨j, hj, he⟩ | ⟨hnone, -⟩
    · cases hdecode.symm.trans hj
      exact he
    · exact absurd hdecode (hnone i)

/-- Settles O44: after the reset no command runs and nothing waits on CMD. -/
theorem resetEndsAHungPump : Obligations.ResetEndsAHungPump := by
  intro s rest henv
  have htick : s.tick hw = (s.setEnv rest).resetEvent hw := by
    rw [State.tick, henv]
    rfl
  rcases step_of_not_busy (s := s) (by rw [htick]; rfl) with ⟨-, he⟩ | ⟨bytes, rest', hq, -⟩
  · rw [htick] at he
    exact ⟨_, he, rfl, rfl, rfl, rfl, rfl⟩
  · rw [htick] at hq
    cases hq

/-! ### Properties of the channels -/

/-- A property of states that depends only on the schedule, on CMD and on the trace, and that a moment of the environment
and every event but an RSP keep. -/
structure ChannelProperty (P : State → Prop) : Prop where
  congr : ∀ {s t : State}, P s → t.env = s.env → t.cmdq = s.cmdq → t.trace = s.trace → P t
  tick : ∀ {s : State}, P s → P (s.tick hw)
  event : ∀ {s : State} (e : Event), P s → (∀ r, e ≠ .rsp r) → P { s with trace := s.trace ++ [e] }

variable {P Q : State → Prop}

theorem ChannelProperty.srcTake (hP : ChannelProperty P) (b : Byte) (q : List Byte) (h : P s) : P (s.srcTake b q) :=
  hP.congr (hP.event (.srcRead s.srcId (some b)) h nofun) rfl rfl rfl

theorem ChannelProperty.handleLine (hP : ChannelProperty P) (line : Line) (h : P s) : P (handleLine line s) :=
  handleLine_keeps P line (fun _ _ _ h => hP.congr h rfl rfl rfl)
    (fun m s _ h _ => hP.congr (hP.event (.disp s.hndId m) h nofun) rfl rfl rfl)
    (fun e _ _ h => hP.event (.err e.status) h nofun) s h

theorem ChannelProperty.takeLine (hP : ChannelProperty P) (h : P s) : P (takeLine hw s) :=
  takeLine_keeps_any hw P (fun t ts s h he => by simpa only [State.tick, he] using hP.tick h)
    (fun b q _ h => hP.srcTake b q h)
    (fun s h => hP.event (.srcRead s.srcId none) h nofun)
    (fun b s h => hP.congr h (State.storeByte_env s hw b) (State.storeByte_cmdq s hw b) (State.storeByte_trace s hw b))
    (fun _ h => hP.congr h rfl rfl rfl) (fun _ h => hP.congr h rfl rfl rfl) s (hP.congr h rfl rfl rfl)

/-- One action of a command. -/
theorem ChannelProperty.act (hP : ChannelProperty P) (hQ : ∀ s, P s → Q s) {f : State → State}
    (hf : ∀ s, P s → Q (f s)) (h : P s) : Q (s.act hw f) := by
  have hm := moment_keeps hw P (fun _ h => hP.tick h) s h
  rcases act_cases hw f s with ⟨-, he⟩ | ⟨-, he⟩
  · rw [he]; exact hQ _ hm
  · rw [he]; exact hf _ hm

/-- One action that writes registers or memories and answers. -/
theorem ChannelProperty.answer (hP : ChannelProperty P) (hQ : ∀ s, P s → Q s) (hrespond : ∀ s r, P s → Q (s.respond r))
    {f : State → State} (hf : ∀ s, ∃ (u : State) (r : Response), f s = u.respond r ∧ u.env = s.env ∧ u.cmdq = s.cmdq ∧
      u.trace = s.trace) (h : P s) : Q (s.act hw f) :=
  hP.act hQ (fun s h => by
    obtain ⟨u, r, he, henv, hcmdq, htrace⟩ := hf s
    exact he ▸ hrespond u r (hP.congr h henv hcmdq htrace)) h

theorem ChannelProperty.pumpOnce (hP : ChannelProperty P) (hQ : ∀ s, P s → Q s) (hrespond : ∀ s r, P s → Q (s.respond r))
    (hb : s.busy = true) (h : P s) : Q (pumpOnce s) := by
  unfold Machine.pumpOnce
  split
  · exact hP.act hQ (fun s h => hrespond s _ h) h
  · exact pumpLoop_ends P Q
      (hbound := fun s h _ => hQ s h)
      (habort := fun _ h _ _ => hQ _ (hP.takeLine h))
      (hdone := fun _ h _ _ _ => hrespond _ _ (hP.takeLine h))
      (hheld := fun _ _ h _ _ _ ht _ => hQ _ (ht ▸ hP.handleLine _ (hP.takeLine h)))
      (hagain := fun _ _ h _ _ _ ht _ => ht ▸ hP.handleLine _ (hP.takeLine h))
      _ s hb h

/-- Every instruction takes such a property to what its completion makes of it (R69). -/
theorem ChannelProperty.exec (hP : ChannelProperty P) (hQ : ∀ s, P s → Q s) (hrespond : ∀ s r, P s → Q (s.respond r))
    {i : Instr} (h : P s) (he : exec i s = .next t) : Q t := by
  have ha : P s.accept := hP.congr h rfl rfl rfl
  cases i with
  | nop | attachSource | detachSource | setDefaultSourceAddress | setHandler =>
    cases he
    exact hP.answer hQ hrespond (fun _ => ⟨_, _, rfl, rfl, rfl, rfl⟩) ha
  | pumpOnce => cases he; exact hP.pumpOnce hQ hrespond rfl ha
  | decode line =>
    cases he
    refine hP.answer hQ hrespond (fun s => ?_) ha
    unfold decodeCommandResult
    split
    · exact ⟨_, _, rfl, rfl, rfl, rfl⟩
    · exact ⟨_, _, rfl, rfl, rfl, rfl⟩
  | encode m capacity =>
    cases he
    exact encodeCommandResult_ends P Q m capacity (fun _ h => hP.tick h) (fun _ _ _ h => hP.congr h rfl rfl rfl)
      (fun _ h => hP.event _ h nofun) (fun s h _ => hQ s h) (fun _ s h _ _ => hrespond s _ h) _ ha
  | line text =>
    change execLine text s = .next t at he
    unfold execLine at he
    split at he
    · cases he; exact hQ _ h
    · cases he; exact hQ _ (hP.handleLine _ h)

/-- Every step does, if taking a transaction off CMD keeps the property. -/
theorem ChannelProperty.step (hP : ChannelProperty P) (hQ : ∀ s, P s → Q s) (hrespond : ∀ s r, P s → Q (s.respond r))
    (haccept : ∀ (s : State) bytes rest, P s → s.cmdq = bytes :: rest → P { s with cmdq := rest })
    (h : P s) (hstep : step s = .next t) : Q t := by
  have hu := hP.tick h
  rcases step_cases s with ⟨-, -, he⟩ | ⟨-, -, -, he⟩ | ⟨-, -, -, hline⟩ | ⟨-, -, he⟩ | ⟨-, bytes, rest, hq, hcmd⟩
  · cases he.symm.trans hstep; exact hQ _ hu
  · cases he.symm.trans hstep; exact hrespond _ _ hu
  · have hr := hP.takeLine hu
    rcases hline with ⟨-, he⟩ | ⟨-, -, he⟩ | ⟨-, -, he⟩
    · cases he.symm.trans hstep; exact hQ _ hr
    · cases he.symm.trans hstep; exact hrespond _ _ hr
    · exact hP.exec hQ hrespond hr (he.symm.trans hstep)
  · cases he.symm.trans hstep; exact hQ _ hu
  · rcases hcmd with ⟨i, -, he⟩ | ⟨-, e, he⟩
    · exact hP.exec hQ hrespond (haccept _ _ _ hu hq) (he.symm.trans hstep)
    · cases he.symm.trans hstep

/-! ### A proper host -/

theorem State.Proper.envEvent (h : s.Proper) {e : EnvEvent} (he : e.Proper) : (s.envEvent hw e).Proper := by
  cases e with
  | feed i bytes => exact { h with }
  | issue transaction =>
    refine { h with cmdq_proper := fun bytes hin => ?_ }
    rcases List.mem_append.1 hin with hin | hin
    · exact h.cmdq_proper bytes hin
    · exact List.mem_singleton.1 hin ▸ he
  | handlerReturns => exact { h with }
  | reset => exact { h with cmdq_proper := nofun }

theorem State.Proper.tick (h : s.Proper) : (s.tick hw).Proper := by
  cases henv : s.env with
  | nil => rwa [tick_of_quiet hw henv]
  | cons now later =>
    have hnow : ∀ e ∈ now, e.Proper := h.env_proper now (by simp [henv])
    have hlater : (s.setEnv later).Proper :=
      { h with env_proper := fun tick hin => h.env_proper tick (by simpa [henv] using .inr hin) }
    simpa only [State.tick, henv] using
      envTick_keeps hw State.Proper now (fun e hin s hs => hs.envEvent (hnow e hin)) _ hlater

theorem channelProperty_proper : ChannelProperty State.Proper where
  congr h henv hcmdq _ := ⟨hcmdq ▸ h.cmdq_proper, henv ▸ h.env_proper⟩
  tick h := h.tick
  event _ h _ := { h with }

/-- A step of such a host stays proper (R69). -/
theorem State.Proper.step (h : s.Proper) (hstep : step s = .next t) : t.Proper :=
  channelProperty_proper.step (fun _ h => h) (fun _ _ h => { h with })
    (fun _ _ _ h hq => { h with cmdq_proper := fun bytes hin => h.cmdq_proper bytes (by simpa [hq] using .inr hin) }) h hstep

/-- No instruction ends in a fault or a refusal (R264). -/
theorem exec_eq_next (i : Instr) (s : State) : ∃ t, exec i s = .next t := by
  cases i with
  | line text =>
    change ∃ t, execLine text s = .next t
    unfold execLine
    split
    · exact ⟨_, rfl⟩
    · exact ⟨_, rfl⟩
  | _ => exact ⟨_, rfl⟩

/-- The only step without a next state is one that finds no command at the head of CMD (R107). -/
theorem step_eq_next (h : ∀ bytes ∈ (s.tick hw).cmdq, IsCommand bytes) : ∃ t, step s = .next t := by
  rcases step_cases s with ⟨-, -, he⟩ | ⟨-, -, -, he⟩ | ⟨-, -, -, hline⟩ | ⟨-, -, he⟩ | ⟨-, bytes, rest, hq, hcmd⟩
  · exact ⟨_, he⟩
  · exact ⟨_, he⟩
  · rcases hline with ⟨-, he⟩ | ⟨-, -, he⟩ | ⟨-, -, he⟩
    · exact ⟨_, he⟩
    · exact ⟨_, he⟩
    · rw [he]; exact exec_eq_next _ _
  · exact ⟨_, he⟩
  · obtain ⟨i, hwf, hline, rfl⟩ := h bytes (by simp [hq])
    rcases hcmd with ⟨j, -, he⟩ | ⟨hnone, -⟩
    · rw [he]; exact exec_eq_next _ _
    · exact absurd (decodeCommand_encode hwf hline) (hnone i)

/-- Settles O47: what waits on CMD after the tick is proper too, so the decoder reads a command; no command is without a
meaning. -/
theorem properHostIsNeverRefused : Obligations.ProperHostIsNeverRefused := by
  intro s hs
  obtain ⟨t, ht⟩ := step_eq_next hs.tick.cmdq_proper
  exact ⟨t, ht, hs.step ht⟩

/-! ### One answer per step -/

/-- The trace has grown from `trace`, without an RSP so far. -/
def State.Unanswered (trace : List Event) (s : State) : Prop :=
  ∃ events, s.trace = trace ++ events ∧ ∀ r, Event.rsp r ∉ events

/-- The trace has grown from `trace`, by at most one RSP, which is last. -/
def State.AnsweredOnce (trace : List Event) (s : State) : Prop :=
  ∃ events answer : List Event, s.trace = trace ++ events ++ answer ∧
    (∀ r, Event.rsp r ∉ events) ∧ (answer = [] ∨ ∃ r, answer = [.rsp r])

theorem channelProperty_unanswered (trace : List Event) : ChannelProperty (State.Unanswered trace) where
  congr := fun ⟨events, h, hr⟩ _ _ htrace => ⟨events, htrace.trans h, hr⟩
  tick := fun {s} ⟨events, h, hr⟩ => ⟨events, (tick_trace hw s).trans h, hr⟩
  event := fun e ⟨events, h, hr⟩ he => ⟨events ++ [e], by simp [h], fun r hin => by
    rcases List.mem_append.1 hin with hin | hin
    · exact hr r hin
    · exact he r (List.mem_singleton.1 hin).symm⟩

theorem State.Unanswered.answeredOnce {trace : List Event} (h : s.Unanswered trace) : s.AnsweredOnce trace := by
  obtain ⟨events, h, hr⟩ := h
  exact ⟨events, [], by simp [h], hr, .inl rfl⟩

theorem State.Unanswered.respond {trace : List Event} (h : s.Unanswered trace) (r : Response) :
    (s.respond r).AnsweredOnce trace := by
  obtain ⟨events, h, hr⟩ := h
  exact ⟨events, [.rsp r], by rw [State.respond_trace, h], hr, .inr ⟨r, rfl⟩⟩

/-- Settles O48: no part of a step but the completion of its command adds an RSP, and nothing comes after it. -/
theorem atMostOneAnswerPerStep : Obligations.AtMostOneAnswerPerStep := fun s _ hstep =>
  (channelProperty_unanswered s.trace).step (Q := State.AnsweredOnce s.trace) (fun _ h => h.answeredOnce)
    (fun _ r h => h.respond r) (fun _ _ _ h _ => h) ⟨[], by simp, fun _ => List.not_mem_nil⟩ hstep

end Sys2Proof.Machine
end

section
/-! The loop of PUMP_ONCE ends within its bound: "Every iteration of the loop either returns or consumes at least one byte
from the source" (R224). -/

namespace Sys2Proof.Machine

variable {s t : State}

/-- The bytes a running PUMP_ONCE can still get: those queued in its source and those scheduled. -/
def State.supply (s : State) : Nat := s.srcQueue.length + scheduledBytes s.env

theorem pumpBound_eq_supply (s : State) : pumpBound s = s.supply + 1 := rfl

/-! ### What the environment adds -/

theorem scheduledBytes_cons (tick : Tick) (ticks : List Tick) :
    scheduledBytes (tick :: ticks) = (tick.map EnvEvent.fed).sum + scheduledBytes ticks := by
  simp [scheduledBytes]

/-- A source gets no more than is fed to all of them. -/
theorem length_flatMap_fedTo_le (i : SrcId) (tick : Tick) :
    (tick.flatMap (EnvEvent.fedTo i)).length ≤ (tick.map EnvEvent.fed).sum := by
  induction tick with
  | nil => exact Nat.le_refl 0
  | cons e tick ih =>
    have he : (EnvEvent.fedTo i e).length ≤ e.fed := by
      cases e with
      | feed j bytes =>
        simp only [EnvEvent.fedTo, EnvEvent.fed]
        split
        · exact Nat.le_refl _
        · exact Nat.zero_le _
      | _ => exact Nat.le_refl 0
    rw [List.flatMap_cons, List.length_append, List.map_cons, List.sum_cons]
    exact Nat.add_le_add he ih

/-- The queues are canonical, and while the command runs, what it can still get and what it keeps of its line are together
no more than `n` bytes. -/
structure State.SupplyWithin (n : Nat) (s : State) : Prop where
  srcs_wf : s.srcs.wf
  supply_le : s.busy = true → s.supply + s.lbLen ≤ n

variable {n : Nat}

theorem envTick_srcs_wf (c : Params) (tick : Tick) (h : s.srcs.wf) : (s.envTick c tick).srcs.wf :=
  envTick_keeps c (·.srcs.wf) tick (fun e _ s hs => by
    cases e with
    | feed i bytes => exact Queues.set_wf hs i _
    | _ => exact hs) s h

/-- A moment only moves bytes from the schedule to the sources. -/
theorem State.SupplyWithin.envTick (h : s.SupplyWithin n) {tick : Tick} {ticks : List Tick} (henv : s.env = tick :: ticks) :
    ((s.setEnv ticks).envTick hw tick).SupplyWithin n := by
  refine ⟨envTick_srcs_wf hw tick h.srcs_wf, fun hb => ?_⟩
  by_cases hreset : EnvEvent.reset ∈ tick
  · exact absurd (hb.symm.trans (envTick_after_reset hw hreset _).2.1) nofun
  · obtain ⟨srcs, cmdq, dispTx, he, -, hget, -, -⟩ := envTick_of_no_reset hw hreset (s := s.setEnv ticks) h.srcs_wf
    rw [he] at hb ⊢
    have hle := h.supply_le hb
    have hfed := length_flatMap_fedTo_le s.srcId tick
    have hqueue := congrArg List.length (hget s.srcId)
    rw [List.length_append, State.setEnv_srcs] at hqueue
    simp only [State.supply, State.srcQueue, henv, scheduledBytes_cons] at hle
    simp only [State.supply, State.srcQueue, State.setEnv]
    omega

/-! ### What READ_LINE consumes -/

theorem storeByte_lbLen_le (c : Params) (b : Byte) (s : State) : (s.storeByte c b).lbLen ≤ s.lbLen + 1 := by
  unfold State.storeByte
  split
  · exact Nat.le_refl _
  · exact Nat.le_succ _

/-- A `SrcRead()` that answers a byte takes it from what is left. -/
theorem srcTake_supply {b : Byte} {q : List Byte} (hwf : s.srcs.wf) (hq : s.srcQueue = b :: q) :
    (s.srcTake b q).supply + 1 = s.supply := by
  have hrest : (s.srcTake b q).srcQueue = q := Queues.get_set_self hwf s.srcId q
  rw [State.supply, State.supply, hrest, hq, State.srcTake_env, List.length_cons]
  omega

theorem storeByte_supply (b : Byte) (s : State) : (s.storeByte hw b).supply = s.supply := by
  simp [State.supply, State.srcQueue]

theorem readLine_supplyWithin (h : s.SupplyWithin n) (hb : s.busy = true) : (readLine hw s).SupplyWithin n :=
  readLine_ends hw (State.SupplyWithin n) (State.SupplyWithin n)
    (htick := fun _ _ _ h _ he => h.envTick he)
    (hbyte := fun b q s h hb hq _ => by
      refine ⟨by simpa using Queues.set_wf h.srcs_wf s.srcId q, fun _ => ?_⟩
      have hle := h.supply_le hb
      have htake := srcTake_supply h.srcs_wf hq
      have hstore := storeByte_lbLen_le hw b (s.srcTake b q)
      rw [State.srcTake_lbLen] at hstore
      rw [storeByte_supply]
      omega)
    (hnone := fun _ h _ _ => ⟨h.srcs_wf, h.supply_le⟩)
    (hterm := fun q s h hb hq => by
      refine ⟨Queues.set_wf h.srcs_wf s.srcId q, fun _ => ?_⟩
      have hle := h.supply_le hb
      have htake := srcTake_supply h.srcs_wf hq
      change (s.srcTake hw.term q).supply + s.lbLen ≤ n
      omega)
    (habort := fun _ h _ => h)
    (hsrcs := fun _ h => h.srcs_wf)
    s hb ⟨h.srcs_wf, h.supply_le⟩

/-- Every byte of a line that a running PUMP_ONCE takes was among those it could get. -/
theorem takeLine_supplyWithin (hwf : s.srcs.wf) (hb : s.busy = true) : (takeLine hw s).SupplyWithin s.supply :=
  takeLine_keeps hw (· = s) (State.SupplyWithin s.supply)
    (fun _ hs => readLine_supplyWithin (s := _) ⟨hs ▸ hwf, fun _ => hs ▸ Nat.le_refl s.supply⟩ (hs ▸ hb))
    (fun u hu _ => by
      cases henv : u.env with
      | nil => rwa [tick_of_quiet hw henv]
      | cons tick ticks => simpa only [State.tick, henv] using hu.envTick henv) s rfl

theorem handleLine_supply (line : Line) (s : State) : (handleLine line s).supply = s.supply := by
  simp [State.supply, State.srcQueue]

/-! ### The loop -/

/-- The loop with an invariant, run often enough: `P` holds at its head while the command runs, and the loop has returned
with `Q` before its bound is reached (R224). -/
theorem pumpLoop_returns (P Q : State → Prop)
    (habort : ∀ s, P s → s.busy = true → (takeLine hw s).busy = false → Q (takeLine hw s))
    (hdone : ∀ s, P s → s.busy = true → (takeLine hw s).busy = true → (takeLine hw s).lbLen = 0 →
      Q ((takeLine hw s).respond (.status .ok)))
    (hheld : ∀ s t, P s → s.busy = true → (takeLine hw s).busy = true → (takeLine hw s).lbLen ≠ 0 →
      t = handleLine (takeLine hw s).candidate (takeLine hw s) → t.dispTx.isSome = true → Q t)
    (hagain : ∀ s t, P s → s.busy = true → (takeLine hw s).busy = true → (takeLine hw s).lbLen ≠ 0 →
      t = handleLine (takeLine hw s).candidate (takeLine hw s) → t.dispTx.isSome = false → P t)
    (n : Nat) (s : State) (hn : s.supply < n) (hwf : s.srcs.wf) (hb : s.busy = true) (h : P s) : Q (pumpLoop n s) := by
  induction n generalizing s with
  | zero => exact absurd hn (Nat.not_lt_zero _)
  | succ n ih =>
    have htake := takeLine_supplyWithin hwf hb
    rw [pumpLoop]
    rcases pumpIter_cases s with ⟨hr, he⟩ | ⟨hr, hl, he⟩ | ⟨hr, hl, t, ht, ⟨hd, he⟩ | ⟨hd, he⟩⟩
    · rw [he]; exact habort s h hb hr
    · rw [he]; exact hdone s h hb hr hl
    · rw [he]; exact hheld s t h hb hr hl ht hd
    · have hless : t.supply < n := by
        have hle := htake.supply_le hr
        rw [ht, handleLine_supply]
        omega
      rw [he]
      exact ih t hless (by rw [ht, handleLine_srcs]; exact htake.srcs_wf) (ht ▸ handleLine_busy _ hr)
        (hagain s t h hb hr hl ht hd)

end Sys2Proof.Machine
end

section
/-! Which instruction writes what (R74, R75, R140, R195, R249): every command but PUMP_ONCE is the environment's moments and
then its own writes; a PUMP_ONCE writes in all its parts no register of configuration. -/

namespace Sys2Proof.Machine

variable {s t u : State}

/-! ### What no moment and no part of a PUMP_ONCE changes -/

/-- No reset is scheduled in `u`, and `u` differs from the earlier state `s` neither in the registers of the configuration
commands nor in ENC; CMD keeps what waits there. -/
structure State.KeepsConfig (s u : State) : Prop where
  noReset : u.NoReset
  env : u.env <:+ s.env
  cmdq : s.cmdq <+: u.cmdq
  srcId : u.srcId = s.srcId
  hndSet : u.hndSet = s.hndSet
  hndId : u.hndId = s.hndId
  defsrc : u.defsrc = s.defsrc
  enc : u.enc = s.enc
  freeIdx : u.freeIdx = s.freeIdx

/-- The same, and `u` is `s` after moments of the environment alone. -/
structure State.Waited (s u : State) : Prop extends State.KeepsConfig s u where
  pstate : u.pstate = s.pstate
  lb : u.lb = s.lb
  lbLen : u.lbLen = s.lbLen
  termSeen : u.termSeen = s.termSeen
  pay : u.pay = s.pay
  holds : u.holds = s.holds
  dispTx : u.dispTx = s.dispTx ∨ u.dispTx = none

theorem State.KeepsConfig.refl (h : s.NoReset) : s.KeepsConfig s :=
  ⟨h, List.suffix_rfl, List.prefix_rfl, rfl, rfl, rfl, rfl, rfl, rfl⟩

theorem State.Waited.refl (h : s.NoReset) : s.Waited s :=
  { State.KeepsConfig.refl h with
    pstate := rfl, lb := rfl, lbLen := rfl, termSeen := rfl, pay := rfl, holds := rfl, dispTx := .inl rfl }

theorem State.KeepsConfig.setEnv (h : s.KeepsConfig u) {tick : Tick} {ticks : List Tick} (henv : u.env = tick :: ticks) :
    s.KeepsConfig (u.setEnv ticks) :=
  { h with
    noReset := fun t ht => h.noReset t (by simpa [henv] using .inr ht)
    env := (henv ▸ List.suffix_cons tick ticks).trans h.env }

theorem State.KeepsConfig.envEvent (h : s.KeepsConfig u) {e : EnvEvent} (he : e ≠ .reset) :
    s.KeepsConfig (u.envEvent hw e) := by
  cases e with
  | feed i bytes => exact { h with }
  | issue transaction => exact { h with cmdq := h.cmdq.trans (List.prefix_append _ _) }
  | handlerReturns => exact { h with }
  | reset => exact absurd rfl he

theorem State.Waited.envEvent (h : s.Waited u) {e : EnvEvent} (he : e ≠ .reset) : s.Waited (u.envEvent hw e) := by
  cases e with
  | feed i bytes => exact { h.toKeepsConfig.envEvent he, h with }
  | issue transaction => exact { h.toKeepsConfig.envEvent he, h with }
  | handlerReturns => exact { h.toKeepsConfig.envEvent he, h with dispTx := .inr rfl }
  | reset => exact absurd rfl he

theorem ne_reset_of_scheduled {tick : Tick} {ticks : List Tick} (h : u.NoReset) (henv : u.env = tick :: ticks)
    {e : EnvEvent} (he : e ∈ tick) : e ≠ .reset :=
  fun h' => h tick (by simp [henv]) (h' ▸ he)

theorem State.KeepsConfig.envTick (h : s.KeepsConfig u) {tick : Tick} {ticks : List Tick} (henv : u.env = tick :: ticks) :
    s.KeepsConfig ((u.setEnv ticks).envTick hw tick) :=
  envTick_keeps hw s.KeepsConfig tick (fun _ he _ h' => h'.envEvent (ne_reset_of_scheduled h.noReset henv he)) _
    (h.setEnv henv)

theorem State.Waited.tick (h : s.Waited u) : s.Waited (u.tick hw) := by
  cases henv : u.env with
  | nil => rwa [tick_of_quiet hw henv]
  | cons tick ticks =>
    simpa only [State.tick, henv] using
      envTick_keeps hw s.Waited tick (fun _ he _ h' => h'.envEvent (ne_reset_of_scheduled h.noReset henv he)) _
        { h.toKeepsConfig.setEnv henv, h with }

theorem State.Waited.ticks (h : s.Waited u) (n : Nat) : s.Waited (u.ticks hw n) := by
  induction n generalizing u with
  | zero => exact h
  | succ n ih => exact ih h.tick

theorem State.NoReset.spared (h : s.NoReset) (n : Nat) : s.Spared n := fun t ht => h t (List.mem_of_mem_take ht)

/-- A source that is not read gains what the moments feed it (R64). -/
theorem srcs_get_ticks {n : Nat} (hwf : s.srcs.wf) (h : s.Spared n) (j : SrcId) :
    (s.ticks hw n).srcs.get j = s.srcs.get j ++ fedBytes j (s.env.take n) := by
  induction n generalizing s with
  | zero => simp [State.ticks]
  | succ n ih =>
    obtain ⟨hnow, hlater⟩ := (spared_succ hw).1 h
    obtain ⟨srcs, cmdq, dispTx, he, hsrcs, hget, -⟩ := tick_of_spared hw hnow hwf
    have htick : (s.tick hw).srcs = srcs := by rw [he]
    rw [State.ticks, ih (htick ▸ hsrcs) hlater, htick, hget, tick_env, List.append_assoc, ← fedBytes_append, Nat.add_comm n,
      List.take_add]

/-! ### Commands without a loop -/

/-- `t` is `u` after the completion of the command `i`: `busy` is 0, and only what `i` writes has changed. -/
structure Completed (i : Instr) (u t : State) : Prop where
  busy : t.busy = false := by rfl
  env : t.env = u.env := by rfl
  cmdq : t.cmdq = u.cmdq := by rfl
  srcs : t.srcs = u.srcs := by rfl
  dispTx : t.dispTx = u.dispTx := by rfl
  holds : t.holds = u.holds := by rfl
  freeIdx : t.freeIdx = u.freeIdx := by rfl
  lb : t.lb = u.lb := by rfl
  lbLen : t.lbLen = u.lbLen := by rfl
  termSeen : t.termSeen = u.termSeen := by rfl
  srcId : (∀ source, i ≠ .attachSource source) → t.srcId = u.srcId := by exact fun _ => rfl
  defsrc : (∀ addr, i ≠ .setDefaultSourceAddress addr) → t.defsrc = u.defsrc := by exact fun _ => rfl
  handler : (∀ callback, i ≠ .setHandler callback) → t.hndSet = u.hndSet ∧ t.hndId = u.hndId := by exact fun _ => ⟨rfl, rfl⟩
  pstate : (∀ source, i ≠ .attachSource source) → i ≠ .detachSource → t.pstate = u.pstate := by exact fun _ _ => rfl
  enc : (∀ m capacity, i ≠ .encode m capacity) → t.enc = u.enc := by exact fun _ => rfl
  pay : (∀ line, i ≠ .decode line) → t.pay = u.pay := by exact fun _ => rfl

theorem decodeCommandResult_completed (line : Line) (u : State) :
    Completed (.decode line) u (decodeCommandResult line u.accept) := by
  unfold decodeCommandResult
  split
  · exact { pay := fun h => absurd rfl (h line) }
  · exact {}

/-- Without a source a PUMP_ONCE is a NOP (R210, R228). -/
theorem exec_pumpOnce_of_detached (h : s.pstate = .detached) : exec .pumpOnce s = exec .nop s := by
  change Host.Outcome.next (pumpOnce s.accept) = Host.Outcome.next _
  rw [pumpOnce, if_pos (State.accept_pstate s ▸ h)]

/-- Every command but a PUMP_ONCE on an attached source, while no reset is scheduled: some moments and its completion. -/
theorem exec_completed {i : Instr} (hpump : i = .pumpOnce → s.pstate = .detached) (hline : ∀ text, i ≠ .line text)
    (h : s.NoReset) (he : exec i s = .next t) : ∃ n, Completed i (s.ticks hw n) t := by
  have hact := fun f => accept_act_of_spared hw f (h.spared 1)
  cases i with
  | nop => cases he; rw [hact]; exact ⟨1, {}⟩
  | attachSource source =>
    cases he
    rw [hact]
    exact ⟨1, { srcId := fun hi => absurd rfl (hi source), pstate := fun hi => absurd rfl (hi source) }⟩
  | detachSource => cases he; rw [hact]; exact ⟨1, { pstate := fun _ hi => absurd rfl hi }⟩
  | setDefaultSourceAddress addr => cases he; rw [hact]; exact ⟨1, { defsrc := fun hi => absurd rfl (hi addr) }⟩
  | setHandler callback => cases he; rw [hact]; exact ⟨1, { handler := fun hi => absurd rfl (hi callback) }⟩
  | pumpOnce => rw [exec_pumpOnce_of_detached (hpump rfl)] at he; cases he; rw [hact]; exact ⟨1, {}⟩
  | decode line => cases he; rw [hact]; exact ⟨1, decodeCommandResult_completed line _⟩
  | encode m capacity =>
    cases he
    rw [encodeCommandResult_of_spared m capacity (h.spared _) rfl]
    exact ⟨_, { enc := fun hi => absurd rfl (hi m capacity) }⟩
  | line text => exact absurd rfl (hline text)

/-! ### PUMP_ONCE -/

/-- Taking a line of an attached source. -/
theorem takeLine_keepsConfig (h : s.KeepsConfig u) (hp : u.pstate ≠ .detached) :
    s.KeepsConfig (takeLine hw u) ∧ (takeLine hw u).pstate ≠ .detached :=
  takeLine_keeps_any hw (fun u => s.KeepsConfig u ∧ u.pstate ≠ .detached)
    (fun tick ticks u ⟨h, hp⟩ henv => ⟨h.envTick henv, by
      have hwait := (State.Waited.refl h.noReset).tick
      simp only [State.tick, henv] at hwait
      exact hwait.pstate ▸ hp⟩)
    (fun _ _ _ ⟨h, hp⟩ => ⟨{ h with }, hp⟩)
    (fun _ ⟨h, hp⟩ => ⟨{ h with }, hp⟩)
    (fun b u ⟨h, _⟩ => by
      unfold State.storeByte
      split
      · exact ⟨{ h with }, nofun⟩
      · exact ⟨{ h with }, nofun⟩)
    (fun _ ⟨h, hp⟩ => ⟨{ h with }, hp⟩)
    (fun _ ⟨h, _⟩ => ⟨{ h with }, nofun⟩)
    u ⟨{ h with }, hp⟩

theorem handleLine_keepsConfig (line : Line) (h : s.KeepsConfig u) : s.KeepsConfig (handleLine line u) :=
  handleLine_keeps s.KeepsConfig line (fun _ _ _ h => { h with }) (fun _ _ _ h _ => { h with })
    (fun _ _ _ h => { h with }) u h

/-- A PUMP_ONCE on an attached source writes no register of configuration and leaves the source attached (R74, R75). -/
theorem exec_pumpOnce_keepsConfig (h : s.NoReset) (hp : s.pstate ≠ .detached) (he : exec .pumpOnce s = .next t) :
    s.KeepsConfig t ∧ t.pstate ≠ .detached := by
  cases he
  rw [pumpOnce, if_neg (State.accept_pstate s ▸ hp)]
  exact pumpLoop_keeps (fun u => s.KeepsConfig u ∧ u.pstate ≠ .detached)
    (hread := fun _ ⟨h, hp⟩ => takeLine_keepsConfig h hp)
    (hdone := fun _ ⟨h, hp⟩ _ _ => ⟨{ h with }, hp⟩)
    (hline := fun u ⟨h, hp⟩ _ _ => ⟨handleLine_keepsConfig _ h, (handleLine_pstate _ u).symm ▸ hp⟩)
    _ _ ⟨{ State.KeepsConfig.refl h with }, hp⟩

/-- A DISP transaction that was in progress stays so while a line is taken, unless its handler returns or a reset strikes. -/
theorem takeLine_dispTx {tx : Option (HndId × Message)} (h : u.dispTx = tx ∨ u.dispTx = none) :
    (takeLine hw u).dispTx = tx ∨ (takeLine hw u).dispTx = none :=
  takeLine_keeps_any hw (fun u => u.dispTx = tx ∨ u.dispTx = none)
    (fun tick _ _ h _ => envTick_keeps hw (fun u => u.dispTx = tx ∨ u.dispTx = none) tick (fun e _ _ h => by
      cases e with
      | feed i bytes => exact h
      | issue transaction => exact h
      | handlerReturns => exact .inr rfl
      | reset => exact .inr rfl) _ h)
    (fun _ _ _ h => h) (fun _ h => h) (fun b u h => (State.storeByte_dispTx u hw b).symm ▸ h) (fun _ h => h)
    (fun _ h => h) u h

/-- How a PUMP_ONCE on an attached source ends: held up by a running handler, or no longer running (R28, R66). -/
theorem exec_pumpOnce_ends (hwf : s.srcs.wf) (hp : s.pstate ≠ .detached) (he : exec .pumpOnce s = .next t) :
    t.busy = true ∧ t.dispTx.isSome = true ∨ t.busy = false ∧ (t.dispTx = s.dispTx ∨ t.dispTx = none) := by
  cases he
  rw [pumpOnce, if_neg (State.accept_pstate s ▸ hp)]
  exact pumpLoop_returns (fun u => u.dispTx = s.dispTx ∨ u.dispTx = none)
    (fun t => t.busy = true ∧ t.dispTx.isSome = true ∨ t.busy = false ∧ (t.dispTx = s.dispTx ∨ t.dispTx = none))
    (habort := fun _ h _ hr => .inr ⟨hr, takeLine_dispTx h⟩)
    (hdone := fun _ h _ _ _ => .inr ⟨rfl, takeLine_dispTx h⟩)
    (hheld := fun _ _ _ _ hr _ ht hd => .inl ⟨ht ▸ handleLine_busy _ hr, hd⟩)
    (hagain := fun _ _ _ _ _ _ _ hd => .inr (by simpa using hd))
    _ s.accept (Nat.lt_succ_self _) hwf rfl (.inl rfl)

/-! ### LINE -/

/-- A line record leaves `busy` and the DISP transaction alone, or its handler is still running (R66, R215). -/
theorem handleLine_ends (line : Line) (s : State) :
    (handleLine line s).busy = s.busy ∧ (handleLine line s).dispTx = s.dispTx ∨
      (handleLine line s).busy = true ∧ (handleLine line s).dispTx.isSome = true := by
  rcases handleLine_cases line s with ⟨m, -, -, he⟩ | ⟨m, -, -, he⟩ | ⟨e, -, he⟩
  · cases hheld : s.holds.headD false with
    | true => exact .inr (by simp only [he, State.dispatch_busy, State.dispatch_dispTx, State.stage_holds, hheld,
        Bool.or_true, if_true, Option.isSome_some, and_self])
    | false => exact .inl (by simp only [he, State.dispatch_busy, State.dispatch_dispTx, State.stage_holds, hheld,
        Bool.or_false, Bool.false_eq_true, if_false, State.stage_busy, State.stage_dispTx, and_self])
  · exact .inl (by rw [he]; exact ⟨rfl, rfl⟩)
  · exact .inl (by rw [he]; exact ⟨rfl, rfl⟩)

theorem exec_line_cases {text : Line} (he : exec (.line text) s = .next t) : t = s ∨ ∃ line, t = handleLine line s := by
  change execLine text s = .next t at he
  unfold execLine at he
  split at he
  · cases he; exact .inl rfl
  · cases he; exact .inr ⟨_, rfl⟩

/-! ### The statement -/

/-- Settles O6: the environment's moments and a completion, the parts of a PUMP_ONCE, or the handling of a line. -/
theorem eachRegisterHasItsWriter : Obligations.EachRegisterHasItsWriter := by
  intro i s t hreset he
  by_cases hline : ∃ text, i = .line text
  · obtain ⟨text, rfl⟩ := hline
    rcases exec_line_cases he with rfl | ⟨line, rfl⟩
    · simp
    · simpa using handleLine_ends line s
  have noLine : ∀ text, i ≠ .line text := fun text h => hline ⟨text, h⟩
  by_cases hattached : i = .pumpOnce ∧ s.pstate ≠ .detached
  · obtain ⟨rfl, hp⟩ := hattached
    obtain ⟨⟨-, ⟨ticks, henv⟩, ⟨later, hcmdq⟩, srcId, hndSet, hndId, defsrc, enc, freeIdx⟩, hp'⟩ :=
      exec_pumpOnce_keepsConfig hreset hp he
    refine ⟨ticks, henv.symm, ⟨later, hcmdq.symm⟩, ?_⟩
    simpa [srcId, hndSet, hndId, defsrc, enc, freeIdx, hp, hp'] using fun hwf => exec_pumpOnce_ends (s := s) hwf hp he
  · have hdetached : i = .pumpOnce → s.pstate = .detached := fun h => by_contra fun hp => hattached ⟨h, hp⟩
    obtain ⟨n, c⟩ := exec_completed hdetached noLine hreset he
    have w := (State.Waited.refl hreset).ticks n
    have dispTx : t.dispTx = s.dispTx ∨ t.dispTx = none := c.dispTx.symm ▸ w.dispTx
    obtain ⟨later, hcmdq⟩ := w.cmdq
    exact ⟨s.env.take n, by rw [c.env, ticks_env, List.take_append_drop], ⟨later, by rw [c.cmdq, hcmdq]⟩,
      fun text h => absurd h (noLine text),
      fun _ hwf j => c.srcs.symm ▸ srcs_get_ticks hwf (hreset.spared n) j,
      fun h => (c.srcId h).trans w.srcId,
      fun h => (c.defsrc h).trans w.defsrc,
      fun h => ⟨(c.handler h).1.trans w.hndSet, (c.handler h).2.trans w.hndId⟩,
      fun h1 h2 => by rw [c.pstate h1 h2, w.pstate],
      fun _ => ⟨c.lb.trans w.lb, c.lbLen.trans w.lbLen, c.termSeen.trans w.termSeen⟩,
      fun h => (c.enc h).trans w.enc,
      fun h _ _ => (c.pay h).trans w.pay,
      fun _ _ => ⟨c.busy, dispTx, c.holds.trans w.holds⟩,
      fun text h => absurd h (noLine text),
      fun _ _ => .inr ⟨c.busy, dispTx⟩,
      c.freeIdx.trans w.freeIdx⟩

end Sys2Proof.Machine
end

section
/-! PUMP_ONCE while the environment is quiet: which bytes leave which source (R60, R63), and a handler that holds it up
(R66, R67). -/

namespace Sys2Proof.Machine

variable {s t : State}

/-! ### Taking a line -/

/-- What a running command takes from its source with nothing scheduled (R131 to R137, R211). -/
theorem takeLine_of_quiet (henv : s.env = []) (hsrcs : s.srcs.wf) :
    takeLine hw s =
      { s with
        pstate := .idle
        termSeen := decide (hw.term ∈ s.srcQueue)
        lb := s.lb.writeBytes 0 ((headLine hw s.srcQueue).take hw.lineCap)
        lbLen := min (headLine hw s.srcQueue).length hw.lineCap
        srcs := s.srcs.set s.srcId (afterLine hw s.srcQueue)
        trace := s.trace ++ readEvents hw s.srcId s.srcQueue } :=
  (takeLine_quiet hw henv hsrcs).trans (readLine_startLine_quiet hw s henv hsrcs)

theorem candidate_takeLine_of_quiet (henv : s.env = []) (hsrcs : s.srcs.wf) (hlb : s.lb.wf) :
    (takeLine hw s).candidate = (headLine hw s.srcQueue).take hw.lineCap := by
  rw [takeLine_quiet hw henv hsrcs, candidate_readLine_quiet hw s henv hsrcs hlb]

/-! ### A handler that does not return -/

/-- An iteration whose line decodes, with a handler that is still running when it ends (R66, log 5). -/
theorem pumpIter_of_held {m : Message} (hb : (takeLine hw s).busy = true) (hl : (takeLine hw s).lbLen ≠ 0)
    (hm : decodeLine hw (takeLine hw s).candidate = .ok m) (hh : (takeLine hw s).hndSet = true)
    (hheld : (takeLine hw s).holds.headD false = true) :
    pumpIter s = .stop (((takeLine hw s).stage m).dispatch m) := by
  have hline : handleLine (takeLine hw s).candidate (takeLine hw s) = ((takeLine hw s).stage m).dispatch m := by
    simp only [handleLine, hm, hh, if_true]
  have hdisp : (((takeLine hw s).stage m).dispatch m).dispTx.isSome = true := by
    simp only [State.dispatch_dispTx, State.stage_holds, hheld, if_true, Option.isSome_some]
  rcases pumpIter_cases s with ⟨hf, -⟩ | ⟨-, hf, -⟩ | ⟨-, -, t, rfl, ⟨-, he⟩ | ⟨hf, -⟩⟩
  · exact absurd (hb.symm.trans hf) nofun
  · exact absurd hf hl
  · rw [he, hline]
  · rw [hline] at hf
    exact absurd (hdisp.symm.trans hf) nofun

/-- A PUMP_ONCE that its first iteration ends. -/
theorem exec_pumpOnce_of_stop (hp : s.pstate ≠ .detached) (h : pumpIter s.accept = .stop t) :
    exec .pumpOnce s = .next t := by
  change Host.Outcome.next (pumpOnce s.accept) = _
  rw [pumpOnce, if_neg (State.accept_pstate s ▸ hp), pumpBound_eq_supply, pumpLoop, h]

/-- Settles O35: the first iteration takes the line and stops at its dispatch. -/
theorem runningHandlerHoldsThePump : Obligations.RunningHandlerHoldsThePump := by
  intro s l rest m hs hp henv hholds _ hhnd hsrcs hlb hl hterm hq hm
  have hhead : headLine hw s.accept.srcQueue = l := (congrArg _ hq).trans (headLine_append hw hterm rest)
  have hafter : afterLine hw s.accept.srcQueue = rest := (congrArg _ hq).trans (afterLine_append hw hterm rest)
  have htake := takeLine_of_quiet (s := s.accept) henv hsrcs
  have hcandidate : (takeLine hw s.accept).candidate = l.take 300 :=
    (candidate_takeLine_of_quiet (s := s.accept) henv hsrcs hlb).trans (by rw [hhead]; rfl)
  rw [hhead, hafter] at htake
  have hlen : min l.length hw.lineCap ≠ 0 := by
    have := List.length_pos_iff.2 hl
    have : hw.lineCap = 300 := rfl
    omega
  have hiter := pumpIter_of_held (s := s.accept) (m := m) (by rw [htake]; rfl) (by rw [htake]; exact hlen)
    (by rw [hcandidate]; exact hm) (by rw [htake]; exact hhnd) (by rw [htake]; simp [hholds])
  rw [htake] at hiter
  refine ⟨_, exec_pumpOnce_of_stop (by simp [hp]) hiter, rfl, ?_, ?_, ?_, ?_, ?_⟩
  · simp [hholds]
  · exact Queues.get_set_self hsrcs s.srcId rest
  · simp [State.rspLog, Event.rspEntry?]
  · simp [State.dispLog, Event.dispEntry?]
  · simp [hholds]

/-! ### Which bytes leave which source -/

/-- The queues `srcs'` are `srcs` after bytes were taken from the head of source `i` (R60, R63). -/
structure TakenFrom (i : SrcId) (srcs srcs' : Queues) : Prop where
  tail : ∃ taken, srcs.get i = taken ++ srcs'.get i
  others : ∀ j, j ≠ i → srcs'.get j = srcs.get j

theorem TakenFrom.refl (i : SrcId) (srcs : Queues) : TakenFrom i srcs srcs := ⟨⟨[], rfl⟩, fun _ _ => rfl⟩

/-- The environment is quiet, the queues are canonical, and since `srcs` bytes were taken from the attached source `i` only. -/
structure State.ReadsOnly (i : SrcId) (srcs : Queues) (s : State) : Prop where
  env : s.env = []
  srcs_wf : s.srcs.wf
  srcId : s.srcId = i
  taken : TakenFrom i srcs s.srcs

variable {i : SrcId} {srcs : Queues}

theorem takeLine_readsOnly (h : s.ReadsOnly i srcs) : (takeLine hw s).ReadsOnly i srcs := by
  obtain ⟨henv, hwf, rfl, ⟨taken, htail⟩, hothers⟩ := h
  rw [takeLine_of_quiet henv hwf]
  refine ⟨henv, Queues.set_wf hwf _ _, rfl, ⟨taken ++ s.srcQueue.take ((headLine hw s.srcQueue).length + 1), ?_⟩,
    fun j hj => (Queues.get_set_of_ne _ _ hj).trans (hothers j hj)⟩
  rw [htail, Queues.get_set_self hwf, afterLine, List.append_assoc, List.take_append_drop]
  rfl

theorem handleLine_readsOnly (line : Line) (h : s.ReadsOnly i srcs) : (handleLine line s).ReadsOnly i srcs :=
  handleLine_keeps (State.ReadsOnly i srcs) line (fun _ _ _ h => { h with }) (fun _ _ _ h _ => { h with })
    (fun _ _ _ h => { h with }) s h

theorem exec_pumpOnce_takenFrom (henv : s.env = []) (hwf : s.srcs.wf) (hp : s.pstate ≠ .detached)
    (he : exec .pumpOnce s = .next t) : TakenFrom s.srcId s.srcs t.srcs := by
  cases he
  rw [pumpOnce, if_neg (State.accept_pstate s ▸ hp)]
  exact (pumpLoop_keeps (State.ReadsOnly s.srcId s.srcs) (fun _ h => takeLine_readsOnly h) (fun _ h _ _ => { h with })
    (fun _ h _ _ => handleLine_readsOnly _ h) _ s.accept ⟨henv, hwf, rfl, .refl _ _⟩).taken

/-- No other instruction takes a byte from a source. -/
theorem exec_get_of_quiet {c : Instr} (henv : s.env = []) (hwf : s.srcs.wf) (hpump : c = .pumpOnce → s.pstate = .detached)
    (he : exec c s = .next t) (j : SrcId) : t.srcs.get j = s.srcs.get j := by
  have hreset : s.NoReset := fun tick htick => absurd (henv ▸ htick) List.not_mem_nil
  by_cases hline : ∃ text, c = .line text
  · obtain ⟨text, rfl⟩ := hline
    rcases exec_line_cases he with rfl | ⟨line, rfl⟩
    · rfl
    · rw [handleLine_srcs]
  · obtain ⟨n, completed⟩ := exec_completed hpump (fun text h => hline ⟨text, h⟩) hreset he
    rw [completed.srcs, ticks_of_quiet hw n henv]

/-- What an instruction does to the sources with nothing scheduled: nothing at all, or a PUMP_ONCE reads the attached one. -/
theorem exec_srcs_of_quiet {c : Instr} (henv : s.env = []) (hwf : s.srcs.wf) (he : exec c s = .next t) :
    (∀ j, t.srcs.get j = s.srcs.get j) ∨ s.pstate ≠ .detached ∧ TakenFrom s.srcId s.srcs t.srcs := by
  by_cases hpump : c = .pumpOnce ∧ s.pstate ≠ .detached
  · obtain ⟨rfl, hp⟩ := hpump
    exact .inr ⟨hp, exec_pumpOnce_takenFrom henv hwf hp he⟩
  · exact .inl (exec_get_of_quiet henv hwf (fun h => by_contra fun hp => hpump ⟨h, hp⟩) he)

/-- The same of a step. -/
theorem step_srcs_of_quiet (henv : s.env = []) (hwf : s.srcs.wf) (hstep : step s = .next t) :
    (∀ j, t.srcs.get j = s.srcs.get j) ∨ s.pstate ≠ .detached ∧ TakenFrom s.srcId s.srcs t.srcs := by
  have hcases := step_cases s
  rw [tick_of_quiet hw henv] at hcases
  rcases hcases with ⟨-, -, he⟩ | ⟨-, -, -, he⟩ | ⟨-, -, hp, hline⟩ | ⟨-, -, he⟩ | ⟨-, bytes, rest, -, hcmd⟩
  · cases he.symm.trans hstep; exact .inl fun _ => rfl
  · cases he.symm.trans hstep; exact .inl fun _ => rfl
  · have hread : (takeLine hw s).ReadsOnly s.srcId s.srcs := takeLine_readsOnly ⟨henv, hwf, rfl, .refl _ _⟩
    refine .inr ⟨hp, ?_⟩
    rcases hline with ⟨-, he⟩ | ⟨-, -, he⟩ | ⟨-, -, he⟩
    · cases he.symm.trans hstep; exact hread.taken
    · cases he.symm.trans hstep; exact hread.taken
    · rcases exec_line_cases (he.symm.trans hstep) with rfl | ⟨line, rfl⟩
      · exact hread.taken
      · exact (handleLine_readsOnly line hread).taken
  · cases he.symm.trans hstep; exact .inl fun _ => rfl
  · rcases hcmd with ⟨c, -, he⟩ | ⟨-, e, he⟩
    · exact exec_srcs_of_quiet (s := { s with cmdq := rest }) henv hwf (he.symm.trans hstep)
    · cases he.symm.trans hstep

/-- Settles O42. -/
theorem onlyTheAttachedSourceIsRead : Obligations.OnlyTheAttachedSourceIsRead := by
  intro s t i henv hwf hstep
  rcases step_srcs_of_quiet henv hwf hstep with hsame | ⟨hp, htail, hothers⟩
  · exact ⟨⟨[], (hsame i).symm⟩, fun _ => hsame i⟩
  · by_cases hi : i = s.srcId
    · subst hi
      exact ⟨htail, fun h => absurd h (not_or.2 ⟨fun hne => hne rfl, hp⟩)⟩
    · exact ⟨⟨[], (hothers i hi).symm⟩, fun _ => hothers i hi⟩

end Sys2Proof.Machine
end

section
/-! The instruction stream (R90, R107, R108) in both directions: an encoding is read back, and what is read as a command is
its encoding. -/

namespace Sys2Proof

open Machine

/-! ### Commands and line records -/

theorem decode_cons_of_ne_marker {b : Byte} (h : b ≠ hw.marker) (bs : List Byte) :
    decode (b :: bs) = decodeCommand (b :: bs) :=
  if_neg h

theorem decode_cons_marker (bs : List Byte) :
    decode (hw.marker :: bs) =
      .ok (.line (splitLine hw.term (hw.marker :: bs)).1, (splitLine hw.term (hw.marker :: bs)).2) := by
  rw [decode, if_pos rfl]

/-- No command begins with `MARKER`: its encoding is left to the decoder of commands. -/
theorem decode_encode_append_of_command {i : Instr} (hline : ∀ text, i ≠ .line text) (rest : List Byte) :
    decode (encode i ++ rest) = decodeCommand (encode i ++ rest) := by
  cases i with
  | nop | attachSource | detachSource | setDefaultSourceAddress | setHandler | pumpOnce | decode | encode =>
    exact decode_cons_of_ne_marker (by decide) _
  | line text => exact absurd rfl (hline text)

/-- A line record is well-formed when `MARKER` begins it and no terminator stands in it (R90, R137). -/
theorem wellFormed_line_iff {text : Line} :
    (Instr.line text).wellFormed = true ↔ text.head? = some hw.marker ∧ hw.term ∉ text := by
  simp only [Instr.wellFormed, Bool.and_eq_true, decide_eq_true_eq]

/-- Reading back a line record (R90). -/
theorem decode_encode_line_append {text : Line} (hwf : (Instr.line text).wellFormed = true) (rest : List Byte) :
    decode (encode (.line text) ++ rest) = .ok (.line text, rest) := by
  obtain ⟨hhead, hterm⟩ := wellFormed_line_iff.1 hwf
  obtain ⟨tail, rfl⟩ := List.head?_eq_some_iff.1 hhead
  have hsplit : splitLine hw.term (hw.marker :: (tail ++ hw.term :: rest)) = (hw.marker :: tail, rest) :=
    splitLine_append hterm rest
  rw [encode, List.append_assoc, List.singleton_append, List.cons_append, decode_cons_marker, hsplit]

/-- Settles O50: the first byte tells a line record from a command, and each of the two decoders reads its own encodings
back. -/
theorem decodeOfEncodeIsTheInstruction : Obligations.DecodeOfEncodeIsTheInstruction := by
  intro i rest hwf
  by_cases hline : ∃ text, i = .line text
  · obtain ⟨text, rfl⟩ := hline
    exact decode_encode_line_append hwf rest
  · have hcommand : ∀ text, i ≠ .line text := not_exists.1 hline
    rw [decode_encode_append_of_command hcommand, decodeCommand_encode_append hwf hcommand]

/-! ### One encoding -/

/-- The length of a DECODE that was read stood in 16 bits (R107). -/
theorem length_lt_of_decodeCommand {bytes rest : List Byte} {text : Line}
    (h : decodeCommand bytes = .ok (.decode text, rest)) : text.length < 2 ^ 16 := by
  obtain ⟨-, rfl⟩ := decodeCommand_eq_ok h
  obtain ⟨⟨len, bs⟩, hlen, h⟩ := bind_eq_ok h
  obtain ⟨⟨line, bs'⟩, hline, h⟩ := bind_eq_ok h
  cases h
  obtain ⟨hlt, -⟩ := takeNat_eq_ok.1 hlen
  obtain ⟨rfl, -⟩ := takeBytes_eq_ok.1 hline
  exact hlt

theorem wellFormed_of_decodeCommand {bytes rest : List Byte} {i : Instr} (h : decodeCommand bytes = .ok (i, rest)) :
    i.wellFormed = true := by
  cases i with
  | nop | attachSource | detachSource | setDefaultSourceAddress | setHandler | pumpOnce | encode => rfl
  | decode text => exact decide_eq_true (length_lt_of_decodeCommand h)
  | line text => exact absurd rfl ((decodeCommand_eq_ok h).1 text)

/-- Settles O51. -/
theorem commandsHaveOneEncoding : Obligations.CommandsHaveOneEncoding := by
  intro bytes rest i h
  obtain ⟨hline, hbytes⟩ := decodeCommand_eq_ok h
  exact ⟨hbytes, wellFormed_of_decodeCommand h, hline⟩

/-! ### The codes -/

/-- No code above 7 is assigned (R107). -/
theorem decodeOperands_of_le {op : Nat} (h : 8 ≤ op) (bs : List Byte) :
    decodeOperands op bs = .error (.notACommand (BitVec.ofNat 8 op)) := by
  obtain ⟨k, rfl⟩ := Nat.exists_eq_add_of_le' h
  rfl

/-- Settles O52: each code begins the encoding of its command. -/
theorem everyCodeIsACommand : Obligations.EveryCodeIsACommand := by
  refine ⟨⟨_, decodeCommand_encode (i := .nop) rfl ?_⟩, ⟨_, 0, decodeCommand_encode (i := .attachSource 0) rfl ?_⟩,
    ⟨_, decodeCommand_encode (i := .detachSource) rfl ?_⟩,
    ⟨_, 0, decodeCommand_encode (i := .setDefaultSourceAddress 0) rfl ?_⟩,
    ⟨_, 0, decodeCommand_encode (i := .setHandler 0) rfl ?_⟩, ⟨_, decodeCommand_encode (i := .pumpOnce) rfl ?_⟩,
    ⟨_, [], decodeCommand_encode (i := .decode []) rfl ?_⟩,
    ⟨_, WireMessage.mk 0 0 0 0 [], 0, decodeCommand_encode (i := .encode (WireMessage.mk 0 0 0 0 []) 0) rfl ?_⟩,
    fun b rest hb => ⟨_, decodeOperands_of_le hb rest⟩⟩
  all_goals exact fun _ => nofun

/-- Settles O53: the five words are closed, and the decoder evaluates on them. -/
theorem writtenWordsDecode : Obligations.WrittenWordsDecode :=
  ⟨by decide, by decide, by decide, by decide, by decide⟩

end Sys2Proof
end

section
/-! The hexadecimal digits (R97), and that DECODE does not consult `HexFallback` where digits stand (R98, R99). -/

namespace Sys2Proof.Machine

/-! ### Hexadecimal digits -/

theorem hexDigit?_of_decimal {ch : Byte} (h : 0x30 ≤ ch.toNat ∧ ch.toNat ≤ 0x39) :
    hexDigit? ch = some (ch.toNat - 0x30) :=
  if_pos h

theorem hexDigit?_of_upper {ch : Byte} (h : 0x41 ≤ ch.toNat ∧ ch.toNat ≤ 0x46) :
    hexDigit? ch = some (ch.toNat - 0x41 + 10) := by
  rw [hexDigit?, if_neg (by omega), if_pos h]

theorem hexDigit?_of_lower {ch : Byte} (h : 0x61 ≤ ch.toNat ∧ ch.toNat ≤ 0x66) :
    hexDigit? ch = some (ch.toNat - 0x61 + 10) := by
  rw [hexDigit?, if_neg (by omega), if_neg (by omega), if_pos h]

theorem hexDigit?_of_between {ch : Byte}
    (h : ch.toNat < 0x30 ∨ 0x39 < ch.toNat ∧ ch.toNat < 0x41 ∨ 0x46 < ch.toNat ∧ ch.toNat < 0x61 ∨ 0x66 < ch.toNat) :
    hexDigit? ch = none := by
  rw [hexDigit?, if_neg (by omega), if_neg (by omega), if_neg (by omega)]

/-- A field of one character that is no hex digit has `HexFallback`'s value (R98, R155). -/
theorem hexField_singleton_of_none (c : Params) {ch : Byte} (h : hexDigit? ch = none) :
    hexField c [ch] = c.hexFallback [ch] := by
  simp [hexField, isHexDigit, h]

/-- Settles O8. -/
theorem hexvalTable : Obligations.HexvalTable := fun _ =>
  ⟨hexDigit?_of_decimal, hexDigit?_of_upper, hexDigit?_of_lower,
    fun h => ⟨hexDigit?_of_between h, fun c => hexField_singleton_of_none c (hexDigit?_of_between h)⟩⟩

/-! ### The fallback of a hexadecimal field -/

/-- A field of hex digits does not consult `HexFallback` (R98, R99). -/
theorem hexField_fallback (c : Params) (f : List Byte → Nat) {cs : List Byte} (h : cs.all isHexDigit = true) :
    hexField c cs = hexField { c with hexFallback := f } cs := by
  rw [hexField_of_all c h, hexField_of_all _ h]

theorem charAt_drop (line : Line) (n i : Nat) : charAt (line.drop n) i = charAt line (n + i) := by
  simp [charAt, List.getD_eq_getElem?_getD]

theorem all_isHexDigit_slice {line : Line} {a n : Nat} (hlen : a + n ≤ line.length)
    (h : ∀ i < n, isHexDigit (charAt line (a + i)) = true) : (slice line a (a + n)).all isHexDigit = true := by
  rw [slice_eq_map hlen]
  simpa using h

/-- A payload section whose whole pairs are hex digits does not consult `HexFallback`, whatever the leftover character is
(R157, R159). -/
theorem payloadPairs_fallback (c : Params) (f : List Byte → Nat) : ∀ {cs : List Byte},
    (∀ i < 2 * (cs.length / 2), isHexDigit (charAt cs i) = true) →
      payloadPairs c cs = payloadPairs { c with hexFallback := f } cs
  | [], _ => rfl
  | [_], _ => rfl
  | hi :: lo :: rest, h => by
    have hlen : (hi :: lo :: rest).length / 2 = rest.length / 2 + 1 := by simp only [List.length_cons]; omega
    rw [hlen] at h
    have hpair : [hi, lo].all isHexDigit = true := by
      simpa [charAt] using And.intro (h 0 (by omega)) (h 1 (by omega))
    have hrest : ∀ i < 2 * (rest.length / 2), isHexDigit (charAt rest i) = true := fun i hlt =>
      h (i + 2) (by omega)
    rw [payloadPairs, payloadPairs, hexField_fallback c f hpair, payloadPairs_fallback c f hrest]

/-- The message of a line with a whole header whose hex positions hold hex digits is the same under every `HexFallback`. -/
theorem lineMessage_fallback {c : Params} (f : List Byte → Nat) {line : Line} (hvalid : DigitsValid line)
    (hlen : 24 ≤ line.length) (h : pairCount line.length ≤ c.maxPayload) :
    lineMessage c line h = lineMessage { c with hexFallback := f } line h := by
  have hfield : ∀ a n, 12 ≤ a → a + n ≤ 23 → (a + n ≤ 17 ∨ 18 ≤ a) →
      hexField c (slice line a (a + n)) = hexField { c with hexFallback := f } (slice line a (a + n)) := by
    intro a n ha hn hsep
    refine hexField_fallback c f (all_isHexDigit_slice (by omega) fun i hi => ?_)
    exact hvalid (a + i) (by omega) (by omega) (by omega) (by omega) (by omega)
  refine lineMessage_congr f (hfield 12 2 ?_ ?_ ?_) (hfield 14 2 ?_ ?_ ?_) (hfield 16 1 ?_ ?_ ?_) (hfield 18 5 ?_ ?_ ?_)
    (payloadPairs_fallback c f fun i hi => ?_)
  case refine_13 =>
    rw [List.length_drop] at hi
    rw [charAt_drop]
    exact hvalid (24 + i) (by omega) (by omega) (by omega) (by omega) (by omega)
  all_goals omega

/-- Settles O15: `HexFallback` enters DECODE only through the message it assembles, and the tests before it do not look at
digits (R160). -/
theorem fallbackMattersOnlyForBadDigits : Obligations.FallbackMattersOnlyForBadDigits := by
  intro c f line hvalid
  cases line with
  | nil => rfl
  | cons b bs =>
    unfold decodeLine
    refine if_congr Iff.rfl rfl ?_
    split
    · rfl
    · next hlen =>
      refine dite_congr rfl (fun h => ?_) (fun _ => rfl)
      exact congrArg DecodeResult.ok (lineMessage_fallback f hvalid (Nat.le_of_not_lt hlen) h).symm

end Sys2Proof.Machine
end

section
/-! READ_LINE under any schedule without a reset (R131 to R137): each `SrcRead()` comes after one moment of the environment,
so what was pulled is tied byte by byte and moment by moment to the source and the schedule; and the step that runs the line
a quiet READ_LINE leaves (R212, R214). -/

namespace Sys2Proof.Machine

variable {s u : State} {consumed : Line} {n : Nat} {b : Byte} {q : List Byte}

/-! ### One pull of READ_LINE: a moment, a `SrcRead()`, and what its answer causes -/

/-- The source is empty after the moment: READ_LINE ends (R132). -/
theorem readTicks_of_none (c : Params) (hb : (u.tick c).busy = true) (hq : (u.tick c).srcQueue = []) :
    readTicks c u.env u = (u.tick c).srcNone.endRead := by
  cases henv : u.env with
  | nil =>
    rw [tick_of_quiet c henv] at hq ⊢
    rw [readTicks, hq, readQuiet]
  | cons tick ticks =>
    simp only [State.tick, henv] at hb hq ⊢
    simp only [readTicks, hb, hq, if_true]

/-- The terminator is at the head of the source after the moment: it is consumed and READ_LINE ends (R137). -/
theorem readTicks_of_term (c : Params) (hb : (u.tick c).busy = true) (hq : (u.tick c).srcQueue = c.term :: q) :
    readTicks c u.env u = ((u.tick c).srcTake c.term q).seeTerm.endRead := by
  cases henv : u.env with
  | nil =>
    rw [tick_of_quiet c henv] at hq ⊢
    rw [readTicks, hq, readQuiet, if_pos rfl]
  | cons tick ticks =>
    simp only [State.tick, henv] at hb hq ⊢
    simp only [readTicks, hb, hq, if_true]

/-- Another byte is at the head of the source after the moment: READ_LINE stores or drops it and goes on (R133, R134). -/
theorem readTicks_of_byte (c : Params) (hb : (u.tick c).busy = true) (hwf : u.srcs.wf) (hq : (u.tick c).srcQueue = b :: q)
    (hne : b ≠ c.term) :
    readTicks c u.env u =
      readTicks c (((u.tick c).srcTake b q).storeByte c b).env (((u.tick c).srcTake b q).storeByte c b) := by
  rw [State.storeByte_env, State.srcTake_env, tick_env]
  cases henv : u.env with
  | nil =>
    rw [tick_of_quiet c henv] at hq ⊢
    have hrest : ((u.srcTake b q).storeByte c b).srcQueue = q := by
      simpa [State.srcQueue] using Queues.get_set_self hwf u.srcId q
    rw [List.drop_nil, readTicks, readTicks, hq, hrest, readQuiet, if_neg hne]
  | cons tick ticks =>
    simp only [State.tick, henv] at hb hq ⊢
    simp only [readTicks, hb, hq, hne, if_true, if_false, List.drop_one, List.tail_cons]

/-! ### The Line Buffer -/

theorem storeByte_lb_wf (c : Params) (b : Byte) (h : u.lb.wf) : (u.storeByte c b).lb.wf := by
  unfold State.storeByte
  split
  · exact Memory.write_wf h _ _
  · exact h

/-- A byte is appended to the candidate line if it fits and dropped otherwise (R134). -/
theorem candidate_storeByte (c : Params) (b : Byte) (hlb : u.lb.wf) (hlen : u.lbLen ≤ c.lineCap) :
    (u.storeByte c b).candidate = (u.candidate ++ [b]).take c.lineCap := by
  have hcandidate : u.candidate.length = u.lbLen := Memory.length_readBytes _ _ _
  unfold State.storeByte
  split
  · next hlt =>
    have hkept : (u.lb.write u.lbLen b).readBytes 0 u.lbLen = u.candidate :=
      Memory.readBytes_congr fun i hi => Memory.read_write_of_ne _ _ (by omega)
    have hfits : (u.candidate ++ [b]).length ≤ c.lineCap := by
      rw [List.length_append, hcandidate]
      exact hlt
    rw [State.candidate, Memory.readBytes_succ, hkept, Nat.zero_add, Memory.read_write_self hlb,
      List.take_of_length_le hfits]
  · next hnlt =>
    have hfull : u.candidate.length = c.lineCap := by omega
    exact (List.take_left' hfull).symm

/-! ### What has been pulled -/

/-- `u` is a moment of the READ_LINE that began in `s` (R131): the bytes `consumed` were pulled, none of them the terminator,
and `n` moments have passed. -/
structure State.Pulled (s u : State) (consumed : Line) (n : Nat) : Prop where
  term_not_mem : hw.term ∉ consumed
  /-- the Line Buffer holds what fits (R134) -/
  candidate : u.candidate = consumed.take hw.lineCap
  lb_wf : u.lb.wf
  busy : u.busy = true
  srcId : u.srcId = s.srcId
  termSeen : u.termSeen = false
  trace : u.trace = s.trace ++ byteReads s.srcId consumed
  env : u.env = s.env.drop n
  srcs_wf : u.srcs.wf
  /-- what the source held and was fed is what was pulled and what it still holds (R63, R64) -/
  queue : s.srcQueue ++ fedBytes s.srcId (s.env.take n) = consumed ++ u.srcQueue
  /-- every other source only gained what it was fed -/
  others : ∀ i, i ≠ s.srcId → u.srcs.get i = s.srcs.get i ++ fedBytes i (s.env.take n)

namespace State.Pulled

/-- At the start of READ_LINE nothing has been pulled (R131, R211). -/
theorem start (hb : s.busy = true) (hsrcs : s.srcs.wf) (hlb : s.lb.wf) : s.Pulled s.startLine.clearTerm [] 0 where
  term_not_mem := List.not_mem_nil
  candidate := rfl
  lb_wf := hlb
  busy := hb
  srcId := rfl
  termSeen := rfl
  trace := (List.append_nil _).symm
  env := rfl
  srcs_wf := hsrcs
  queue := List.append_nil _
  others _ _ := (List.append_nil _).symm

theorem lbLen (h : s.Pulled u consumed n) : u.lbLen = min consumed.length hw.lineCap := by
  rw [← Memory.length_readBytes u.lb 0 u.lbLen, Nat.min_comm, ← List.length_take, ← h.candidate, State.candidate]

/-- A moment without a reset only appends to the sources. -/
theorem tick (h : s.Pulled u consumed n) (hreset : s.NoReset) : s.Pulled (u.tick hw) consumed (n + 1) := by
  have hspared : u.Spared 1 := fun t ht => hreset t (List.mem_of_mem_drop (h.env ▸ List.mem_of_mem_take ht))
  obtain ⟨srcs, cmdq, dispTx, htick, hwf, hget, -, -⟩ := tick_of_spared hw hspared h.srcs_wf
  have hfed : ∀ i, fedBytes i (s.env.take (n + 1)) = fedBytes i (s.env.take n) ++ fedBytes i (u.env.take 1) := fun i => by
    rw [List.take_add, fedBytes_append, h.env]
  rw [htick]
  exact { h with
    env := by rw [h.env, List.drop_drop]
    srcs_wf := hwf
    queue := by
      rw [hfed, ← List.append_assoc, h.queue, List.append_assoc, ← h.srcId]
      exact congrArg (consumed ++ ·) (hget u.srcId).symm
    others := fun i hi => by rw [hget, h.others i hi, hfed, List.append_assoc] }

/-- A `SrcRead()` that answers another byte than the terminator (R133, R134). -/
theorem byte (h : s.Pulled u consumed n) (hq : u.srcQueue = b :: q) (hne : b ≠ hw.term) :
    s.Pulled ((u.srcTake b q).storeByte hw b) (consumed ++ [b]) n where
  term_not_mem := by simpa using ⟨h.term_not_mem, hne.symm⟩
  candidate := by
    have hle : u.lbLen ≤ hw.lineCap := h.lbLen ▸ Nat.min_le_right _ _
    have hstore := candidate_storeByte (u := u.srcTake b q) hw b h.lb_wf hle
    rw [hstore, show (u.srcTake b q).candidate = u.candidate from rfl, h.candidate]
    rcases Nat.le_total consumed.length hw.lineCap with hfits | hfull
    · rw [List.take_of_length_le hfits]
    · rw [List.take_append_of_le_length hfull, List.take_left' (by rw [List.length_take]; omega)]
  lb_wf := storeByte_lb_wf hw b h.lb_wf
  busy := by simpa using h.busy
  srcId := by simpa using h.srcId
  termSeen := by simpa using h.termSeen
  trace := by simp [h.trace, h.srcId, byteReads]
  env := by simpa using h.env
  srcs_wf := by simpa using Queues.set_wf h.srcs_wf u.srcId q
  queue := by
    have hrest : ((u.srcTake b q).storeByte hw b).srcQueue = q := by
      simpa [State.srcQueue] using Queues.get_set_self h.srcs_wf u.srcId q
    rw [h.queue, hq, hrest, List.append_assoc, List.singleton_append]
  others i hi := by
    rw [State.storeByte_srcs, State.srcTake_srcs, Queues.get_set_of_ne _ _ (h.srcId ▸ hi), h.others i hi]

/-- Every byte pulled was queued or scheduled, which bounds the loop of READ_LINE. -/
theorem length_consumed_le (h : s.Pulled u consumed n) :
    consumed.length ≤ (s.srcQueue ++ fedBytes s.srcId s.env).length := by
  have hqueue := congrArg List.length h.queue
  have hfed := congrArg (fun ticks => (fedBytes s.srcId ticks).length) (List.take_append_drop n s.env)
  simp only [fedBytes_append, List.length_append] at hqueue hfed ⊢
  omega

end State.Pulled

/-! ### The two ends of READ_LINE -/

/-- How a READ_LINE that no reset strikes ends: one moment after its last byte it finds the source empty (R132) or takes the
terminator (R137). -/
inductive State.ReadEnd (s : State) (consumed : Line) : State → Prop where
  | exhausted {u : State} (h : s.Pulled u consumed (consumed.length + 1)) (hq : u.srcQueue = []) :
      s.ReadEnd consumed u.srcNone.endRead
  | terminated {u : State} {q : List Byte} (h : s.Pulled u consumed (consumed.length + 1)) (hq : u.srcQueue = hw.term :: q) :
      s.ReadEnd consumed (u.srcTake hw.term q).seeTerm.endRead

/-- The loop of READ_LINE, from a state in which each byte pulled has had its moment. -/
theorem readTicks_ends {u : State} {consumed : Line} (hreset : s.NoReset) (h : s.Pulled u consumed consumed.length) :
    ∃ line, s.ReadEnd line (readTicks hw u.env u) := by
  have htick := h.tick hreset
  cases hq : (u.tick hw).srcQueue with
  | nil =>
    rw [readTicks_of_none hw htick.busy hq]
    exact ⟨consumed, .exhausted htick hq⟩
  | cons b q =>
    by_cases hb : b = hw.term
    · subst hb
      rw [readTicks_of_term hw htick.busy hq]
      exact ⟨consumed, .terminated htick hq⟩
    · have hnext := htick.byte hq hb
      have hbound := hnext.length_consumed_le
      rw [readTicks_of_byte hw htick.busy h.srcs_wf hq hb]
      exact readTicks_ends (consumed := consumed ++ [b]) hreset (by simpa using hnext)
termination_by (s.srcQueue ++ fedBytes s.srcId s.env).length - consumed.length
decreasing_by
  simp only [List.length_append, List.length_singleton] at hbound ⊢
  omega

theorem readLine_startLine_ends (hb : s.busy = true) (hreset : s.NoReset) (hsrcs : s.srcs.wf) (hlb : s.lb.wf) :
    ∃ line, s.ReadEnd line (readLine hw s.startLine) :=
  readTicks_ends hreset (State.Pulled.start hb hsrcs hlb)

/-- Settles O25: both ends of READ_LINE are read off what was pulled. -/
theorem readLineKeepsWhatFits : Obligations.ReadLineKeepsWhatFits := by
  intro s t hb hreset hsrcs hlb ht
  obtain ⟨line, hend⟩ := readLine_startLine_ends hb hreset hsrcs hlb
  rw [← ht] at hend
  refine ⟨line, s.env.take (line.length + 1), ?_⟩
  cases hend with
  | @exhausted u h hq =>
    have hseen : u.srcNone.endRead.termSeen = false := h.termSeen
    refine ⟨h.term_not_mem, h.candidate, h.lbLen, rfl, h.busy, ?_, ?_, List.length_take, ?_, fun _ => hq, h.others⟩
    · rw [hseen, State.endRead_trace, State.srcNone_trace, h.trace, h.srcId]
      rfl
    · rw [State.endRead_env, State.srcNone_env, h.env, List.take_append_drop]
    · rw [hseen, h.queue]
      exact congrArg (· ++ u.srcQueue) (List.append_nil line).symm
  | @terminated u q h hq =>
    have hrest : (u.srcTake hw.term q).seeTerm.endRead.srcQueue = q := Queues.get_set_self h.srcs_wf u.srcId q
    refine ⟨h.term_not_mem, h.candidate, h.lbLen, rfl, h.busy, ?_, ?_, List.length_take, ?_, nofun, fun i hi => ?_⟩
    · rw [State.endRead_trace, State.seeTerm_trace, State.srcTake_trace, h.trace, h.srcId]
      rfl
    · rw [State.endRead_env, State.seeTerm_env, State.srcTake_env, h.env, List.take_append_drop]
    · rw [hrest, h.queue, hq, List.append_assoc]
      rfl
    · exact (Queues.get_set_of_ne _ _ (h.srcId ▸ hi)).trans (h.others i hi)

/-! ### The step that runs the line -/

/-- The `SrcRead()` calls of a line that the terminator ends (R137). -/
theorem readEvents_append (c : Params) (i : SrcId) {l : Line} (hl : c.term ∉ l) (rest : List Byte) :
    readEvents c i (l ++ c.term :: rest) = byteReads i (l ++ [c.term]) := by
  have htake : (l ++ c.term :: rest).take (l.length + 1) = l ++ [c.term] := by
    rw [List.append_cons]
    exact List.take_left' (by simp)
  rw [readEvents, headLine_append c hl, htake, if_pos (by simp), List.append_nil, byteReads]

/-- A running PUMP_ONCE at the head of its loop runs the line that it takes (R212, R214). -/
theorem step_of_line (hb : (s.tick hw).busy = true) (hd : (s.tick hw).dispTx = none) (hp : (s.tick hw).pstate ≠ .detached)
    (hrb : (takeLine hw (s.tick hw)).busy = true) (hl : (takeLine hw (s.tick hw)).lbLen ≠ 0) :
    step s = exec (.line (takeLine hw (s.tick hw)).candidate) (takeLine hw (s.tick hw)) := by
  rcases step_cases s with ⟨-, hf, -⟩ | ⟨-, -, hf, -⟩ | ⟨-, -, -, hline⟩ | ⟨hf, -⟩ | ⟨hf, -⟩
  · rw [hd] at hf
    cases hf
  · exact absurd hf hp
  · rcases hline with ⟨hf, -⟩ | ⟨-, hf, -⟩ | ⟨-, -, he⟩
    · exact absurd (hrb.symm.trans hf) nofun
    · exact absurd hf hl
    · exact he
  · exact absurd (hb.symm.trans hf) nofun
  · exact absurd (hb.symm.trans hf) nofun

/-- Settles O40: the line the quiet READ_LINE takes is the record, up to the capacity of the Line Buffer. -/
theorem stepRunsTheLine : Obligations.StepRunsTheLine := by
  intro s text rest hwf hb hd hp henv hsrcs hlb hqueue
  obtain ⟨hhead, hterm⟩ := wellFormed_line_iff.1 hwf
  have hq : s.srcQueue = text ++ hw.term :: rest := hqueue.trans (List.append_cons ..).symm
  have hcandidate := candidate_takeLine_of_quiet henv hsrcs hlb
  have htake := takeLine_of_quiet henv hsrcs
  have hmem : hw.term ∈ text ++ hw.term :: rest := by simp
  rw [hq, headLine_append hw hterm] at hcandidate
  rw [hq, headLine_append hw hterm, afterLine_append hw hterm, readEvents_append hw _ hterm, decide_eq_true hmem] at htake
  have hlen : min text.length hw.lineCap ≠ 0 := by
    obtain ⟨tail, rfl⟩ := List.head?_eq_some_iff.1 hhead
    have hcap : hw.lineCap = 300 := rfl
    rw [List.length_cons]
    omega
  have hstep := step_of_line (s := s)
  rw [tick_of_quiet hw henv] at hstep
  rw [hstep hb hd hp (by rw [htake]; exact hb) (by rw [htake]; exact hlen), hcandidate, htake]
  rfl

end Sys2Proof.Machine
end

section
/-! DECODE (`41_decoder.md`): the tests of R160 in order, the fields by their character offset (R154, R157), which characters
are never looked at (R156, R159), and DECODE as a command (R150, R163). -/

namespace Sys2Proof.Machine

variable {c : Params} {line line' : Line} {s : State} {a b n : Nat}

/-! ### DECODE as a command: one moment, and then what the line decodes to (R163) -/

theorem exec_decode_of_spared (line : Line) (h : s.Spared 1) :
    exec (.decode line) s = .next (decodeCommandResult line (s.tick hw).accept) :=
  congrArg Host.Outcome.next (accept_act_of_spared hw _ h)

/-- The command asks nothing of a line but what it decodes to. -/
theorem exec_decode_congr (h : decodeLine hw line = decodeLine hw line') (s : State) :
    exec (.decode line) s = exec (.decode line') s := by
  have hresult : decodeCommandResult line = decodeCommandResult line' := by
    funext u
    simp only [decodeCommandResult, h]
  exact congrArg (fun f => Host.Outcome.next (s.accept.act hw f)) hresult

/-- A failing DECODE answers its code and leaves everything else, PAY too (R162, log 11). -/
theorem exec_decode_of_err {e : DecodeError} (h : decodeLine hw line = .err e) (hs : s.Spared 1) :
    exec (.decode line) s = .next ((s.tick hw).answered (.status e.status)) := by
  rw [exec_decode_of_spared line hs, decodeCommandResult, h]
  rfl

/-- A successful DECODE answers the message and stages its payload in PAY (R38, R163). -/
theorem exec_decode_of_ok {m : Message} (h : decodeLine hw line = .ok m) (hs : s.Spared 1) :
    exec (.decode line) s =
      .next ({ s.tick hw with pay := (s.tick hw).pay.writeBytes 0 m.payload }.answered (.message m)) := by
  rw [exec_decode_of_spared line hs, decodeCommandResult, h]
  rfl

theorem exec_decode_trace {m : Message} (h : decodeLine hw line = .ok m) (hs : s.Spared 1) :
    ∃ t, exec (.decode line) s = .next t ∧ t.trace = s.trace ++ [.rsp (.message m)] :=
  ⟨_, exec_decode_of_ok h hs, congrArg (· ++ [_]) (tick_trace hw s)⟩

/-- Nothing but a reset touches PAY between two actions. -/
theorem tick_pay_of_spared (c : Params) (h : s.Spared 1) : (s.tick c).pay = s.pay := by
  cases henv : s.env with
  | nil => rw [tick_of_quiet c henv]
  | cons tick ticks =>
    have hreset : EnvEvent.reset ∉ tick := h tick (by simp [henv])
    simp only [State.tick, henv]
    refine envTick_keeps c (·.pay = s.pay) tick (fun e he u hu => ?_) _ rfl
    cases e with
    | reset => exact absurd he hreset
    | feed i bytes => exact hu
    | issue transaction => exact hu
    | handlerReturns => exact hu

/-! ### The tests of R160 -/

/-- The three tests in the order of R160; the empty line has no first character (R152). -/
theorem decodeLine_eq (c : Params) (line : Line) :
    decodeLine c line =
      if line.head? = some c.marker then
        if line.length < 24 then .err .tooShort
        else if h : pairCount line.length ≤ c.maxPayload then .ok (lineMessage c line h)
        else .err .payloadTooLong
      else .err .invalidStart := by
  cases line with
  | nil => rfl
  | cons b bs => simp only [decodeLine, List.head?_cons, Option.some.injEq, ne_eq, ite_not]

theorem decodeLine_of_no_marker (h : line.head? ≠ some c.marker) : decodeLine c line = .err .invalidStart := by
  rw [decodeLine_eq, if_neg h]

theorem decodeLine_of_short (hm : line.head? = some c.marker) (hl : line.length < 24) :
    decodeLine c line = .err .tooShort := by
  rw [decodeLine_eq, if_pos hm, if_pos hl]

theorem decodeLine_of_fits (hm : line.head? = some c.marker) (hl : 24 ≤ line.length)
    (h : pairCount line.length ≤ c.maxPayload) : decodeLine c line = .ok (lineMessage c line h) :=
  decodeLine_eq_ok.2 ⟨hm, hl, h, rfl⟩

/-! ### Hexadecimal fields at their offsets -/

/-- The default fallback takes a character that is no hex digit as nibble 0, like every other one (R98, R99). -/
theorem hexField_hw (cs : List Byte) : hexField hw cs = foldHex cs := by
  unfold hexField
  split
  · rfl
  · rfl

/-- A field of `k` digits fits its `4k` bits (R99). -/
theorem toNat_ofNat_hexField {k : Nat} {cs : List Byte} (h : cs.length = k) :
    (BitVec.ofNat (4 * k) (hexField hw cs)).toNat = foldHex cs := by
  rw [hexField_hw, BitVec.toNat_ofNat, Nat.pow_mul]
  exact Nat.mod_eq_of_lt (h ▸ foldHex_lt cs)

theorem slice_zero (line : Line) (a : Nat) : slice line a (a + 0) = [] := by
  simp [slice]

/-- A range that is one character longer ends with one digit more (R54). -/
theorem foldHex_slice_succ (h : a + n < line.length) :
    foldHex (slice line a (a + (n + 1))) = 16 * foldHex (slice line a (a + n)) + nibbleAt line (a + n) := by
  rw [slice_eq_map h, slice_eq_map (Nat.le_of_lt h), List.range_succ, List.map_append, foldHex, List.foldl_append,
    Nat.mul_comm]
  rfl

theorem length_slice (h : a + n ≤ line.length) : (slice line a (a + n)).length = n := by
  rw [slice_eq_map h, List.length_map, List.length_range]

/-- The value of a field of `k` digits. -/
theorem toNat_sliceField {k : Nat} (h : a + k ≤ line.length) :
    (BitVec.ofNat (4 * k) (hexField hw (slice line a (a + k)))).toNat = foldHex (slice line a (a + k)) :=
  toNat_ofNat_hexField (length_slice h)

theorem foldHex_slice_one (h : a + 1 ≤ line.length) : foldHex (slice line a (a + 1)) = nibbleAt line a := by
  rw [foldHex_slice_succ (n := 0) h, slice_zero]
  exact Nat.zero_add _

theorem foldHex_slice_two (h : a + 2 ≤ line.length) :
    foldHex (slice line a (a + 2)) = 16 * nibbleAt line a + nibbleAt line (a + 1) := by
  rw [foldHex_slice_succ (n := 1) h, foldHex_slice_one (Nat.le_of_succ_le h)]

theorem foldHex_slice_five (h : a + 5 ≤ line.length) :
    foldHex (slice line a (a + 5)) = 65536 * nibbleAt line a + 4096 * nibbleAt line (a + 1) +
      256 * nibbleAt line (a + 2) + 16 * nibbleAt line (a + 3) + nibbleAt line (a + 4) := by
  rw [foldHex_slice_succ (n := 4) h, foldHex_slice_succ (n := 3) (by omega), foldHex_slice_succ (n := 2) (by omega),
    foldHex_slice_two (by omega)]
  omega

/-- Payload byte `i` is pair number `i`, the first character its high nibble (R55, R157). -/
theorem charAt_payloadPairs (c : Params) : ∀ {cs : List Byte} {i : Nat}, i < cs.length / 2 →
    charAt (payloadPairs c cs) i = BitVec.ofNat 8 (hexField c (slice cs (2 * i) (2 * i + 2)))
  | [], _, h => absurd h (Nat.not_lt_zero _)
  | [_], _, h => by simp at h
  | _ :: _ :: _, 0, _ => rfl
  | hi :: lo :: rest, i + 1, h => by
    have hrest : i < rest.length / 2 := by
      simp only [List.length_cons] at h
      omega
    have hslice : slice (hi :: lo :: rest) (2 * (i + 1)) (2 * (i + 1) + 2) = slice rest (2 * i) (2 * i + 2) := by
      simp [slice, Nat.mul_add]
    rw [hslice, ← charAt_payloadPairs c hrest]
    rfl

theorem slice_drop (line : Line) (n a b : Nat) : slice (line.drop n) a b = slice line (n + a) (n + b) := by
  rw [slice, slice, List.drop_drop, Nat.add_sub_add_left]

/-- Every field of the message of a line with a whole header (R154, R157), a character that is no hex digit counting as
nibble 0 (R98, D9). -/
structure ReadsFields (line : Line) (m : Message) : Prop where
  source : m.source.toNat = 16 * nibbleAt line 12 + nibbleAt line 13
  destination : m.destination.toNat = 16 * nibbleAt line 14 + nibbleAt line 15
  priority : m.priority.toNat = nibbleAt line 16
  pgn : m.pgn.toNat = 65536 * nibbleAt line 18 + 4096 * nibbleAt line 19 + 256 * nibbleAt line 20 +
    16 * nibbleAt line 21 + nibbleAt line 22
  plen : m.plen = (line.length - 24) / 2
  payload : ∀ i < m.plen, (charAt m.payload i).toNat = 16 * nibbleAt line (24 + 2 * i) + nibbleAt line (25 + 2 * i)

theorem lineMessage_readsFields (hl : 24 ≤ line.length) (h : pairCount line.length ≤ hw.maxPayload) :
    ReadsFields line (lineMessage hw line h) where
  source := (toNat_sliceField (a := 12) (k := 2) (by omega)).trans (foldHex_slice_two (by omega))
  destination := (toNat_sliceField (a := 14) (k := 2) (by omega)).trans (foldHex_slice_two (by omega))
  priority := (toNat_sliceField (a := 16) (k := 1) (by omega)).trans (foldHex_slice_one (by omega))
  pgn := by
    have hfield : (BitVec.ofNat 20 (hexField hw (slice line 18 23))).toNat = foldHex (slice line 18 23) :=
      toNat_sliceField (a := 18) (k := 5) (by omega)
    rw [← foldHex_slice_five (a := 18) (by omega), ← hfield]
    exact BitVec.toNat_setWidth_of_le (by decide)
  plen := lineMessage_plen h
  payload i hi := by
    rw [lineMessage_plen, pairCount] at hi
    have hbyte : charAt (lineMessage hw line h).payload i =
        BitVec.ofNat 8 (hexField hw (slice line (24 + 2 * i) (24 + 2 * i + 2))) := by
      rw [Nat.add_assoc, ← slice_drop]
      exact charAt_payloadPairs hw (by rwa [List.length_drop])
    rw [hbyte, show 25 + 2 * i = 24 + 2 * i + 1 by omega, ← foldHex_slice_two (by omega)]
    exact toNat_sliceField (k := 2) (by omega)

/-! ### The characters that are not looked at -/

theorem getElem?_eq_of_charAt {l l' : Line} (hlen : l.length = l'.length) {i : Nat} (h : charAt l i = charAt l' i) :
    l[i]? = l'[i]? := by
  rcases Nat.lt_or_ge i l.length with hi | hi
  · have hi' : i < l'.length := hlen ▸ hi
    simpa [charAt, List.getD_eq_getElem?_getD, hi, hi'] using h
  · rw [List.getElem?_eq_none hi, List.getElem?_eq_none (hlen ▸ hi)]

/-- Lines of one length that agree in a range have the same range. -/
theorem slice_congr (hlen : line.length = line'.length) (h : ∀ i, a ≤ i → i < b → charAt line i = charAt line' i) :
    slice line a b = slice line' a b := by
  refine List.ext_getElem? fun i => ?_
  rw [slice, slice, List.getElem?_take, List.getElem?_take, List.getElem?_drop, List.getElem?_drop]
  split
  · exact getElem?_eq_of_charAt hlen (h _ (by omega) (by omega))
  · rfl

/-- The payload section is a range too (R15, R95). -/
theorem slice_to_length (line : Line) (a : Nat) : slice line a line.length = line.drop a :=
  List.take_of_length_le (Nat.le_of_eq List.length_drop)

/-- DECODE looks at the first character, the header's digit fields and the payload section only (R151, R154, R156). -/
theorem decodeLine_congr (c : Params) (hlen : line.length = line'.length)
    (h : ∀ i, ¬(1 ≤ i ∧ i < 12) → i ≠ 17 → i ≠ 23 → charAt line i = charAt line' i) :
    decodeLine c line = decodeLine c line' := by
  have hhead : line.head? = line'.head? := by
    rw [List.head?_eq_getElem?, List.head?_eq_getElem?]
    exact getElem?_eq_of_charAt hlen (h 0 (by omega) (by omega) (by omega))
  have hslice : ∀ {a b}, 12 ≤ a → (b ≤ 17 ∨ 18 ≤ a ∧ b ≤ 23 ∨ 24 ≤ a) → slice line a b = slice line' a b :=
    fun ha hb => slice_congr hlen fun i _ _ => h i (by omega) (by omega) (by omega)
  have hdrop : line.drop 24 = line'.drop 24 := by
    rw [← slice_to_length, ← slice_to_length, ← hlen]
    exact hslice (by omega) (by omega)
  have hfield : ∀ {a b}, 12 ≤ a → (b ≤ 17 ∨ 18 ≤ a ∧ b ≤ 23) →
      hexField c (slice line a b) = hexField c (slice line' a b) :=
    fun ha hb => congrArg (hexField c) (hslice ha (by omega))
  rw [decodeLine_eq, decodeLine_eq, hhead]
  refine if_congr Iff.rfl (if_congr (by rw [hlen]) rfl (dite_congr (by rw [hlen]) (fun _ => ?_) fun _ => rfl)) rfl
  exact congrArg DecodeResult.ok (lineMessage_congr c.hexFallback (hfield (by omega) (by omega))
    (hfield (by omega) (by omega)) (hfield (by omega) (by omega)) (hfield (by omega) (by omega))
    (congrArg (payloadPairs c) hdrop))

/-- A character behind whole pairs makes no pair (R159). -/
theorem payloadPairs_append_singleton (c : Params) (last : Byte) : ∀ {cs : List Byte}, cs.length % 2 = 0 →
    payloadPairs c (cs ++ [last]) = payloadPairs c cs
  | [], _ => rfl
  | [_], h => absurd (h : 1 = 0) Nat.one_ne_zero
  | _ :: _ :: rest, h => by
    have hrest : rest.length % 2 = 0 := by
      simp only [List.length_cons] at h
      omega
    exact congrArg (_ :: ·) (payloadPairs_append_singleton c last hrest)

theorem slice_append_of_le {tail : List Byte} (h : b ≤ line.length) : slice (line ++ tail) a b = slice line a b := by
  rcases Nat.le_total a b with hab | hba
  · rw [slice, slice, List.drop_append_of_le_length (by omega),
      List.take_append_of_le_length (by rw [List.length_drop]; omega)]
  · simp [slice, Nat.sub_eq_zero_of_le hba]

/-- A leftover character behind whole pairs does not change the message (R159, R168). -/
theorem lineMessage_append_singleton (last : Byte) (hl : 24 ≤ line.length) (heven : line.length % 2 = 0)
    (h : pairCount line.length ≤ c.maxPayload) (h' : pairCount (line ++ [last]).length ≤ c.maxPayload) :
    lineMessage c (line ++ [last]) h' = lineMessage c line h := by
  have hfield : ∀ {a b}, b ≤ 24 → hexField c (slice (line ++ [last]) a b) = hexField c (slice line a b) :=
    fun hb => congrArg (hexField c) (slice_append_of_le (Nat.le_trans hb hl))
  have hpayload : payloadPairs c ((line ++ [last]).drop 24) = payloadPairs c (line.drop 24) := by
    rw [List.drop_append_of_le_length hl]
    exact payloadPairs_append_singleton c last (by rw [List.length_drop]; omega)
  exact lineMessage_congr c.hexFallback (hfield (by decide)) (hfield (by decide)) (hfield (by decide))
    (hfield (by decide)) hpayload

theorem decodeLine_append_singleton (last : Byte) (hm : line.head? = some c.marker) (hl : 24 ≤ line.length)
    (heven : line.length % 2 = 0) (h : pairCount line.length ≤ c.maxPayload) :
    decodeLine c (line ++ [last]) = .ok (lineMessage c line h) := by
  have hlen : (line ++ [last]).length = line.length + 1 := List.length_append
  have hpairs : pairCount (line ++ [last]).length = pairCount line.length := by
    rw [hlen, pairCount, pairCount]
    omega
  have h' : pairCount (line ++ [last]).length ≤ c.maxPayload := hpairs ▸ h
  rw [decodeLine_of_fits (by rw [List.head?_append, hm]; rfl) (by omega) h', lineMessage_append_singleton last hl heven h h']

/-! ### The statements -/

/-- Settles O12: the fields of the message at their offsets, and PAY as the staged payload and the moment leave it. -/
theorem decodeReadsFieldsByOffset : Obligations.DecodeReadsFieldsByOffset := by
  intro line s hm hl hp hwf hs
  have hf := lineMessage_readsFields hl hp
  refine ⟨lineMessage hw line hp, s.pay.writeBytes 0 (lineMessage hw line hp).payload, ?_,
    Memory.readBytes_writeBytes hwf 0 _, fun a ha => Memory.read_writeBytes_of_not_mem _ 0 _ (.inr ?_), hf.source,
    hf.destination, hf.priority, hf.pgn, hf.plen, hf.payload⟩
  · rw [exec_decode_of_ok (decodeLine_of_fits (c := hw) hm hl hp) hs, tick_pay_of_spared hw hs]
  · rwa [Nat.zero_add]

/-- Settles O13: the two lines decode to one message, and the command asks no more of them. -/
theorem leftoverCharacterIsIgnored : Obligations.LeftoverCharacterIsIgnored := by
  intro line last s hm hl heven hp
  have hline : decodeLine hw line = .ok (lineMessage hw line hp) := decodeLine_of_fits (c := hw) hm hl hp
  have hmore : decodeLine hw (line ++ [last]) = .ok (lineMessage hw line hp) :=
    decodeLine_append_singleton (c := hw) last hm hl heven hp
  exact ⟨exec_decode_congr (hmore.trans hline.symm) s, _, hline, hmore, exec_decode_trace hmore⟩

/-- Settles O14: what DECODE looks at is the same in both lines. -/
theorem timestampAndSeparatorsAreIgnored : Obligations.TimestampAndSeparatorsAreIgnored :=
  fun _ _ s hlen h => exec_decode_congr (decodeLine_congr hw hlen h) s

/-- Settles O9: the start marker is the first test. -/
theorem wrongMarkerIsInvalidStart : Obligations.WrongMarkerIsInvalidStart := by
  intro first rest s hfirst
  have herr : decodeLine hw (first :: rest) = .err .invalidStart :=
    decodeLine_of_no_marker fun hm => hfirst (Option.some.inj hm)
  exact ⟨herr, fun hs => ⟨(s.tick hw).pay, exec_decode_of_err herr hs⟩⟩

/-- Settles O10: the length is the second test. -/
theorem shortLineIsTooShort : Obligations.ShortLineIsTooShort := by
  intro line s hl hs
  refine ⟨(s.tick hw).pay, ?_⟩
  split
  · next hm => exact exec_decode_of_err (decodeLine_of_short hm hl) hs
  · next hm => exact exec_decode_of_err (decodeLine_of_no_marker hm) hs

/-- Settles O11: the payload bound is the last test. -/
theorem longPayloadIsRejected : Obligations.LongPayloadIsRejected := by
  intro line s hm hl
  refine ⟨fun hlong => ?_, fun hp => ?_⟩
  · have herr : decodeLine hw line = .err .payloadTooLong := decodeLine_of_too_many_pairs hm hl hlong
    exact ⟨herr, fun hs => ⟨(s.tick hw).pay, exec_decode_of_err herr hs⟩⟩
  · have hok : decodeLine hw line = .ok (lineMessage hw line hp) := decodeLine_of_fits (c := hw) hm hl hp
    exact ⟨_, hok, (lineMessage hw line hp).payload_le, fun hs => ⟨_, exec_decode_of_ok hok hs⟩⟩

/-- Settles O16: the line is evaluated, and the command answers what it decodes to. -/
theorem decodeWorkedExample : Obligations.DecodeWorkedExample :=
  ⟨_, _, rfl, rfl, by decide, fun _ hs => exec_decode_trace (by decide) hs⟩

end Sys2Proof.Machine
end

section
/-! ENCODE (`42_encoder.md`): the text it writes (R182, R183, R186), the sentinel behind it (R188, R189), how much of both is
in ENC when it ends, and what it answers (R180, R190). -/

namespace Sys2Proof.Machine

variable {c : Params} {p : Nat} {line : Line} {s t : State} {a b i j k n v : Nat}

/-! ### What ENCODE writes -/

theorem length_payload (m : WireMessage p) : m.payload.length = m.plen := rfl

/-- The text of ENCODE: the header and the digits of the payload bytes that fit, nothing without room for the header and
the sentinel (R182, R186, R189). -/
def encodedText (c : Params) (m : WireMessage p) (capacity : Nat) : Line :=
  if capacity < 25 then [] else headerText c m ++ payloadText (m.payload.take ((capacity - 25) / 2))

/-- What ENCODE writes from `ENC[0]` on: the text, and the sentinel if there is a position at all (R188, R189). -/
def encodedBytes (c : Params) (m : WireMessage p) (capacity : Nat) : List Byte :=
  encodedText c m capacity ++ List.replicate (min 1 capacity) 0

theorem encodedText_of_lt (c : Params) (m : WireMessage p) (h : n < 25) : encodedText c m n = [] := if_pos h

theorem encodedText_of_le (c : Params) (m : WireMessage p) (h : 25 ≤ n) :
    encodedText c m n = headerText c m ++ payloadText (m.payload.take ((n - 25) / 2)) := if_neg (Nat.not_lt.2 h)

/-- With room for the whole line every payload byte is written (R183). -/
theorem encodedText_of_fits (c : Params) (m : WireMessage p) (h : 25 + 2 * m.plen ≤ n) :
    encodedText c m n = headerText c m ++ payloadText m.payload := by
  have hall : m.payload.length ≤ (n - 25) / 2 := by
    rw [length_payload]
    omega
  rw [encodedText_of_le c m (by omega), List.take_of_length_le hall]

theorem encodedBytes_of_pos (c : Params) (m : WireMessage p) (h : 1 ≤ n) :
    encodedBytes c m n = encodedText c m n ++ [0] := by
  rw [encodedBytes, Nat.min_eq_left h, List.replicate_one]

/-- Cutting the payload to what fits does not change the text (R186). -/
theorem encodedText_cutMessage (c : Params) (m : WireMessage p) (n : Nat) :
    encodedText c (cutMessage m ((n - 25) / 2)) n = encodedText c m n := by
  simp only [encodedText, cutMessage_payload, List.take_take, Nat.min_self]
  rfl

theorem encodedBytes_cutMessage (c : Params) (m : WireMessage p) (n : Nat) :
    encodedBytes c (cutMessage m ((n - 25) / 2)) n = encodedBytes c m n := by
  rw [encodedBytes, encodedText_cutMessage, encodedBytes]

theorem plen_cutMessage {m : WireMessage p} (h : n < 25 + 2 * m.plen) :
    (cutMessage m ((n - 25) / 2)).plen = (n - 25) / 2 := by
  rw [WireMessage.plen, cutMessage_payload, List.length_take, length_payload, Nat.min_eq_left (by omega)]

theorem length_encodedText (hts : c.tsPlaceholder.length = 10) (m : WireMessage p) (h : 25 ≤ n) :
    (encodedText c m n).length = 24 + 2 * min ((n - 25) / 2) m.plen := by
  rw [encodedText_of_le c m h, List.length_append, length_headerText hts, length_payloadText, List.length_take]

theorem length_encodedText_of_fits (hts : c.tsPlaceholder.length = 10) (m : WireMessage p) (h : 25 + 2 * m.plen ≤ n) :
    (encodedText c m n).length = 24 + 2 * m.plen := by
  rw [length_encodedText hts m (by omega), Nat.min_eq_right (by omega)]

/-- The text and its sentinel stay below the capacity (R181). -/
theorem length_encodedBytes_le (hts : c.tsPlaceholder.length = 10) (m : WireMessage p) (n : Nat) :
    (encodedBytes c m n).length ≤ n := by
  rw [encodedBytes, List.length_append, List.length_replicate]
  rcases Nat.lt_or_ge n 25 with h | h
  · rw [encodedText_of_lt c m h, List.length_nil]
    omega
  · rw [length_encodedText hts m h]
    omega

/-- ENCODE, whole: it writes its text and the sentinel, counts the text, and signals the overflow if a byte was skipped. -/
theorem encodeText_eq_encodedBytes (hts : c.tsPlaceholder.length = 10) (m : WireMessage p) (n : Nat) :
    encodeText c m n =
      { writes := placed 0 (encodedBytes c m n)
        len := (encodedText c m n).length
        ovf := decide (n < 25 + 2 * m.plen) } := by
  rcases Nat.lt_or_ge n 25 with h | h
  · have hovf : n < 25 + 2 * m.plen := by omega
    simp only [encodeText_of_lt c m h, encodedBytes, encodedText_of_lt c m h, List.nil_append, List.length_nil, hovf,
      decide_true]
  · have htake : m.payload.take (writtenBytes m.plen n) = m.payload.take ((n - 25) / 2) := by
      rw [List.take_eq_take_iff, writtenBytes, length_payload]
      omega
    have hlen : 24 + 2 * writtenBytes m.plen n = (encodedText c m n).length := by
      rw [length_encodedText hts m h, writtenBytes, Nat.min_comm]
    have hovf : writtenBytes m.plen n < m.plen ↔ n < 25 + 2 * m.plen := by
      rw [writtenBytes]
      omega
    rw [encodeText_eq hts m h, htake, hlen, decide_eq_decide.2 hovf, encodedBytes_of_pos c m (by omega),
      encodedText_of_le c m h]

/-- The text stands in ENC once it is written. -/
theorem readBytes_encodedText (c : Params) (m : WireMessage p) (n : Nat) {enc : Memory} (hwf : enc.wf) :
    (enc.writeBytes 0 (encodedBytes c m n)).readBytes 0 (encodedText c m n).length = encodedText c m n :=
  Memory.readBytes_writeBytes_append hwf 0 _ _

/-! ### ENCODE as a command -/

/-- ENCODE that no reset strikes: its moments, the text in ENC, one ERR event at overflow, and the RSP (R180, R190). -/
theorem exec_encode_of_spared (m : Message) (capacity : Capacity) (hwf : s.enc.wf)
    (h : s.Spared (encodeMoments m.plen capacity.toNat)) :
    exec (.encode m capacity) s = .next
      ({ s.ticks hw (encodeMoments m.plen capacity.toNat) with
          enc := s.enc.writeBytes 0 (encodedBytes hw m capacity.toNat)
          trace := s.trace ++ if capacity.toNat < 25 + 2 * m.plen then [Event.err .overflowOnEncode] else [] }.answered
        (.encoded (encodeStatus (decide (capacity.toNat < 25 + 2 * m.plen)))
          (BitVec.ofNat 16 (encodedText hw m capacity.toNat).length) (encodedText hw m capacity.toNat))) := by
  change Host.Outcome.next _ = _
  rw [encodeCommandResult_of_spared m capacity h (encodeText_eq_encodedBytes (c := hw) rfl m _)]
  simp only [writeAll_placed, readBytes_encodedText hw m _ hwf, decide_eq_true_eq]
  rfl

/-- ENCODE with room for the whole line: no ERR event, status `OK`. -/
theorem exec_encode_of_fits (m : Message) (capacity : Capacity) (hfits : 25 + 2 * m.plen ≤ capacity.toNat)
    (hwf : s.enc.wf) (h : s.Spared (encodeMoments m.plen capacity.toNat)) :
    exec (.encode m capacity) s = .next
      ({ s.ticks hw (encodeMoments m.plen capacity.toNat) with
          enc := s.enc.writeBytes 0 (encodedBytes hw m capacity.toNat) }.answered
        (.encoded .ok (BitVec.ofNat 16 (24 + 2 * m.plen)) (encodedText hw m capacity.toNat))) := by
  have hovf : ¬ capacity.toNat < 25 + 2 * m.plen := Nat.not_lt.2 hfits
  rw [exec_encode_of_spared m capacity hwf h, length_encodedText_of_fits rfl m hfits, if_neg hovf, decide_eq_false hovf,
    List.append_nil, ← ticks_trace hw (encodeMoments m.plen capacity.toNat) s]
  rfl

/-- ENCODE without that room: one ERR event, status `OverflowOnEncode` (R190). -/
theorem exec_encode_of_overflow (m : Message) (capacity : Capacity) (hovf : capacity.toNat < 25 + 2 * m.plen)
    (hwf : s.enc.wf) (h : s.Spared (encodeMoments m.plen capacity.toNat)) :
    exec (.encode m capacity) s = .next
      ({ s.ticks hw (encodeMoments m.plen capacity.toNat) with
          enc := s.enc.writeBytes 0 (encodedBytes hw m capacity.toNat)
          trace := s.trace ++ [Event.err .overflowOnEncode] }.answered
        (.encoded .overflowOnEncode (BitVec.ofNat 16 (encodedText hw m capacity.toNat).length)
          (encodedText hw m capacity.toNat))) := by
  rw [exec_encode_of_spared m capacity hwf h, if_pos hovf, decide_eq_true hovf]
  rfl

/-- A message cut to what fits takes no more moments: as many bytes of ENC, and no ERR event. -/
theorem encodeMoments_le_of_overflow (h : n < 25 + 2 * k) : encodeMoments ((n - 25) / 2) n ≤ encodeMoments k n := by
  have hcut : writtenBytes ((n - 25) / 2) n = (n - 25) / 2 := Nat.min_self _
  have hwritten : writtenBytes k n = (n - 25) / 2 := Nat.min_eq_right (by omega)
  rw [encodeMoments, encodeMoments, storedBytes, storedBytes, hcut, hwritten, if_pos h]
  refine Nat.add_le_add_left ?_ _
  split <;> omega

/-- The ways an ENCODE can go: no reset strikes it, or one does after some of its moments. -/
theorem exec_encode_spared_or_struck {m : Message} {capacity : Capacity} (he : exec (.encode m capacity) s = .next t) :
    s.Spared (encodeMoments m.plen capacity.toNat) ∨
      ∃ n events, (events = [] ∨ events = [.err .overflowOnEncode]) ∧
        t = (s.ticks hw (n + 1)).withLogs (s.enc.writeBytes 0 ((encodedBytes hw m capacity.toNat).take n))
          (s.trace ++ events) := by
  by_cases h : s.Spared (encodeMoments m.plen capacity.toNat)
  · exact .inl h
  · obtain ⟨n, hn, hspared, hstruck⟩ := struck_of_not_spared hw h
    obtain rfl : encodeCommandResult m capacity s.accept = t := Host.Outcome.next.inj he
    refine .inr ⟨n, if n ≤ storedBytes m.plen capacity.toNat then [] else [.err .overflowOnEncode], ?_, ?_⟩
    · split
      · exact .inl rfl
      · exact .inr rfl
    · rw [encodeCommandResult_of_struck m capacity hspared hstruck hn, encodeText_eq_encodedBytes (c := hw) rfl,
        take_placed, writeAll_placed]

/-- Struck or not, ENCODE has written the first bytes of its text and sentinel and nothing else of ENC (R300, R301). -/
theorem exec_encode_enc {m : Message} {capacity : Capacity} (he : exec (.encode m capacity) s = .next t) :
    ∃ written, written <+: encodedBytes hw m capacity.toNat ∧ t.enc = s.enc.writeBytes 0 written := by
  rcases exec_encode_spared_or_struck he with h | ⟨n, -, -, rfl⟩
  · obtain rfl : encodeCommandResult m capacity s.accept = t := Host.Outcome.next.inj he
    refine ⟨_, List.prefix_refl _, ?_⟩
    rw [encodeCommandResult_of_spared m capacity h (encodeText_eq_encodedBytes (c := hw) rfl m _)]
    exact writeAll_placed _ _ _
  · exact ⟨_, List.take_prefix _ _, rfl⟩

/-- An ENCODE whose last event is its RSP was not struck, and answered its text. -/
theorem exec_encode_rsp {m : Message} {capacity : Capacity} (hwf : s.enc.wf)
    (he : exec (.encode m capacity) s = .next t) {events : List Event} {code : Status} {len : Capacity} {text : Line}
    (htrace : t.trace = s.trace ++ events ++ [.rsp (.encoded code len text)]) :
    text = encodedText hw m capacity.toNat := by
  have hlast : t.trace.getLast? = some (.rsp (.encoded code len text)) := by rw [htrace, List.getLast?_concat]
  rcases exec_encode_spared_or_struck he with h | ⟨n, stood, hstood, rfl⟩
  · obtain rfl := Host.Outcome.next.inj ((exec_encode_of_spared m capacity hwf h).symm.trans he)
    rw [State.answered, List.getLast?_concat] at hlast
    cases hlast
    rfl
  · have hnew : stood = events ++ [.rsp (.encoded code len text)] := by
      rw [withLogs_trace, List.append_assoc] at htrace
      exact List.append_cancel_left htrace
    have hrsp := congrArg List.getLast? hnew
    rw [List.getLast?_concat] at hrsp
    rcases hstood with rfl | rfl
    · cases hrsp
    · cases hrsp

/-! ### The characters at their offsets -/

/-- Digit `j` of `k` is worth `16^(k-1-j)` (R101). -/
theorem charAt_hexDigits (v : Nat) (h : j < k) :
    charAt (hexDigits k v) j = hexDigitChar (v / 16 ^ (k - 1 - j) % 16) := by
  induction k generalizing j with
  | zero => exact absurd h (Nat.not_lt_zero j)
  | succ k ih =>
    cases j with
    | zero => rfl
    | succ j =>
      have hj : k + 1 - 1 - (j + 1) = k - 1 - j := by omega
      rw [hj]
      exact ih (Nat.lt_of_succ_lt_succ h)

theorem charAt_slice (h : a + j < b) : charAt (slice line a b) j = charAt line (a + j) := by
  rw [← charAt_drop, charAt, charAt, slice, List.getD_eq_getElem?_getD, List.getD_eq_getElem?_getD,
    List.getElem?_take_of_lt (by omega)]

/-- A digit of a field that stands at a range of the line. -/
theorem charAt_of_slice_eq_hexDigits (h : slice line a (a + k) = hexDigits k v) (hj : j < k) :
    charAt line (a + j) = hexDigitChar (v / 16 ^ (k - 1 - j) % 16) := by
  rw [← charAt_slice (b := a + k) (by omega), h, charAt_hexDigits v hj]

/-- The two digits of payload byte `i` (R55, R183). -/
theorem charAt_payloadText {bs : List Byte} (h : i < bs.length) :
    charAt (payloadText bs) (2 * i) = hexDigitChar ((charAt bs i).toNat / 16) ∧
      charAt (payloadText bs) (2 * i + 1) = hexDigitChar ((charAt bs i).toNat % 16) := by
  induction bs generalizing i with
  | nil => exact absurd h (Nat.not_lt_zero i)
  | cons b bs ih =>
    cases i with
    | zero =>
      have hhigh : b.toNat / 16 ^ 1 % 16 = b.toNat / 16 := by omega
      have hlow : b.toNat / 16 ^ 0 % 16 = b.toNat % 16 := by omega
      exact ⟨congrArg hexDigitChar hhigh, congrArg hexDigitChar hlow⟩
    | succ i => exact ih (Nat.lt_of_succ_lt_succ h)

/-- The layout of R182 and R183: every character of a header and a payload section by its offset. -/
structure LineLayout (m : Message) (text : Line) : Prop where
  start : text.take 12 = [0x41, 0x30, 0x30, 0x30, 0x30, 0x30, 0x30, 0x2E, 0x30, 0x30, 0x30, 0x20]
  source : charAt text 12 = hexDigitChar (m.source.toNat / 16) ∧ charAt text 13 = hexDigitChar (m.source.toNat % 16)
  destination : charAt text 14 = hexDigitChar (m.destination.toNat / 16) ∧
    charAt text 15 = hexDigitChar (m.destination.toNat % 16)
  priority : charAt text 16 = hexDigitChar m.priority.toNat
  pgn : ∀ j < 5, charAt text (18 + j) = hexDigitChar (m.pgn.toNat / 16 ^ (4 - j) % 16)
  separators : charAt text 17 = 0x20 ∧ charAt text 23 = 0x20
  payload : ∀ i < m.plen, charAt text (24 + 2 * i) = hexDigitChar ((charAt m.payload i).toNat / 16) ∧
    charAt text (25 + 2 * i) = hexDigitChar ((charAt m.payload i).toNat % 16)

/-- The two digits of a byte-wide field at offset `a` (R101). -/
theorem charAt_of_slice_eq_byte {x : Byte} (h : slice line a (a + 2) = hexDigits 2 x.toNat) :
    charAt line a = hexDigitChar (x.toNat / 16) ∧ charAt line (a + 1) = hexDigitChar (x.toNat % 16) := by
  have hhigh : x.toNat / 16 ^ (2 - 1 - 0) % 16 = x.toNat / 16 := by omega
  have hlow : x.toNat / 16 ^ (2 - 1 - 1) % 16 = x.toNat % 16 := by omega
  exact ⟨(charAt_of_slice_eq_hexDigits h (j := 0) (by decide)).trans (congrArg hexDigitChar hhigh),
    (charAt_of_slice_eq_hexDigits h (j := 1) (by decide)).trans (congrArg hexDigitChar hlow)⟩

/-- The low 20 bits of `pgn` have the same five digits (R21). -/
theorem pgn_digit (pgn : Pgn) (h : j < 5) :
    (pgn.setWidth 20).toNat / 16 ^ (5 - 1 - j) % 16 = pgn.toNat / 16 ^ (4 - j) % 16 := by
  rw [BitVec.toNat_setWidth]
  interval_cases j <;> omega

theorem lineLayout_headerText (m : Message) : LineLayout m (headerText hw m ++ payloadText m.payload) := by
  obtain ⟨source, destination, priority, pgn⟩ := slice_headerText (c := hw) rfl m (payloadText m.payload)
  have hdrop : (headerText hw m ++ payloadText m.payload).drop 24 = payloadText m.payload :=
    List.drop_left' (length_headerText rfl m)
  refine {
    start := rfl
    source := charAt_of_slice_eq_byte source
    destination := charAt_of_slice_eq_byte destination
    priority := ?_
    pgn := fun j hj => ?_
    separators := ⟨rfl, rfl⟩
    payload := fun i hi => ?_ }
  · have hdigit : m.priority.toNat / 16 ^ (1 - 1 - 0) % 16 = m.priority.toNat := by omega
    exact (charAt_of_slice_eq_hexDigits (a := 16) (k := 1) (j := 0) priority (by decide)).trans
      (congrArg hexDigitChar hdigit)
  · exact (charAt_of_slice_eq_hexDigits (a := 18) (k := 5) pgn hj).trans (congrArg hexDigitChar (pgn_digit m.pgn hj))
  · have hlow : 25 + 2 * i = 24 + (2 * i + 1) := by omega
    rw [hlow, ← charAt_drop, ← charAt_drop, hdrop]
    exact charAt_payloadText hi

/-! ### The characters of the text (R184) -/

/-- No lower-case letter, no carriage return, no line feed. -/
abbrev IsPlain (b : Byte) : Prop := ¬(0x61 ≤ b.toNat ∧ b.toNat ≤ 0x7A) ∧ b ≠ 0x0D ∧ b ≠ 0x0A

/-- Digits are upper case always (R101). -/
theorem isPlain_hexDigitChar (h : n < 16) : IsPlain (hexDigitChar n) := by
  interval_cases n <;> decide

theorem isPlain_hexDigits (k v : Nat) : ∀ b ∈ hexDigits k v, IsPlain b := by
  induction k with
  | zero => exact fun b hb => absurd hb List.not_mem_nil
  | succ k ih => exact List.forall_mem_cons.2 ⟨isPlain_hexDigitChar (Nat.mod_lt _ (by decide)), ih⟩

theorem isPlain_payloadText (bs : List Byte) : ∀ b ∈ payloadText bs, IsPlain b := by
  intro b hb
  obtain ⟨x, -, hx⟩ := List.mem_flatMap.1 hb
  exact isPlain_hexDigits 2 x.toNat b hx

theorem isPlain_headerText (m : WireMessage p) : ∀ b ∈ headerText hw m, IsPlain b := by
  have hmarker : ∀ b ∈ [hw.marker], IsPlain b := by decide
  have hstamp : ∀ b ∈ hw.tsPlaceholder, IsPlain b := by decide
  have hspace : ∀ b ∈ [space], IsPlain b := by decide
  simp only [headerText, List.forall_mem_append]
  have hdigits := isPlain_hexDigits
  exact ⟨⟨⟨⟨⟨⟨⟨⟨hmarker, hstamp⟩, hspace⟩, hdigits _ _⟩, hdigits _ _⟩, hdigits _ _⟩, hspace⟩, hdigits _ _⟩, hspace⟩

theorem isPlain_encodedText (m : WireMessage p) (n : Nat) : ∀ b ∈ encodedText hw m n, IsPlain b := by
  unfold encodedText
  split
  · exact fun b hb => absurd hb List.not_mem_nil
  · exact List.forall_mem_append.2 ⟨isPlain_headerText m, isPlain_payloadText _⟩

theorem isPlain_encodedBytes (m : WireMessage p) (n : Nat) : ∀ b ∈ encodedBytes hw m n, IsPlain b := by
  have hsentinel : IsPlain 0 := by decide
  exact List.forall_mem_append.2 ⟨isPlain_encodedText m n, fun b hb => List.eq_of_mem_replicate hb ▸ hsentinel⟩

/-- A byte that writing changed is one of those written. -/
theorem Memory.read_writeBytes_mem {enc : Memory} (hwf : enc.wf) {vs : List Byte}
    (h : (enc.writeBytes 0 vs).read a ≠ enc.read a) :
    (enc.writeBytes 0 vs).read a ∈ vs := by
  have ha : a < vs.length := by
    by_contra hout
    exact h (Memory.read_writeBytes_of_not_mem enc 0 vs (.inr (by omega)))
  have hread := Memory.read_writeBytes hwf 0 vs ha
  rw [Nat.zero_add] at hread
  exact hread ▸ List.getElem_mem ha

/-! ### Bytes that are no Wire Message (R192) -/

/-- A number is read from as many bytes as it takes, whatever they are. -/
theorem takeNat_append_of_length {bs : List Byte} (h : bs.length = n) (rest : List Byte) :
    takeNat n (bs ++ rest) = .ok (bytesNat bs, rest) := by
  rw [takeNat, takeBytes_append h]
  rfl

theorem takeNat_one_cons (b : Byte) (rest : List Byte) : takeNat 1 (b :: rest) = .ok (b.toNat, rest) := by
  have hvalue : bytesNat [b] = b.toNat := by rw [bytesNat, List.foldl_cons, Nat.zero_mul, Nat.zero_add, List.foldl_nil]
  rw [← hvalue]
  exact takeNat_append_of_length (bs := [b]) rfl rest

theorem takePriority_cons {b : Byte} (h : b.toNat < 16) (rest : List Byte) :
    takePriority (b :: rest) = .ok (BitVec.ofNat 4 b.toNat, rest) := by
  simp only [takePriority, takeNat_one_cons, bind, Except.bind, if_neg (Nat.not_le.2 h)]

/-- A record that declares more than `MAX_PAYLOAD` payload bytes is refused with the length it declares (R23, log 14). -/
theorem takeMessage_of_plen_gt {fields : List Byte} {plen : Byte} (hlen : fields.length = 6)
    (hpriority : (charAt fields 5).toNat < 16) (hplen : 223 < plen.toNat) (rest : List Byte) :
    takeMessage (fields ++ plen :: rest) = .error (.notAWireMessage plen.toNat) := by
  obtain ⟨pgn₂, pgn₁, pgn₀, source, destination, priority, rfl⟩ : ∃ pgn₂ pgn₁ pgn₀ source destination priority,
      fields = [pgn₂, pgn₁, pgn₀, source, destination, priority] := by
    match fields, hlen with
    | [pgn₂, pgn₁, pgn₀, source, destination, priority], _ => exact ⟨_, _, _, _, _, _, rfl⟩
  have hpgn : takeNat 3 ([pgn₂, pgn₁, pgn₀, source, destination, priority] ++ plen :: rest) =
      .ok (bytesNat [pgn₂, pgn₁, pgn₀], source :: destination :: priority :: plen :: rest) :=
    takeNat_append_of_length (bs := [pgn₂, pgn₁, pgn₀]) rfl _
  have hpayload : takePayload hw.maxPayload plen.toNat rest = .error (.notAWireMessage plen.toNat) :=
    dif_neg (Nat.not_le.2 hplen)
  have hfield : takePriority (priority :: plen :: rest) = .ok (BitVec.ofNat 4 priority.toNat, plen :: rest) :=
    takePriority_cons hpriority _
  simp only [takeMessage, hpgn, takeNat_one_cons, hfield, hpayload, bind, Except.bind]

theorem decodeCommand_of_plen_gt {fields : List Byte} {plen : Byte} (hlen : fields.length = 6)
    (hpriority : (charAt fields 5).toNat < 16) (hplen : 223 < plen.toNat) (rest : List Byte) :
    decodeCommand (7 :: fields ++ plen :: rest) = .error (.notAWireMessage plen.toNat) := by
  change decodeOperands 7 (fields ++ plen :: rest) = _
  simp only [decodeOperands, takeMessage_of_plen_gt hlen hpriority hplen, bind, Except.bind]

/-- A step refuses the bytes at the head of CMD that the decoder of commands refuses (log 15). -/
theorem step_of_decodeCommand_error {bytes : List Byte} {behind : List (List Byte)} {e : CommandError}
    (hb : (s.tick hw).busy = false) (hq : (s.tick hw).cmdq = bytes :: behind) (h : decodeCommand bytes = .error e) :
    step s = .refused (.malformedCommand e) := by
  simp only [step, fetch, hb, fetchCommand, hq, h, Bool.false_eq_true, if_false]

/-! ### The statements -/

/-- Settles O17: ENCODE writes the header and the whole payload, and their layout is read off offset by offset. -/
theorem encodeWritesTheLine : Obligations.EncodeWritesTheLine := by
  intro m capacity s hfits hwf hs
  have hlen : (encodedText hw m capacity.toNat).length = 24 + 2 * m.plen := length_encodedText_of_fits rfl m hfits
  have hbytes : encodedBytes hw m capacity.toNat = encodedText hw m capacity.toNat ++ [0] :=
    encodedBytes_of_pos hw m (by omega)
  have hstored : (encodedBytes hw m capacity.toNat).length = 25 + 2 * m.plen := by
    rw [hbytes, List.length_append, hlen, List.length_singleton]
    omega
  have hlayout : LineLayout m (encodedText hw m capacity.toNat) :=
    encodedText_of_fits hw m hfits ▸ lineLayout_headerText m
  obtain ⟨start, ⟨source₁, source₀⟩, ⟨destination₁, destination₀⟩, priority, pgn, ⟨space₁₇, space₂₃⟩, payload⟩ := hlayout
  refine ⟨encodedText hw m capacity.toNat, s.enc.writeBytes 0 (encodedBytes hw m capacity.toNat),
    exec_encode_of_fits m capacity hfits hwf hs, ?_, fun a ha => ?_, hlen, start, source₁, source₀, destination₁,
    destination₀, priority, space₁₇, pgn, space₂₃, payload⟩
  · rw [← hbytes, ← hstored, Memory.readBytes_writeBytes hwf]
  · exact Memory.read_writeBytes_of_not_mem _ 0 _ (.inr (by omega))

/-- Settles O18: what is written depends on the payload bytes that fit only, and the cut message has room. -/
theorem encodeTruncatesAtCapacity : Obligations.EncodeTruncatesAtCapacity := by
  intro m capacity s hcap hovf hwf hs
  have hlen : (encodedText hw m capacity.toNat).length = 24 + 2 * ((capacity.toNat - 25) / 2) := by
    rw [length_encodedText rfl m hcap, Nat.min_eq_left (by omega)]
  have hplen := plen_cutMessage hovf
  have hmoments : encodeMoments (cutMessage m ((capacity.toNat - 25) / 2)).plen capacity.toNat ≤
      encodeMoments m.plen capacity.toNat := by
    rw [hplen]
    exact encodeMoments_le_of_overflow hovf
  have hcut := exec_encode_of_fits (cutMessage m ((capacity.toNat - 25) / 2)) capacity (by omega) hwf
    fun tick htick => hs tick (List.take_subset_take_left _ hmoments htick)
  rw [hplen, encodedText_cutMessage, encodedBytes_cutMessage] at hcut
  exact ⟨_, _, hlen ▸ exec_encode_of_overflow m capacity hovf hwf hs, hcut⟩

/-- Settles O20: what is written are the first bytes of the text and its sentinel, which fit. -/
theorem encodeStaysBelowCapacity : Obligations.EncodeStaysBelowCapacity := by
  intro m capacity s t he a ha
  obtain ⟨written, hprefix, henc⟩ := exec_encode_enc he
  have hlen : written.length ≤ capacity.toNat :=
    Nat.le_trans hprefix.length_le (length_encodedBytes_le (c := hw) rfl m capacity.toNat)
  rw [henc]
  exact Memory.read_writeBytes_of_not_mem _ 0 _ (.inr (by omega))

/-- Settles O21: the text that is answered and the bytes that are written are plain. -/
theorem encodeTextIsPlain : Obligations.EncodeTextIsPlain := by
  intro m capacity s t hwf he
  refine ⟨fun events code len text htrace => ?_, fun a ha => ?_⟩
  · rw [exec_encode_rsp hwf he htrace]
    exact isPlain_encodedText m _
  · obtain ⟨written, hprefix, henc⟩ := exec_encode_enc he
    rw [henc] at ha ⊢
    exact isPlain_encodedBytes m _ _ (hprefix.subset (Memory.read_writeBytes_mem hwf ha))

/-- Settles O23: DECODE reads the fields of the text back, as a function and as a command. -/
theorem encodeDecodeRoundTrip : Obligations.EncodeDecodeRoundTrip := by
  intro m capacity s hpgn hfits hwf hs
  have hdecode : decodeLine hw (encodedText hw m capacity.toNat) = .ok m := by
    rw [encodedText_of_fits hw m hfits, decodeLine_headerText rfl, pgn_setWidth_of_le hpgn]
  have hplen : m.plen ≤ 223 := m.payload_le
  refine ⟨_, BitVec.ofNat 16 (24 + 2 * m.plen), encodedText hw m capacity.toNat,
    exec_encode_of_fits m capacity hfits hwf hs, congrArg (· ++ [_]) (ticks_trace hw _ s), ?_, hdecode,
    fun s' => exec_decode_trace hdecode⟩
  rw [BitVec.toNat_ofNat]
  omega

/-- Settles O19: without room for the header the text is empty and the sentinel is the only byte. -/
theorem encodeWithoutRoomForTheHeader : Obligations.EncodeWithoutRoomForTheHeader := by
  intro m capacity s hcap hwf hs
  have hbytes : encodedBytes hw m capacity.toNat = List.replicate (min 1 capacity.toNat) 0 := by
    rw [encodedBytes, encodedText_of_lt hw m hcap, List.nil_append]
  have hexec := exec_encode_of_overflow m capacity (by omega) hwf hs
  rw [encodedText_of_lt hw m hcap, hbytes] at hexec
  refine ⟨_, hexec, fun hpos => ?_, fun a ha => Memory.read_writeBytes_of_not_mem _ 0 _ (.inr ?_)⟩
  · rw [Nat.min_eq_left hpos]
    exact Memory.read_write_self hwf 0 0
  · rwa [List.length_replicate, Nat.zero_add]

/-- Settles O22: the bound is the record's own, an ENCODE that no reset strikes ends with its RSP, and the decoder of
commands tests the declared length before it takes a payload byte. -/
theorem encodeTakesWireMessagesOnly : Obligations.EncodeTakesWireMessagesOnly := by
  refine ⟨fun m capacity s => ⟨m.payload_le, _, rfl, fun hs => ?_⟩,
    fun fields plen rest behind s hlen hpriority hplen hb hq =>
    step_of_decodeCommand_error hb hq (decodeCommand_of_plen_gt hlen hpriority hplen rest)⟩
  rw [encodeCommandResult_of_spared m capacity hs rfl]
  exact ⟨_, _, _, _, rfl⟩

end Sys2Proof.Machine
end

section
/-! LINE, the pump's handling of one candidate line (R214 to R217), and PUMP_ONCE without a source (R210, R228). -/

namespace Sys2Proof.Machine

variable {s : State} {line text : Line} {m : Message}

/-! ### Handling a line, outcome by outcome -/

theorem handleLine_of_err {e : DecodeError} (h : decodeLine hw line = .err e) : handleLine line s = s.report e.status := by
  simp only [handleLine, h]

theorem handleLine_of_ok_unregistered (h : decodeLine hw line = .ok m) (hhnd : s.hndSet = false) :
    handleLine line s = s.stage m := by
  simp only [handleLine, h, hhnd, Bool.false_eq_true, if_false]

theorem handleLine_of_ok_registered (h : decodeLine hw line = .ok m) (hhnd : s.hndSet = true) :
    handleLine line s = (s.stage m).dispatch m := by
  simp only [handleLine, h, hhnd, if_true]

/-- A handler that returns within its step leaves only its `disp_log` entry (R66, log 5). -/
theorem dispatch_of_returning (m : Message) (h : s.holds.headD false = false) :
    s.dispatch m = { s with trace := s.trace ++ [.disp s.hndId m], holds := s.holds.tail } := by
  simp only [State.dispatch, h, Bool.or_false, Bool.false_eq_true, if_false]

/-- A handler that is still running leaves its DISP transaction in progress (R66, log 5). -/
theorem dispatch_of_held (m : Message) (h : s.holds.headD false = true) :
    s.dispatch m = { s with
      trace := s.trace ++ [.disp s.hndId m], holds := s.holds.tail, busy := true, dispTx := some (s.hndId, m) } := by
  simp only [State.dispatch, h, Bool.or_true, if_true]

/-! ### LINE as an instruction (log 2) -/

theorem exec_line_of_no_line (h : s.pstate = .detached ∨ text = []) : exec (.line text) s = .next s := if_pos h

theorem exec_line_of_line (hp : s.pstate ≠ .detached) (ht : text ≠ []) :
    exec (.line text) s = .next (handleLine (text.take hw.lineCap) s) :=
  if_neg (not_or.2 ⟨hp, ht⟩)

/-- Settles O34: a decode error, a message nobody takes, a handler that returns, and one that is still running. -/
theorem lineIsDispatchedOrReported : Obligations.LineIsDispatchedOrReported := by
  refine fun text s => ⟨exec_line_of_no_line, fun hp ht => ?_⟩
  have hexec : exec (.line text) s = .next (handleLine (text.take 300) s) := exec_line_of_line hp ht
  rw [hexec]
  refine ⟨fun e he => ?_, fun m hm hhnd => ?_, fun m hm hhnd hholds => ?_, fun m hm hhnd hholds => ?_⟩
  · rw [handleLine_of_err he]; rfl
  · rw [handleLine_of_ok_unregistered hm hhnd]; rfl
  · rw [handleLine_of_ok_registered hm hhnd, dispatch_of_returning (s := s.stage m) m hholds]; rfl
  · rw [handleLine_of_ok_registered hm hhnd, dispatch_of_held (s := s.stage m) m hholds]; rfl

/-! ### PUMP_ONCE without a source -/

/-- The one action of a detached PUMP_ONCE is its RSP, after one moment (R210, log 4). -/
theorem exec_pumpOnce_of_detached_spared (hp : s.pstate = .detached) (h : s.Spared 1) :
    exec .pumpOnce s = .next ((s.tick hw).answered (.status .ok)) := by
  rw [exec_pumpOnce_of_detached hp]
  exact congrArg Host.Outcome.next (accept_act_of_spared hw (State.respond (.status .ok)) h)

theorem exec_pumpOnce_of_detached_struck (hp : s.pstate = .detached) (h : s.Struck) :
    exec .pumpOnce s = .next (s.tick hw) := by
  rw [exec_pumpOnce_of_detached hp]
  exact congrArg Host.Outcome.next (accept_act_of_struck hw (State.respond (.status .ok)) h)

/-- Settles O26: the RSP, or nothing if a reset strikes before it. -/
theorem detachedPumpIsANoOp : Obligations.DetachedPumpIsANoOp := by
  refine fun s hp => ⟨exec_pumpOnce_of_detached_spared hp, ?_⟩
  rcases spared_or_struck s with h | h
  · exact ⟨_, exec_pumpOnce_of_detached_spared hp h, .inr (congrArg (· ++ _) (tick_trace hw s))⟩
  · exact ⟨_, exec_pumpOnce_of_detached_struck hp h, .inl (tick_trace hw s)⟩

end Sys2Proof.Machine
end

section
/-! The loop of PUMP_ONCE under any schedule: one step of a resumed PUMP_ONCE is one iteration (R215, R218), more iterations
than the bound change nothing (R224), and with no reset and handlers that return the loop ends with `OK` (R221, R226). -/

namespace Sys2Proof.Machine

variable {s t : State}

/-! ### What taking a line leaves -/

/-- While the command runs, a source is attached, no line is in progress, and the Line Buffer keeps no more than it can
(R33, R135). -/
def State.LineTaken (s : State) : Prop := s.busy = true → s.pstate = .idle ∧ s.lbLen ≤ hw.lineCap

theorem State.LineTaken.tick (h : s.LineTaken) : (s.tick hw).LineTaken :=
  tick_keeps hw State.LineTaken (fun _ _ h => h) (fun e _ h => by
    cases e with
    | reset => exact nofun
    | _ => exact h) s h

theorem envTick_lbLen_le {ticks : List Tick} {tick : Tick} (h : s.lbLen ≤ hw.lineCap) :
    ((s.setEnv ticks).envTick hw tick).lbLen ≤ hw.lineCap :=
  envTick_keeps hw (·.lbLen ≤ hw.lineCap) tick (fun e _ _ h => by
    cases e with
    | reset => exact Nat.zero_le _
    | _ => exact h) _ h

theorem storeByte_lbLen_le_lineCap (b : Byte) (h : s.lbLen ≤ hw.lineCap) : (s.storeByte hw b).lbLen ≤ hw.lineCap := by
  unfold State.storeByte
  split
  · next hlt => exact hlt
  · exact h

theorem readLine_lineTaken (hwf : s.srcs.wf) (hb : s.busy = true) (hl : s.lbLen ≤ hw.lineCap) :
    (readLine hw s).LineTaken :=
  readLine_ends hw (fun s => s.srcs.wf ∧ s.lbLen ≤ hw.lineCap) State.LineTaken
    (htick := fun tick _ _ ⟨hwf, hl⟩ _ _ => ⟨envTick_srcs_wf hw tick hwf, envTick_lbLen_le hl⟩)
    (hbyte := fun b q s ⟨hwf, hl⟩ _ _ _ =>
      ⟨by simpa using Queues.set_wf hwf s.srcId q, storeByte_lbLen_le_lineCap (s := s.srcTake b q) b hl⟩)
    (hnone := fun _ ⟨_, hl⟩ _ _ _ => ⟨rfl, hl⟩)
    (hterm := fun _ _ ⟨_, hl⟩ _ _ _ => ⟨rfl, hl⟩)
    (habort := fun _ _ hf hb => absurd (hb.symm.trans hf) nofun)
    (hsrcs := fun _ h => h.1)
    s hb ⟨hwf, hl⟩

theorem takeLine_lineTaken (hwf : s.srcs.wf) (hb : s.busy = true) : (takeLine hw s).LineTaken :=
  takeLine_keeps hw (fun s => s.srcs.wf ∧ s.busy = true) State.LineTaken
    (fun s ⟨hwf, hb⟩ => readLine_lineTaken (s := s.startLine) hwf hb (Nat.zero_le _))
    (fun _ h _ => h.tick) s ⟨hwf, hb⟩

/-! ### A resumed PUMP_ONCE -/

theorem candidate_length (s : State) : s.candidate.length = s.lbLen := Memory.length_readBytes _ _ _

/-- The line that was taken, run as the instruction LINE (log 6). -/
theorem exec_line_candidate (h : s.LineTaken) (hb : s.busy = true) (hl : s.lbLen ≠ 0) :
    exec (.line s.candidate) s = .next (handleLine s.candidate s) := by
  obtain ⟨hidle, hle⟩ := h hb
  have hlen := candidate_length s
  have hne : s.candidate ≠ [] := fun he => hl (by rw [← hlen, he, List.length_nil])
  rw [exec_line_of_line (hidle ▸ nofun) hne, List.take_of_length_le (by omega)]

/-- A step of a running PUMP_ONCE at the head of its loop, by what taking a line leaves. -/
theorem step_at_loop_head (hb : (s.tick hw).busy = true) (hd : (s.tick hw).dispTx = none)
    (hp : (s.tick hw).pstate ≠ .detached) :
    (takeLine hw (s.tick hw)).busy = false ∧ step s = .next (takeLine hw (s.tick hw)) ∨
    (takeLine hw (s.tick hw)).busy = true ∧ (takeLine hw (s.tick hw)).lbLen = 0 ∧
      step s = .next ((takeLine hw (s.tick hw)).respond (.status .ok)) ∨
    (takeLine hw (s.tick hw)).busy = true ∧ (takeLine hw (s.tick hw)).lbLen ≠ 0 ∧
      step s = exec (.line (takeLine hw (s.tick hw)).candidate) (takeLine hw (s.tick hw)) := by
  rcases step_cases s with ⟨-, hf, -⟩ | ⟨-, -, hf, -⟩ | ⟨-, -, -, hline⟩ | ⟨hf, -⟩ | ⟨hf, -⟩
  · rw [hd] at hf
    cases hf
  · exact absurd hf hp
  · exact hline
  · exact absurd (hb.symm.trans hf) nofun
  · exact absurd (hb.symm.trans hf) nofun

theorem pumpIter_state_of_aborted (hr : (takeLine hw s).busy = false) : (pumpIter s).state = takeLine hw s := by
  simp only [pumpIter, hr, Bool.not_false, if_true, PumpStep.state]

theorem pumpIter_of_no_line (hr : (takeLine hw s).busy = true) (hl : (takeLine hw s).lbLen = 0) :
    pumpIter s = .stop ((takeLine hw s).respond (.status .ok)) := by
  simp [pumpIter, hr, hl, lineAvail]

theorem pumpIter_state_of_line (hr : (takeLine hw s).busy = true) (hl : (takeLine hw s).lbLen ≠ 0) :
    (pumpIter s).state = handleLine (takeLine hw s).candidate (takeLine hw s) := by
  rcases pumpIter_cases s with ⟨hf, -⟩ | ⟨-, hf, -⟩ | ⟨-, -, t, rfl, ⟨-, he⟩ | ⟨-, he⟩⟩
  · exact absurd (hr.symm.trans hf) nofun
  · exact absurd hf hl
  · rw [he]; rfl
  · rw [he]; rfl

/-- Settles O38: in each of the three ways the step can go on, the iteration goes the same way. -/
theorem resumedStepIsOneIteration : Obligations.ResumedStepIsOneIteration := by
  intro s hb hd hp hwf
  rcases step_at_loop_head hb hd hp with ⟨hr, he⟩ | ⟨hr, hl, he⟩ | ⟨hr, hl, he⟩
  · rw [he, pumpIter_state_of_aborted hr]
  · rw [he, pumpIter_of_no_line hr hl, PumpStep.state]
  · rw [he, exec_line_candidate (takeLine_lineTaken hwf hb) hr hl, pumpIter_state_of_line hr hl]

/-! ### The bound of the loop -/

/-- An iteration after which the loop goes on has consumed a byte, and the command still runs (R224). -/
theorem pumpIter_again (hwf : s.srcs.wf) (hb : s.busy = true) (h : pumpIter s = .again t) :
    t.supply < s.supply ∧ t.srcs.wf ∧ t.busy = true := by
  have htake := takeLine_supplyWithin hwf hb
  rcases pumpIter_cases s with ⟨-, he⟩ | ⟨-, -, he⟩ | ⟨hr, hl, u, hu, ⟨-, he⟩ | ⟨-, he⟩⟩
  · cases he.symm.trans h
  · cases he.symm.trans h
  · cases he.symm.trans h
  · cases he.symm.trans h
    have hle := htake.supply_le hr
    have hsupply : t.supply = (takeLine hw s).supply := by rw [hu, handleLine_supply]
    exact ⟨by omega, by rw [hu, handleLine_srcs]; exact htake.srcs_wf, hu ▸ handleLine_busy _ hr⟩

/-- Any two numbers of iterations above what the command can still get give the same state. -/
theorem pumpLoop_eq_of_supply_lt (m n : Nat) (hm : s.supply < m) (hn : s.supply < n) (hwf : s.srcs.wf)
    (hb : s.busy = true) : pumpLoop n s = pumpLoop m s := by
  induction m generalizing s n with
  | zero => exact absurd hm (Nat.not_lt_zero _)
  | succ m ih =>
    obtain ⟨n, rfl⟩ := Nat.exists_eq_add_one_of_ne_zero (Nat.ne_zero_of_lt hn)
    rw [pumpLoop, pumpLoop]
    cases h : pumpIter s with
    | stop u => rfl
    | again u =>
      obtain ⟨hless, hwf', hb'⟩ := pumpIter_again hwf hb h
      exact ih n (by omega) (by omega) hwf' hb'

/-- Settles O30. -/
theorem pumpBoundSuffices : Obligations.PumpBoundSuffices := fun s n hb hwf hn =>
  have hbound : s.supply < pumpBound s := Nat.lt_succ_self _
  pumpLoop_eq_of_supply_lt (pumpBound s) n hbound (Nat.lt_of_lt_of_le hbound hn) hwf hb

/-! ### A PUMP_ONCE that nothing stops -/

/-- A running command that no reset will strike and no handler will hold (R67, R300, log 5). -/
structure State.Undisturbed (s : State) : Prop where
  noReset : s.NoReset
  returns : s.HandlersReturn
  no_disp : s.dispTx = none
  busy : s.busy = true

theorem headD_of_handlersReturn (h : s.HandlersReturn) : s.holds.headD false = false := by
  cases hh : s.holds with
  | nil => rfl
  | cons b bs => exact h b (by simp [hh])

theorem State.Undisturbed.setEnv (h : s.Undisturbed) {tick : Tick} {ticks : List Tick} (henv : s.env = tick :: ticks) :
    (s.setEnv ticks).Undisturbed :=
  { h with noReset := fun t ht => h.noReset t (by simpa [henv] using .inr ht) }

theorem State.Undisturbed.envTick (h : s.Undisturbed) {tick : Tick} {ticks : List Tick} (henv : s.env = tick :: ticks) :
    ((s.setEnv ticks).envTick hw tick).Undisturbed :=
  envTick_keeps hw State.Undisturbed tick (fun e he s' hs' => by
    cases e with
    | feed i bytes => exact { hs' with }
    | issue transaction => exact { hs' with }
    | handlerReturns => exact { hs' with no_disp := rfl }
    | reset => exact absurd rfl (ne_reset_of_scheduled h.noReset henv he)) _ (h.setEnv henv)

theorem State.Undisturbed.takeLine (h : s.Undisturbed) : (takeLine hw s).Undisturbed :=
  takeLine_keeps_any hw State.Undisturbed
    (htick := fun _ _ _ h henv => h.envTick henv)
    (htake := fun _ _ _ h => { h with })
    (hnone := fun _ h => { h with })
    (hstore := fun b s h => by
      unfold State.storeByte
      split
      · exact { h with }
      · exact { h with })
    (hterm := fun _ h => { h with })
    (hend := fun _ h => { h with })
    s { h with }

theorem State.Undisturbed.handleLine (h : s.Undisturbed) (line : Line) : (handleLine line s).Undisturbed :=
  handleLine_keeps State.Undisturbed line (fun _ _ _ h => { h with })
    (fun m s _ h _ => by
      rw [dispatch_of_returning m (headD_of_handlersReturn h.returns)]
      exact { h with returns := fun held hin => h.returns held (List.mem_of_mem_tail hin) })
    (fun _ _ _ h => { h with }) s h

/-- What PUMP_ONCE is to leave: `OK` as its one RSP and last event, and an idle block without a line (R210, R221, R226). -/
structure State.Completes (s t : State) : Prop where
  trace : ∃ events, t.trace = s.trace ++ events ++ [.rsp (.status .ok)] ∧ ∀ r, Event.rsp r ∉ events
  busy : t.busy = false
  no_disp : t.dispTx = none
  pstate : t.pstate = .idle
  lbLen : t.lbLen = 0

/-- The completion of an undisturbed PUMP_ONCE that finds no line (R213). -/
theorem State.Undisturbed.completes_respond (h : t.Undisturbed) (hl : t.lbLen = 0) (hp : t.pstate = .idle)
    (hu : t.Unanswered s.trace) : s.Completes (t.respond (.status .ok)) := by
  obtain ⟨events, htrace, hrsp⟩ := hu
  exact ⟨⟨events, by rw [State.respond_trace, htrace], hrsp⟩, rfl, h.no_disp, hp, hl⟩

/-- A PUMP_ONCE on an attached source that nothing stops: the loop ends where no line is found (R213, R224). -/
theorem exec_pumpOnce_completes (hp : s.pstate ≠ .detached) (hreset : s.NoReset) (hret : s.HandlersReturn)
    (hd : s.dispTx = none) (hwf : s.srcs.wf) : ∃ t, exec .pumpOnce s = .next t ∧ s.Completes t := by
  refine ⟨pumpOnce s.accept, rfl, ?_⟩
  rw [pumpOnce, if_neg (State.accept_pstate s ▸ hp)]
  have hunanswered := channelProperty_unanswered s.trace
  exact pumpLoop_returns (fun u => u.Undisturbed ∧ u.srcs.wf ∧ u.Unanswered s.trace) s.Completes
    (habort := fun u ⟨h, _, _⟩ _ hr => absurd (h.takeLine.busy.symm.trans hr) nofun)
    (hdone := fun u ⟨h, hwf, hu⟩ hb hr hl =>
      h.takeLine.completes_respond hl (takeLine_lineTaken hwf hb hr).1 (hunanswered.takeLine hu))
    (hheld := fun u t ⟨h, _, _⟩ _ _ _ ht hheld => by
      have hnone : t.dispTx = none := ht ▸ (h.takeLine.handleLine _).no_disp
      rw [hnone] at hheld
      cases hheld)
    (hagain := fun u t ⟨h, hwf, hu⟩ hb _ _ ht _ => by
      subst ht
      refine ⟨h.takeLine.handleLine _, ?_, hunanswered.handleLine _ (hunanswered.takeLine hu)⟩
      rw [handleLine_srcs]
      exact (takeLine_supplyWithin hwf hb).srcs_wf)
    _ s.accept (Nat.lt_succ_self _) hwf rfl ⟨⟨hreset, hret, hd, rfl⟩, hwf, [], by simp, fun _ => List.not_mem_nil⟩

/-- Settles O29: without a source there is only the RSP, and with one the loop ends where no line is found. -/
theorem pumpAlwaysAnswersOk : Obligations.PumpAlwaysAnswersOk := by
  intro s hacc hreset hret hd hwf
  by_cases hp : s.pstate = .detached
  · have hwait := (State.Waited.refl hreset).tick
    refine ⟨_, [], exec_pumpOnce_of_detached_spared hp (hreset.spared 1), ?_, fun _ => List.not_mem_nil, rfl, ?_,
      hwait.pstate, fun h => absurd hp h⟩
    · rw [List.append_nil]
      exact congrArg (· ++ _) (tick_trace hw s)
    · exact hwait.dispTx.elim (·.trans hd) id
  · obtain ⟨t, he, ⟨events, htrace, hrsp⟩, hb, hd', hidle, hl⟩ := exec_pumpOnce_completes hp hreset hret hd hwf
    have hattached : s.pstate = .idle := by
      cases hs : s.pstate with
      | detached => exact absurd hs hp
      | idle => rfl
      | accumulating => exact absurd hs hacc
    exact ⟨t, events, he, htrace, hrsp, hb, hd', hidle.trans hattached.symm, fun _ => hl⟩

end Sys2Proof.Machine
end

section
/-! PUMP_ONCE while the environment is quiet and handlers return: what it does on its channels and what it leaves is a
function of the bytes in the source (R72, R211 to R218), line by line (R227) up to the first empty line (R222). -/

namespace Sys2Proof.Machine

variable {s t : State} {q : List Byte} {lines : List Line} {i : SrcId} {n : Nat}

/-! ### One iteration -/

theorem handleLine_srcQueue (line : Line) (s : State) : (handleLine line s).srcQueue = s.srcQueue := by
  rw [State.srcQueue, handleLine_srcs, handleLine_srcId, State.srcQueue]

/-- The source after a line was taken. -/
theorem takeLine_srcQueue_of_quiet (henv : s.env = []) (hwf : s.srcs.wf) :
    (takeLine hw s).srcQueue = afterLine hw s.srcQueue := by
  rw [takeLine_of_quiet henv hwf]
  exact Queues.get_set_self hwf _ _

/-- After a line was handled the environment is still quiet and the queues are canonical. -/
theorem handleLine_takeLine_quiet (line : Line) (henv : s.env = []) (hwf : s.srcs.wf) :
    (handleLine line (takeLine hw s)).env = [] ∧ (handleLine line (takeLine hw s)).srcs.wf := by
  rw [handleLine_env, handleLine_srcs, takeLine_of_quiet henv hwf]
  exact ⟨henv, Queues.set_wf hwf _ _⟩

/-- The candidate line is empty exactly when the head line is (R136, R213). -/
theorem takeLine_lbLen_eq_zero_iff (henv : s.env = []) (hwf : s.srcs.wf) :
    (takeLine hw s).lbLen = 0 ↔ headLine hw s.srcQueue = [] := by
  have hcap : hw.lineCap = 300 := rfl
  rw [takeLine_of_quiet henv hwf, ← List.length_eq_zero_iff]
  show min (headLine hw s.srcQueue).length hw.lineCap = 0 ↔ _
  omega

theorem takeLine_busy_of_quiet (henv : s.env = []) (hwf : s.srcs.wf) (hb : s.busy = true) : (takeLine hw s).busy = true := by
  rw [takeLine_of_quiet henv hwf]
  exact hb

/-- The head line is empty: the loop is left with `OK` (R213, R222). -/
theorem pumpIter_of_headLine_nil (henv : s.env = []) (hwf : s.srcs.wf) (hb : s.busy = true)
    (hl : headLine hw s.srcQueue = []) : pumpIter s = .stop ((takeLine hw s).respond (.status .ok)) :=
  pumpIter_of_no_line (takeLine_busy_of_quiet henv hwf hb) ((takeLine_lbLen_eq_zero_iff henv hwf).2 hl)

/-- The head line is not empty: it is handled, and with a handler that returns the loop goes on (R215, R216). -/
theorem pumpIter_of_headLine (h : s.Undisturbed) (henv : s.env = []) (hwf : s.srcs.wf) (hlb : s.lb.wf)
    (hl : headLine hw s.srcQueue ≠ []) :
    pumpIter s = .again (handleLine ((headLine hw s.srcQueue).take hw.lineCap) (takeLine hw s)) := by
  have hlen := mt (takeLine_lbLen_eq_zero_iff henv hwf).1 hl
  rcases pumpIter_cases s with ⟨hf, -⟩ | ⟨-, hf, -⟩ | ⟨-, -, t, rfl, ⟨hf, -⟩ | ⟨-, he⟩⟩
  · exact absurd (h.takeLine.busy.symm.trans hf) nofun
  · exact absurd hf hlen
  · rw [(h.takeLine.handleLine _).no_disp] at hf
    cases hf
  · rw [he, candidate_takeLine_of_quiet henv hwf hlb]

/-! ### The loop -/

/-- Taking a line that is not empty shortens the source. -/
theorem length_afterLine_lt (h : headLine hw q ≠ []) : (afterLine hw q).length < q.length := by
  have hlen := length_afterLine hw q
  have hpos : 0 < q.length := List.length_pos_iff.2 fun hq => h (by rw [hq, headLine_nil])
  omega

/-- `t` is what a PUMP_ONCE of at most `n` attempts leaves of `s` (R72, R218, R226). -/
structure State.PumpedTo (n : Nat) (s t : State) : Prop where
  trace : t.trace = s.trace ++ pumpEvents s.srcId s.handler n s.srcQueue
  srcs : t.srcs = s.srcs.set s.srcId (pumpRest hw n s.srcQueue)
  pstate : t.pstate = .idle
  busy : t.busy = false
  lbLen : t.lbLen = 0
  no_disp : t.dispTx = none
  srcId : t.srcId = s.srcId
  hndSet : t.hndSet = s.hndSet
  hndId : t.hndId = s.hndId
  defsrc : t.defsrc = s.defsrc
  enc : t.enc = s.enc
  cmdq : t.cmdq = s.cmdq
  env : t.env = []
  freeIdx : t.freeIdx = s.freeIdx

/-- The iteration that finds no line. -/
theorem pumpedTo_of_headLine_nil (henv : s.env = []) (hwf : s.srcs.wf) (hd : s.dispTx = none)
    (hl : headLine hw s.srcQueue = []) : s.PumpedTo (n + 1) ((takeLine hw s).respond (.status .ok)) := by
  rw [takeLine_of_quiet henv hwf]
  exact {
    trace := by simp [pumpEvents, hl]
    srcs := by simp [pumpRest, hl]
    pstate := rfl, busy := rfl, lbLen := by simp [hl], no_disp := hd, srcId := rfl, hndSet := rfl, hndId := rfl
    defsrc := rfl, enc := rfl, cmdq := rfl, env := henv, freeIdx := rfl }

/-- An iteration that handles a line, and what the loop does behind it. -/
theorem pumpedTo_of_headLine (henv : s.env = []) (hwf : s.srcs.wf) (hl : headLine hw s.srcQueue ≠ [])
    (h : (handleLine ((headLine hw s.srcQueue).take hw.lineCap) (takeLine hw s)).PumpedTo n t) : s.PumpedTo (n + 1) t := by
  have hqueue := (handleLine_srcQueue ((headLine hw s.srcQueue).take hw.lineCap) (takeLine hw s)).trans
    (takeLine_srcQueue_of_quiet henv hwf)
  have htrace := handleLine_trace ((headLine hw s.srcQueue).take hw.lineCap) (takeLine hw s)
  obtain ⟨trace, srcs, pstate, busy, lbLen, no_disp, srcId, hndSet, hndId, defsrc, enc, cmdq, env, freeIdx⟩ := h
  rw [hqueue, htrace] at trace
  rw [hqueue] at srcs
  simp only [State.handler, handleLine_srcId, handleLine_hndSet, handleLine_hndId, handleLine_srcs, handleLine_defsrc,
    handleLine_enc, handleLine_cmdq, handleLine_freeIdx, takeLine_of_quiet henv hwf]
    at trace srcs srcId hndSet hndId defsrc enc cmdq freeIdx
  exact {
    trace := by simp [trace, pumpEvents, hl, State.handler]
    srcs := by simp [srcs, pumpRest, hl, Queues.set_set hwf]
    pstate, busy, lbLen, no_disp, srcId, hndSet, hndId, defsrc, enc, cmdq, env, freeIdx }

/-- The loop as a function of the bytes in the source, by the number of attempts (R218, R224). -/
theorem pumpLoop_pumpedTo (n : Nat) (h : s.Undisturbed) (henv : s.env = []) (hwf : s.srcs.wf) (hlb : s.lb.wf)
    (hn : s.srcQueue.length < n) : s.PumpedTo n (pumpLoop n s) := by
  induction n generalizing s with
  | zero => exact absurd hn (Nat.not_lt_zero _)
  | succ n ih =>
    rw [pumpLoop]
    by_cases hl : headLine hw s.srcQueue = []
    · rw [pumpIter_of_headLine_nil henv hwf h.busy hl]
      exact pumpedTo_of_headLine_nil henv hwf h.no_disp hl
    · rw [pumpIter_of_headLine h henv hwf hlb hl]
      obtain ⟨henv', hwf'⟩ := handleLine_takeLine_quiet ((headLine hw s.srcQueue).take hw.lineCap) henv hwf
      refine pumpedTo_of_headLine henv hwf hl (ih (h.takeLine.handleLine _) henv' hwf' ?_ ?_)
      · rw [handleLine_lb, takeLine_of_quiet henv hwf]
        exact Memory.writeBytes_wf hlb 0 _
      · have hless := length_afterLine_lt hl
        rw [handleLine_srcQueue, takeLine_srcQueue_of_quiet henv hwf]
        omega

theorem noReset_of_quiet (h : s.env = []) : s.NoReset := fun _ ht => absurd (h ▸ ht) List.not_mem_nil

/-- PUMP_ONCE on an attached source, whole. -/
theorem exec_pumpOnce_pumpedTo (hp : s.pstate ≠ .detached) (henv : s.env = []) (hret : s.HandlersReturn)
    (hd : s.dispTx = none) (hwf : s.srcs.wf) (hlb : s.lb.wf) :
    ∃ t, exec .pumpOnce s = .next t ∧ s.PumpedTo (s.srcQueue.length + 1) t := by
  have hbound : pumpBound s.accept = s.srcQueue.length + 1 := by
    rw [pumpBound, State.accept_env, henv]
    rfl
  refine ⟨pumpOnce s.accept, rfl, ?_⟩
  rw [pumpOnce, if_neg (State.accept_pstate s ▸ hp), hbound]
  have hundisturbed : s.accept.Undisturbed := ⟨noReset_of_quiet henv, hret, hd, rfl⟩
  exact { pumpLoop_pumpedTo _ hundisturbed henv hwf hlb (Nat.lt_succ_self _) with }

/-- Settles O27. -/
theorem pumpIsAFunctionOfTheStream : Obligations.PumpIsAFunctionOfTheStream := by
  intro s hp henv hret hd hwf hlb
  obtain ⟨t, he, h⟩ := exec_pumpOnce_pumpedTo hp henv hret hd hwf hlb
  exact ⟨t, he, h.trace, h.srcs, h.pstate, h.busy, h.lbLen, h.no_disp, h.srcId, h.hndSet, h.hndId, h.defsrc, h.enc, h.cmdq,
    h.env, h.freeIdx⟩

theorem State.PumpedTo.srcQueue (h : s.PumpedTo n t) (hwf : s.srcs.wf) : t.srcQueue = pumpRest hw n s.srcQueue := by
  rw [State.srcQueue, h.srcId, h.srcs]
  exact Queues.get_set_self hwf _ _

/-! ### Complete lines at the head of the source -/

/-- No line is empty, and none holds the terminator. -/
abbrev LinesProper (lines : List Line) : Prop := ∀ l ∈ lines, l ≠ [] ∧ hw.term ∉ l

theorem lineBytes_cons_append (l : Line) (lines : List Line) (q : List Byte) :
    lineBytes hw (l :: lines) ++ q = l ++ hw.term :: (lineBytes hw lines ++ q) := by
  simp [lineBytes]

/-- The complete lines are handled one by one, and then what stands behind them. -/
theorem pumpEvents_lineBytes (i : SrcId) (handler : Option HndId) (n : Nat) (q : List Byte) (h : LinesProper lines) :
    pumpEvents i handler (lines.length + n) (lineBytes hw lines ++ q) =
      completeLineEvents i handler lines ++ pumpEvents i handler n q := by
  induction lines with
  | nil => rw [List.length_nil, Nat.zero_add]; rfl
  | cons l lines ih =>
    obtain ⟨⟨hl, hterm⟩, hlines⟩ := List.forall_mem_cons.1 h
    rw [List.length_cons, Nat.add_right_comm, lineBytes_cons_append, pumpEvents, readEvents_append hw i hterm,
      headLine_append hw hterm, afterLine_append hw hterm, if_neg hl, ih hlines]
    simp only [completeLineEvents, List.flatMap_cons, List.append_assoc]

theorem pumpRest_lineBytes (n : Nat) (q : List Byte) (h : LinesProper lines) :
    pumpRest hw (lines.length + n) (lineBytes hw lines ++ q) = pumpRest hw n q := by
  induction lines with
  | nil => rw [List.length_nil, Nat.zero_add]; rfl
  | cons l lines ih =>
    obtain ⟨⟨hl, hterm⟩, hlines⟩ := List.forall_mem_cons.1 h
    rw [List.length_cons, Nat.add_right_comm, lineBytes_cons_append, pumpRest, headLine_append hw hterm,
      afterLine_append hw hterm, if_neg hl, ih hlines]

theorem length_le_length_lineBytes (lines : List Line) : lines.length ≤ (lineBytes hw lines).length := by
  induction lines with
  | nil => exact Nat.le_refl 0
  | cons l lines ih =>
    simp only [lineBytes, List.flatMap_cons, List.length_append, List.length_cons] at ih ⊢
    omega

/-- The attempt at an empty line that a terminator ends (R222). -/
theorem pumpEvents_term (i : SrcId) (handler : Option HndId) (n : Nat) (rest : List Byte) :
    pumpEvents i handler (n + 1) (hw.term :: rest) = [.srcRead i (some hw.term), .rsp (.status .ok)] := by
  simp [pumpEvents, readEvents_cons, headLine_cons]

theorem pumpRest_term (n : Nat) (rest : List Byte) : pumpRest hw (n + 1) (hw.term :: rest) = rest := by
  simp [pumpRest, headLine_cons, afterLine_cons]

/-- The attempt on an exhausted source (R132). -/
theorem pumpEvents_nil (i : SrcId) (handler : Option HndId) (n : Nat) :
    pumpEvents i handler (n + 1) [] = [.srcRead i none, .rsp (.status .ok)] := by
  simp [pumpEvents, readEvents]

theorem pumpRest_nil (n : Nat) : pumpRest hw (n + 1) [] = [] := by simp [pumpRest]

/-- PUMP_ONCE on a source that begins with complete lines: they are handled, and the call goes on behind them with at least
one attempt. -/
theorem exec_pumpOnce_lineBytes (hp : s.pstate ≠ .detached) (henv : s.env = []) (hret : s.HandlersReturn)
    (hd : s.dispTx = none) (hwf : s.srcs.wf) (hlb : s.lb.wf) (h : LinesProper lines)
    (hq : s.srcQueue = lineBytes hw lines ++ q) :
    ∃ t k n, exec .pumpOnce s = .next t ∧ s.PumpedTo k t ∧
      t.trace = s.trace ++ completeLineEvents s.srcId s.handler lines ++ pumpEvents s.srcId s.handler (n + 1) q ∧
      t.srcQueue = pumpRest hw (n + 1) q := by
  obtain ⟨t, he, ht⟩ := exec_pumpOnce_pumpedTo hp henv hret hd hwf hlb
  have hlines := length_le_length_lineBytes lines
  have hattempts : s.srcQueue.length + 1 = lines.length + (s.srcQueue.length - lines.length + 1) := by
    rw [hq, List.length_append]
    omega
  refine ⟨t, _, s.srcQueue.length - lines.length, he, ht, ?_, ?_⟩
  · rw [ht.trace, hattempts, hq, pumpEvents_lineBytes _ _ _ _ h, List.append_assoc]
  · rw [ht.srcQueue hwf, hattempts, hq, pumpRest_lineBytes _ _ h]

/-- Settles O54: behind the lines the one run finds the terminator and the other an exhausted source. -/
theorem emptyLineSplitsTheStream : Obligations.EmptyLineSplitsTheStream := by
  intro s lines rest hp henv hret hd hwf hlb hlines hq
  obtain ⟨t, _, n, ht, hpumped, htrace, hrest⟩ := exec_pumpOnce_lineBytes hp henv hret hd hwf hlb hlines hq
  have hq' : ({ s with srcs := s.srcs.set s.srcId (lineBytes hw lines) } : State).srcQueue = lineBytes hw lines ++ [] :=
    (Queues.get_set_self hwf _ _).trans (List.append_nil _).symm
  obtain ⟨u, _, n', hu, -, hutrace, hurest⟩ :=
    exec_pumpOnce_lineBytes (s := { s with srcs := s.srcs.set s.srcId (lineBytes hw lines) }) hp henv hret hd
      (Queues.set_wf hwf _ _) hlb hlines hq'
  rw [pumpEvents_term] at htrace
  rw [pumpRest_term] at hrest
  rw [pumpEvents_nil] at hutrace
  rw [pumpRest_nil] at hurest
  refine ⟨t, u, ht, htrace, hpumped.busy, hpumped.pstate, hpumped.lbLen, hrest, hu, ?_, ?_, hurest⟩
  · simp only [State.dispLog, hutrace, htrace, List.filterMap_append]
    rfl
  · simp only [State.errLog, hutrace, htrace, List.filterMap_append]
    rfl

/-! ### The logs of complete lines -/

theorem filterMap_byteReads_append {β : Type} {f : Event → Option β} (hf : ∀ i answer, f (.srcRead i answer) = none)
    (i : SrcId) (bytes : List Byte) (events : List Event) :
    (byteReads i bytes ++ events).filterMap f = events.filterMap f := by
  have hreads : (byteReads i bytes).filterMap f = [] := by
    simp [byteReads, List.filterMap_map, hf]
  rw [List.filterMap_append, hreads, List.nil_append]

/-- Lines that decode, with a registered handler: what stands in `disp_log` are their messages in order, and nothing stands
in `err_log` (R215, R227). -/
theorem logs_completeLineEvents {h : HndId} {decoded : List (Line × Message)}
    (hm : ∀ p ∈ decoded, decodeLine hw (p.1.take hw.lineCap) = .ok p.2) :
    (completeLineEvents i (some h) (decoded.map Prod.fst)).filterMap Event.dispEntry? =
        decoded.map (fun p => (h, p.2)) ∧
      (completeLineEvents i (some h) (decoded.map Prod.fst)).filterMap Event.errEntry? = [] := by
  induction decoded with
  | nil => exact ⟨rfl, rfl⟩
  | cons p decoded ih =>
    obtain ⟨hp, hrest⟩ := List.forall_mem_cons.1 hm
    obtain ⟨hdisp, herr⟩ := ih hrest
    have hevents : lineEvents (some h) (p.1.take hw.lineCap) = [.disp h p.2] := by simp only [lineEvents, hp]
    simp only [completeLineEvents, List.map_cons, List.flatMap_cons, hevents, List.append_assoc] at hdisp herr ⊢
    rw [filterMap_byteReads_append (fun _ _ => rfl), filterMap_byteReads_append (fun _ _ => rfl)]
    exact ⟨congrArg ((h, p.2) :: ·) hdisp, herr⟩

/-- Settles O28: three complete lines, and then an exhausted source. -/
theorem pumpDrainsThreeLines : Obligations.PumpDrainsThreeLines := by
  intro s l1 l2 l3 m1 m2 m3 hp henv hret hd hhnd hwf hlb h1 h2 h3 ht1 ht2 ht3 hq hm1 hm2 hm3
  have hlines : LinesProper [l1, l2, l3] := by simp [LinesProper, *]
  have hq' : s.srcQueue = lineBytes hw [l1, l2, l3] ++ [] := by simp [hq, lineBytes]
  obtain ⟨t, _, n, he, -, htrace, hrest⟩ := exec_pumpOnce_lineBytes (hp ▸ nofun) henv hret hd hwf hlb hlines hq'
  have hdecoded : ∀ p ∈ [(l1, m1), (l2, m2), (l3, m3)], decodeLine hw (p.1.take hw.lineCap) = .ok p.2 := by
    simpa using ⟨hm1, hm2, hm3⟩
  obtain ⟨hdisp, herr⟩ := logs_completeLineEvents (i := s.srcId) (h := s.hndId) hdecoded
  have hhandler : s.handler = some s.hndId := if_pos hhnd
  rw [pumpEvents_nil, hhandler] at htrace
  refine ⟨t, he, ?_, ?_, hrest.trans (pumpRest_nil n)⟩
  · rw [State.dispLog, htrace, List.filterMap_append, List.filterMap_append]
    exact (List.append_nil _).trans (congrArg (s.dispLog ++ ·) hdisp)
  · rw [State.errLog, htrace, List.filterMap_append, List.filterMap_append]
    exact (List.append_nil _).trans ((congrArg (s.errLog ++ ·) herr).trans (List.append_nil _))

/-! ### An empty line -/

/-- Settles O32: the first iteration finds no line and ends the call. -/
theorem emptyLineEndsTheCall : Obligations.EmptyLineEndsTheCall := by
  intro s rest hp henv hwf hq
  have hq' : s.accept.srcQueue = hw.term :: rest := hq
  have hhead : headLine hw s.accept.srcQueue = [] := by rw [hq', headLine_cons, if_pos rfl]
  have hiter := pumpIter_of_headLine_nil (s := s.accept) henv hwf rfl hhead
  rw [takeLine_of_quiet (s := s.accept) henv hwf, hhead, hq', afterLine_cons, readEvents_cons, if_pos rfl, if_pos rfl]
    at hiter
  refine ⟨_, exec_pumpOnce_of_stop (hp ▸ nofun) hiter, ?_, rfl, rfl, Queues.get_set_self hwf _ _, ?_, ?_, ?_⟩
  · simp
  · simp [State.dispLog, Event.dispEntry?]
  · simp [State.errLog, Event.errEntry?]
  · simp

end Sys2Proof.Machine
end

section
/-! How many `SrcRead()` calls a PUMP_ONCE makes while the environment is quiet: one per byte of the source, and at most two
that answer `none` (R224). -/

namespace Sys2Proof.Machine

variable {s : State} {n : Nat}

/-- READ_LINE calls `SrcRead()` once per byte it takes, and once more if it finds no terminator (R131, R132). -/
theorem length_srcEntry_readEvents (c : Params) (i : SrcId) (q : List Byte) :
    ((readEvents c i q).filterMap Event.srcEntry?).length + (afterLine c q).length =
      q.length + if c.term ∈ q then 0 else 1 := by
  induction q with
  | nil => simp [readEvents, Event.srcEntry?]
  | cons b q ih =>
    rw [readEvents_cons, afterLine_cons]
    by_cases hb : b = c.term
    · simp [hb, Event.srcEntry?, Nat.add_comm]
    · have hb' : ¬ c.term = b := fun he => hb he.symm
      simp only [hb, hb', if_false, List.mem_cons, false_or, List.length_cons, List.filterMap_cons, Event.srcEntry?]
      omega

theorem filterMap_srcEntry_lineEvents (handler : Option HndId) (line : Line) :
    (lineEvents handler line).filterMap Event.srcEntry? = [] := by
  unfold lineEvents
  split
  · rfl
  · rfl
  · rfl

theorem handleLine_srcLog (line : Line) (s : State) : (handleLine line s).srcLog = s.srcLog := by
  rw [State.srcLog, handleLine_trace, List.filterMap_append, filterMap_srcEntry_lineEvents, List.append_nil]
  rfl

theorem respond_srcLog (r : Response) (s : State) : (s.respond r).srcLog = s.srcLog := by
  rw [State.srcLog, State.respond_trace, List.filterMap_append]
  exact List.append_nil _

/-- Taking a line trades bytes of the source for calls, and a call more if it exhausts the source. -/
theorem takeLine_srcLog_of_quiet (henv : s.env = []) (hwf : s.srcs.wf) :
    (takeLine hw s).srcLog.length + (takeLine hw s).srcQueue.length =
      s.srcLog.length + s.srcQueue.length + if hw.term ∈ s.srcQueue then 0 else 1 := by
  have hcount := length_srcEntry_readEvents hw s.srcId s.srcQueue
  have hlog : (takeLine hw s).srcLog = s.srcLog ++ (readEvents hw s.srcId s.srcQueue).filterMap Event.srcEntry? := by
    rw [takeLine_of_quiet henv hwf]
    exact List.filterMap_append
  rw [takeLine_srcQueue_of_quiet henv hwf, hlog, List.length_append]
  omega

/-- The head of the loop with the environment quiet: each byte that left the source took one call, and after the call that
found the source exhausted there is none left (R224). -/
structure State.ReadsWithin (n : Nat) (s : State) : Prop where
  env : s.env = []
  srcs_wf : s.srcs.wf
  reads : s.srcLog.length + s.srcQueue.length ≤ n ∨ s.srcQueue = [] ∧ s.srcLog.length ≤ n + 1

/-- A line is taken with at most one call beyond those of its bytes. -/
theorem State.ReadsWithin.takeLine_le (h : s.ReadsWithin n) : (takeLine hw s).srcLog.length ≤ n + 2 := by
  have hcount := takeLine_srcLog_of_quiet h.env h.srcs_wf
  have hone : (if hw.term ∈ s.srcQueue then 0 else 1) ≤ 1 := by split <;> omega
  rcases h.reads with hle | ⟨hnil, hle⟩
  · omega
  · rw [hnil, List.length_nil] at hcount
    rw [hnil] at hone
    omega

/-- A line that is not empty came from a source that was not exhausted before. -/
theorem State.ReadsWithin.next (h : s.ReadsWithin n) (hl : headLine hw s.srcQueue ≠ []) (line : Line) :
    (handleLine line (takeLine hw s)).ReadsWithin n := by
  obtain ⟨henv, hwf⟩ := handleLine_takeLine_quiet line h.env h.srcs_wf
  have hcount := takeLine_srcLog_of_quiet h.env h.srcs_wf
  refine ⟨henv, hwf, ?_⟩
  rw [handleLine_srcQueue, handleLine_srcLog]
  rcases h.reads with hle | ⟨hnil, -⟩
  · by_cases hterm : hw.term ∈ s.srcQueue
    · rw [if_pos hterm] at hcount
      exact .inl (by omega)
    · rw [if_neg hterm] at hcount
      exact .inr ⟨(takeLine_srcQueue_of_quiet h.env h.srcs_wf).trans (afterLine_of_not_mem hw hterm), by omega⟩
  · exact absurd (by rw [hnil, headLine_nil]) hl

theorem pumpLoop_srcLog_le (k : Nat) (hb : s.busy = true) (h : s.ReadsWithin n) : (pumpLoop k s).srcLog.length ≤ n + 2 :=
  pumpLoop_ends (State.ReadsWithin n) (·.srcLog.length ≤ n + 2)
    (hbound := fun s h _ => by
      rcases h.reads with hle | ⟨-, hle⟩
      · show s.srcLog.length ≤ n + 2
        omega
      · exact Nat.le_succ_of_le hle)
    (habort := fun _ h _ _ => h.takeLine_le)
    (hdone := fun _ h _ _ _ => by
      rw [respond_srcLog]
      exact h.takeLine_le)
    (hheld := fun _ _ h _ _ _ ht _ => by
      rw [ht, handleLine_srcLog]
      exact h.takeLine_le)
    (hagain := fun _ _ h _ _ hl ht _ => ht ▸ h.next (mt (takeLine_lbLen_eq_zero_iff h.env h.srcs_wf).2 hl) _)
    k s hb h

/-- Settles O31: without a source there is no call, and with one every call beyond the bytes answers `none`. -/
theorem pumpReadsAtMostTwoMore : Obligations.PumpReadsAtMostTwoMore := by
  intro s t henv hwf he
  by_cases hp : s.pstate = .detached
  · rw [exec_pumpOnce_of_detached_spared hp (spared_one_of_nil henv), tick_of_quiet hw henv] at he
    cases he
    have hlog : (s.answered (.status .ok)).srcLog = s.srcLog := respond_srcLog _ s
    rw [hlog]
    omega
  · cases he
    rw [pumpOnce, if_neg (State.accept_pstate s ▸ hp)]
    exact pumpLoop_srcLog_le (s := s.accept) _ rfl ⟨henv, hwf, .inl (Nat.le_refl _)⟩

end Sys2Proof.Machine
end

section
/-! The configuration commands (`44_config_commands.md`): one moment, one register write and the RSP (R249), and what the
next PUMP_ONCE makes of the register: the source it reads (R240), its being a no-op (R242) and the handler it dispatches to
(R246). -/

namespace Sys2Proof.Machine

variable {s t : State} {c : Params} {trace : List Event} {callback : HndId}

/-! ### The one action of a configuration command -/

/-- A one-byte operand is its own encoding (log 1). -/
theorem natBytes_one_toNat (v : Byte) : natBytes 1 v.toNat = [v] := by simp [natBytes]

/-- A command of one action that no reset strikes: its moment, and then the action (R249, log 4). -/
theorem next_accept_act_of_spared (f : State → State) (h : s.Spared 1) :
    (.next (s.accept.act hw f) : Host.Outcome State Fault Refusal) = .next (f (s.tick hw).accept) :=
  congrArg Host.Outcome.next (accept_act_of_spared hw f h)

/-- Settles O1: its one action is the RSP. -/
theorem nopChangesNothing : Obligations.NopChangesNothing := ⟨rfl, fun _ => next_accept_act_of_spared _⟩

/-- Settles O3: a detached PUMP_ONCE has no action but its RSP. -/
theorem detachSourceMakesThePumpANoOp : Obligations.DetachSourceMakesThePumpANoOp :=
  ⟨rfl, fun _ => next_accept_act_of_spared _, fun _ => exec_pumpOnce_of_detached_spared⟩

/-- Settles O4: its one action is the write of `defsrc` and the RSP. -/
theorem setDefaultSourceAddressWritesDefsrc : Obligations.SetDefaultSourceAddressWritesDefsrc := fun addr _ =>
  ⟨congrArg (3 :: ·) (natBytes_one_toNat addr), next_accept_act_of_spared _⟩

/-! ### The source the next PUMP_ONCE reads

A READ_LINE on a quiet environment makes its `SrcRead()` calls whatever form the queues have. -/

theorem readQuiet_trace (c : Params) (q : List Byte) (s : State) :
    (readQuiet c q s).trace = s.trace ++ readEvents c s.srcId q := by
  induction q generalizing s with
  | nil => simp [readQuiet, readEvents]
  | cons b q ih =>
    rw [readQuiet, readEvents_cons]
    split
    · rfl
    · rw [ih, State.storeByte_trace, State.storeByte_srcId, State.srcTake_trace, State.srcTake_srcId, List.append_assoc,
        List.singleton_append]

theorem takeLine_trace_of_quiet (henv : s.env = []) :
    (takeLine c s).trace = s.trace ++ readEvents c s.srcId s.srcQueue := by
  rw [takeLine, moment_trace, readLine, State.startLine_env, henv]
  exact readQuiet_trace c _ _

/-- READ_LINE calls `SrcRead()` at least once (R131, R132). -/
theorem readEvents_eq_cons (c : Params) (i : SrcId) (q : List Byte) :
    ∃ answer rest, readEvents c i q = .srcRead i answer :: rest := by
  cases q with
  | nil => exact ⟨none, [], by simp [readEvents]⟩
  | cons b q => exact ⟨some b, _, readEvents_cons c i b q⟩

/-- What stands in the trace stays there. -/
theorem channelProperty_prefix (trace : List Event) : ChannelProperty (trace <+: ·.trace) where
  congr := fun h _ _ htrace => htrace ▸ h
  tick := fun {s} h => (tick_trace hw s).symm ▸ h
  event := fun _ h _ => h.trans (List.prefix_append _ _)

/-- A loop that makes an attempt begins with what taking a line does on the channels. -/
theorem takeLine_trace_prefix_pumpLoop (n : Nat) : (takeLine hw s).trace <+: (pumpLoop (n + 1) s).trace := by
  have hgrows := channelProperty_prefix (takeLine hw s).trace
  have hline := hgrows.handleLine (takeLine hw s).candidate List.prefix_rfl
  rw [pumpLoop]
  rcases pumpIter_cases s with ⟨-, he⟩ | ⟨-, -, he⟩ | ⟨-, -, t, rfl, ⟨-, he⟩ | ⟨-, he⟩⟩
  · rw [he]
  · rw [he]; exact List.prefix_append _ _
  · rw [he]; exact hline
  · rw [he]
    exact pumpLoop_keeps ((takeLine hw s).trace <+: ·.trace)
      (hread := fun _ h => hgrows.takeLine h)
      (hdone := fun _ h _ _ => h.trans (List.prefix_append _ _))
      (hline := fun _ h _ _ => hgrows.handleLine _ h)
      n _ hline

/-- The first thing a PUMP_ONCE with nothing scheduled does on a channel is a `SrcRead()` on the attached source. -/
theorem exec_pumpOnce_reads_first (hp : s.pstate ≠ .detached) (henv : s.env = []) :
    ∃ t answer rest, exec .pumpOnce s = .next t ∧ t.trace = s.trace ++ .srcRead s.srcId answer :: rest := by
  obtain ⟨answer, reads, hreads⟩ := readEvents_eq_cons hw s.srcId s.srcQueue
  have htake : (takeLine hw s.accept).trace = s.trace ++ .srcRead s.srcId answer :: reads :=
    (takeLine_trace_of_quiet (s := s.accept) henv).trans (congrArg (s.trace ++ ·) hreads)
  obtain ⟨later, hlater⟩ := takeLine_trace_prefix_pumpLoop (s := s.accept) _
  rw [htake, List.append_assoc, List.cons_append] at hlater
  refine ⟨pumpOnce s.accept, answer, reads ++ later, rfl, ?_⟩
  rw [pumpOnce, if_neg (State.accept_pstate s ▸ hp)]
  exact hlater.symm

/-- Settles O2: the register writes leave a source attached, and a PUMP_ONCE then begins with a read of it. -/
theorem attachSourceSelectsTheSource : Obligations.AttachSourceSelectsTheSource := fun source s =>
  ⟨congrArg (1 :: ·) (natBytes_one_toNat source), next_accept_act_of_spared _,
    exec_pumpOnce_reads_first (s := { s with srcId := source, pstate := .idle }.answered (.status .ok))
      (fun h : PState.idle = .detached => nomatch h)⟩

/-! ### The handler messages are dispatched to -/

/-- The trace has grown from `trace`, and whatever was dispatched since went to `callback`. -/
def State.DispatchedTo (trace : List Event) (callback : HndId) (s : State) : Prop :=
  ∃ events, s.trace = trace ++ events ∧ ∀ h m, Event.disp h m ∈ events → h = callback

theorem State.DispatchedTo.refl (s : State) (callback : HndId) : s.DispatchedTo s.trace callback :=
  ⟨[], (List.append_nil _).symm, fun _ _ h => absurd h List.not_mem_nil⟩

theorem State.DispatchedTo.congr (h : s.DispatchedTo trace callback) (htrace : t.trace = s.trace) :
    t.DispatchedTo trace callback := by
  obtain ⟨events, he, hdisp⟩ := h
  exact ⟨events, htrace.trans he, hdisp⟩

theorem State.DispatchedTo.event (h : s.DispatchedTo trace callback) {e : Event}
    (htrace : t.trace = s.trace ++ [e]) (he : ∀ h m, e = .disp h m → h = callback) : t.DispatchedTo trace callback := by
  obtain ⟨events, hevents, hdisp⟩ := h
  refine ⟨events ++ [e], by rw [htrace, hevents, List.append_assoc], fun h m hin => ?_⟩
  rcases List.mem_append.1 hin with hin | hin
  · exact hdisp h m hin
  · exact he h m (List.mem_singleton.1 hin).symm

/-- Taking a line dispatches nothing. -/
theorem State.DispatchedTo.takeLine (h : s.DispatchedTo trace callback) : (takeLine hw s).DispatchedTo trace callback :=
  takeLine_keeps_any hw (State.DispatchedTo trace callback)
    (htick := fun tick ticks u h _ => h.congr (envTick_trace hw tick (u.setEnv ticks)))
    (htake := fun _ _ _ h => h.event rfl fun _ _ => nofun)
    (hnone := fun _ h => h.event rfl fun _ _ => nofun)
    (hstore := fun b u h => h.congr (State.storeByte_trace u hw b))
    (hterm := fun _ h => h)
    (hend := fun _ h => h)
    s h

/-- Handling a line dispatches to the handler in `hnd_id` (R66). -/
theorem State.DispatchedTo.handleLine (line : Line) (hhnd : s.hndId = callback) (h : s.DispatchedTo trace callback) :
    (handleLine line s).DispatchedTo trace callback :=
  (handleLine_keeps (fun u => u.hndId = callback ∧ u.DispatchedTo trace callback) line
    (hstage := fun _ _ _ h => h)
    (hdisp := fun _ _ _ ⟨hhnd, h⟩ _ => ⟨hhnd, h.event rfl fun _ _ he => (Event.disp.inj he).1.symm.trans hhnd⟩)
    (hrep := fun _ _ _ ⟨hhnd, h⟩ => ⟨hhnd, h.event rfl fun _ _ => nofun⟩)
    s ⟨hhnd, h⟩).2

/-- Under any schedule without a reset a PUMP_ONCE dispatches to `hnd_id` only: no part of it writes that register (R75). -/
theorem exec_pumpOnce_dispatchedTo (hreset : s.NoReset) (he : exec .pumpOnce s = .next t) :
    t.DispatchedTo s.trace s.hndId := by
  by_cases hp : s.pstate = .detached
  · rw [exec_pumpOnce_of_detached_spared hp (hreset.spared 1)] at he
    cases he
    exact (State.DispatchedTo.refl s s.hndId).event (congrArg (· ++ _) (tick_trace hw s)) fun _ _ => nofun
  · cases he
    rw [pumpOnce, if_neg (State.accept_pstate s ▸ hp)]
    exact (pumpLoop_keeps (fun u => (s.KeepsConfig u ∧ u.pstate ≠ .detached) ∧ u.DispatchedTo s.trace s.hndId)
      (hread := fun _ ⟨⟨hconfig, hp⟩, h⟩ => ⟨takeLine_keepsConfig hconfig hp, h.takeLine⟩)
      (hdone := fun _ ⟨⟨hconfig, hp⟩, h⟩ _ _ => ⟨⟨{ hconfig with }, hp⟩, h.event rfl fun _ _ => nofun⟩)
      (hline := fun u ⟨⟨hconfig, hp⟩, h⟩ _ _ =>
        ⟨⟨handleLine_keepsConfig _ hconfig, (handleLine_pstate _ u).symm ▸ hp⟩, h.handleLine _ hconfig.hndId⟩)
      _ s.accept ⟨⟨{ State.KeepsConfig.refl hreset with }, hp⟩, .refl s s.hndId⟩).2

/-- Settles O5: the whole event list of a quiet PUMP_ONCE, the dispatches of any other, and LINE. -/
theorem setHandlerRegistersTheHandler : Obligations.SetHandlerRegistersTheHandler := by
  refine fun callback s => ⟨congrArg (4 :: ·) (natBytes_one_toNat callback), next_accept_act_of_spared _, ?_, ?_, ?_⟩
  · rintro t hset rfl hp henv hret hd hwf hlb
    obtain ⟨u, he, h⟩ := exec_pumpOnce_pumpedTo hp henv hret hd hwf hlb
    have hhandler : t.handler = some t.hndId := if_pos hset
    exact ⟨u, he, hhandler ▸ h.trace⟩
  · rintro t u - rfl hreset he
    exact exec_pumpOnce_dispatchedTo hreset he
  · rintro t text m hset rfl hp htext hm
    exact ⟨_, exec_line_of_line hp htext, congrArg State.trace (handleLine_of_ok_registered hm hset)⟩

end Sys2Proof.Machine
end

section
/-! The codes of R26 and R260: which values have the codes that the statement allows, and which responses are legal (R220,
R263). The invariant then says what a step can leave on ERR, on RSP and in `pstate`.
Bytes that no well-formed command encodes to are those the decoder of commands does not read whole (R107), so that an idle
block refuses them (R275). -/

namespace Sys2Proof.Machine

/-! ### Codes -/

/-- `OK` alone has the code 0 (R260). -/
theorem Status.one_le_code_iff {status : Status} : 1 ≤ status.code.toNat ↔ status ≠ .ok := by
  cases status <;> decide

/-- `NoSource` alone has a code above 4 (R260, R263). -/
theorem Status.code_le_four_iff {status : Status} : status.code.toNat ≤ 4 ↔ status ≠ .noSource := by
  cases status <;> decide

/-- `ACCUMULATING` alone has a code above 1 (R26). -/
theorem PState.code_le_one_iff {p : PState} : p.code.toNat ≤ 1 ↔ p ≠ .accumulating := by
  cases p <;> decide

/-! ### What stands on the channels -/

/-- No form of a legal response carries `NoSource` (R263): a message is delivered with `OK`, a text with `OK` or
`OverflowOnEncode`. -/
theorem Response.code_ne_noSource_of_legal {r : Response} (h : (Event.rsp r).Legal) : r.code ≠ .noSource := by
  cases r with
  | status code => exact h.1
  | message m => exact nofun
  | encoded code len text =>
    obtain ⟨rfl | rfl, -⟩ := h
    · exact nofun
    · exact nofun

/-- Settles O56: a step keeps the invariant, and the invariant keeps the other codes off the channels. -/
theorem codesOnTheChannels : Obligations.CodesOnTheChannels := by
  refine ⟨⟨rfl, rfl, rfl, rfl, rfl, rfl⟩, ⟨rfl, rfl, rfl⟩, fun s t hs hstep => ?_⟩
  have ht : t.Inv := stepKeepsTheInvariant s t hs hstep
  refine ⟨fun status herr => ?_, fun r hrsp => ?_, PState.code_le_one_iff.2 ht.pstate_settled⟩
  · obtain ⟨hok, hsource⟩ := ht.trace_legal _ herr
    exact ⟨Status.one_le_code_iff.2 hok, Status.code_le_four_iff.2 hsource⟩
  · exact Status.code_le_four_iff.2 (Response.code_ne_noSource_of_legal (ht.trace_legal _ hrsp))

/-! ### An idle block -/

/-- Bytes that the decoder of commands reads whole are a command (R107). -/
theorem isCommand_of_decodeCommand {bytes : List Byte} {i : Instr} (h : decodeCommand bytes = .ok (i, [])) :
    IsCommand bytes := by
  obtain ⟨hbytes, hwf, hline⟩ := commandsHaveOneEncoding bytes [] i h
  exact ⟨i, hwf, hline, by rw [hbytes, List.append_nil]⟩

/-- Settles O41: of the three things a block without a command can do, what stands on CMD leaves one. -/
theorem idleBlockWaits : Obligations.IdleBlockWaits := by
  intro s hb
  rcases step_of_not_busy hb with ⟨hnil, hwait⟩ | ⟨bytes, rest, hcons, hcmd⟩
  · exact ⟨fun _ => hwait, fun _ _ hq => absurd (hnil.symm.trans hq) nofun⟩
  · refine ⟨fun hq => absurd (hcons.symm.trans hq) nofun, fun bytes' rest' hq hnot => ?_⟩
    obtain ⟨rfl, rfl⟩ := List.cons.inj (hcons.symm.trans hq)
    rcases hcmd with ⟨i, hi, -⟩ | ⟨-, hrefused⟩
    · exact absurd (isCommand_of_decodeCommand hi) hnot
    · exact hrefused

end Sys2Proof.Machine
end

section
/-! ENCODE when its text is cut: at the capacity, where what is left is still a line (R186, R318), and by a reset, which
leaves the first bytes of it in ENC (R193, R300, R301). -/

namespace Sys2Proof.Machine

variable {s : State} {m : Memory} {n : Nat}

/-! ### A text that the capacity cuts -/

theorem encodeStatus_eq_overflowOnEncode_iff {ovf : Bool} : encodeStatus ovf = .overflowOnEncode ↔ ovf = true := by
  cases ovf <;> decide

/-- Settles O24: the text is the header of the message and the digits of the payload that was written, which DECODE reads
back. -/
theorem truncatedTextIsAValidLine : Obligations.TruncatedTextIsAValidLine := by
  intro m capacity s hcap hwf hs
  refine ⟨_, _, _, _, exec_encode_of_spared m capacity hwf hs, List.getLast?_concat, ?_, ?_⟩
  · rw [encodeStatus_eq_overflowOnEncode_iff, decide_eq_true_iff]
  · rw [encodedText_of_le hw m hcap]
    exact decodeLine_headerText (c := hw) rfl (cutMessage m ((capacity.toNat - 25) / 2))

/-! ### A text that a reset cuts -/

/-- Of bytes that are written one after the other the first `n` are in place, whatever becomes of the others. -/
theorem Memory.read_writeBytes_take (hwf : m.wf) (bs : List Byte) (n a : Nat) :
    (m.writeBytes 0 (bs.take n)).read a = if a < min n bs.length then (m.writeBytes 0 bs).read a else m.read a := by
  have hlen : (bs.take n).length = min n bs.length := List.length_take
  split
  · next ha =>
    have hbyte : ∀ {vs : List Byte} (h : a < vs.length), (m.writeBytes 0 vs).read a = vs[a] := fun h => by
      simpa only [Nat.zero_add] using Memory.read_writeBytes hwf 0 _ h
    rw [hbyte (hlen ▸ ha), hbyte (by omega), List.getElem_take]
  · exact Memory.read_writeBytes_of_not_mem _ _ _ (.inr (by omega))

/-- The registers after moments the last of which holds a reset (R40). -/
theorem ticks_of_struck (c : Params) (hs : (s.ticks c n).Struck) :
    (s.ticks c (n + 1)).pstate = .detached ∧ (s.ticks c (n + 1)).busy = false ∧ (s.ticks c (n + 1)).hndSet = false ∧
      (s.ticks c (n + 1)).lbLen = 0 ∧ (s.ticks c (n + 1)).dispTx = none := by
  rw [ticks_add]
  exact tick_of_struck c hs

/-- Settles O59: the writes that came before the reset are the first ones of the undisturbed run. -/
theorem resetCutsEncodeShort : Obligations.ResetCutsEncodeShort := by
  intro m capacity s n hwf hspared hstruck hn
  have hquiet : ({ s with env := [] } : State).Spared (encodeMoments m.plen capacity.toNat) :=
    State.NoReset.spared (noReset_of_quiet rfl) _
  have hwritten : (encodedBytes hw m capacity.toNat).length = storedBytes m.plen capacity.toNat := by
    rw [← length_encodeText_writes (c := hw) rfl m, encodeText_eq_encodedBytes (c := hw) rfl, length_placed]
  have hcut := encodeCommandResult_of_struck m capacity hspared hstruck hn
  rw [encodeText_eq_encodedBytes (c := hw) rfl, take_placed, writeAll_placed] at hcut
  refine ⟨_, _, exec_encode_of_spared (s := { s with env := [] }) m capacity hwf hquiet, congrArg Host.Outcome.next hcut,
    fun a => ?_, rfl, rfl, ticks_of_struck hw hstruck⟩
  rw [← hwritten]
  exact Memory.read_writeBytes_take hwf _ n a

end Sys2Proof.Machine
end

section
/-! A reset at the first moment of a command (R300): whatever the command is, it has done nothing yet. -/

namespace Sys2Proof.Machine

variable {s u : State}

/-- A reset before a `SrcRead()` ends READ_LINE there. -/
theorem readTicks_of_struck (c : Params) (h : u.Struck) : readTicks c u.env u = u.tick c := by
  have hb := (tick_of_struck c h).2.1
  obtain ⟨tick, ticks, henv, -⟩ := h
  simp only [State.tick, henv] at hb ⊢
  simp only [readTicks, hb, Bool.false_eq_true, if_false]

/-- A reset before the first `SrcRead()` leaves nothing of what the head of the pump's loop has done. -/
theorem takeLine_of_struck (c : Params) (h : s.Struck) : takeLine c s = s.tick c := by
  have hhead : s.startLine.clearTerm.tick c = s.tick c := by
    obtain ⟨tick, ticks, henv, hreset⟩ := h
    simp only [State.tick, State.clearTerm_env, State.startLine_env, henv]
    exact envTick_of_reset c hreset (s.setEnv ticks) _ _ _
  have hread : readLine c s.startLine = s.tick c := (readTicks_of_struck (u := s.startLine.clearTerm) c h).trans hhead
  rw [takeLine, hread, State.moment, (tick_of_struck c h).2.1, if_neg Bool.false_ne_true]

/-- The iteration of an aborted PUMP_ONCE (R300). -/
theorem pumpIter_of_aborted (hr : (takeLine hw s).busy = false) : pumpIter s = .stop (takeLine hw s) := by
  simp only [pumpIter, hr, Bool.not_false, if_true]

/-- A command whose first moment holds a reset is that moment. -/
theorem exec_of_struck {i : Instr} (hline : ∀ text, i ≠ .line text) (h : s.Struck) : exec i s = .next (s.tick hw) := by
  have hact := fun f => congrArg (Host.Outcome.next (φ := Fault) (ρ := Refusal)) (accept_act_of_struck hw f h)
  cases i with
  | nop | attachSource | detachSource | setDefaultSourceAddress | setHandler | decode => exact hact _
  | pumpOnce =>
    by_cases hp : s.pstate = .detached
    · exact exec_pumpOnce_of_detached_struck hp h
    · have htake : takeLine hw s.accept = s.tick hw :=
        (takeLine_of_struck (s := s.accept) hw h).trans (tick_accept_of_struck hw h)
      have hiter := pumpIter_of_aborted (s := s.accept) (by rw [htake]; exact (tick_of_struck hw h).2.1)
      exact exec_pumpOnce_of_stop hp (hiter.trans (congrArg PumpStep.stop htake))
  | encode m capacity =>
    have hfirst : 0 < encodeMoments m.plen capacity.toNat := by
      unfold encodeMoments
      split <;> omega
    have hnothing := encodeCommandResult_of_struck (n := 0) m capacity (by simp [State.Spared]) h hfirst
    rw [List.take_zero, if_pos (Nat.zero_le _), List.append_nil] at hnothing
    exact congrArg Host.Outcome.next (hnothing.trans (by rw [← tick_trace hw s, ← tick_enc hw s]; rfl))
  | line text => exact absurd rfl (hline text)

/-- Settles O58: the first moment of every command comes before anything it does. -/
theorem resetAbortsEveryCommand : Obligations.ResetAbortsEveryCommand := by
  intro i s hline h
  obtain ⟨pstate, busy, hndSet, lbLen, dispTx⟩ := tick_of_struck hw h
  exact ⟨_, exec_of_struck hline h, rfl, pstate, busy, hndSet, lbLen, dispTx, tick_trace hw s, tick_enc hw s⟩

end Sys2Proof.Machine
end

section
/-! What is reported on ERR (R68): by the pump, where the Line Buffer keeps every line short enough for DECODE (R312), and by
a step (R225, R190). -/

namespace Sys2Proof.Machine

variable {s t : State} {i : Instr} {line text : Line} {allowed : Status → Prop} {trace : List Event}

/-! ### The codes -/

/-- The codes that the pump reports (R312). -/
def PumpError (code : Status) : Prop := code = .invalidStart ∨ code = .tooShort

/-- The codes that an instruction reports: those of the pump, and the overflow of an ENCODE (R190, R225). -/
def Reports (i : Instr) (code : Status) : Prop :=
  code = .invalidStart ∨ code = .tooShort ∨ code = .overflowOnEncode ∧ ∃ m capacity, i = .encode m capacity

theorem PumpError.reports {code : Status} (h : PumpError code) : Reports i code := h.imp_right .inl

/-- Only an ENCODE reports another code than the pump. -/
theorem Reports.pumpError {code : Status} (h : Reports i code) (hi : ∀ m capacity, i ≠ .encode m capacity) :
    PumpError code :=
  h.imp_right fun h => h.resolve_right fun ⟨_, m, capacity, he⟩ => hi m capacity he

/-- A line that fits the Line Buffer has at most 138 pairs, so the bound of R158 does not fail (R312). -/
theorem pumpError_of_decodeLine {e : DecodeError} (hlen : line.length ≤ hw.lineCap) (h : decodeLine hw line = .err e) :
    PumpError e.status := by
  have hcap : hw.lineCap = 300 := rfl
  have hmax : hw.maxPayload = 223 := rfl
  have hfits : pairCount line.length ≤ hw.maxPayload := by
    unfold pairCount
    omega
  rw [decodeLine_eq, dif_pos hfits] at h
  split at h
  · split at h
    · cases h; exact .inr rfl
    · cases h
  · cases h; exact .inl rfl

/-! ### The ERR events since a moment -/

/-- The trace has grown from `trace`, and every ERR event since carries an allowed code. -/
def State.Reported (allowed : Status → Prop) (trace : List Event) (s : State) : Prop :=
  ∃ events, s.trace = trace ++ events ∧ ∀ code, Event.err code ∈ events → allowed code

theorem State.Reported.refl (s : State) (allowed : Status → Prop) : s.Reported allowed s.trace :=
  ⟨[], (List.append_nil _).symm, fun _ h => absurd h List.not_mem_nil⟩

theorem State.Reported.congr (h : s.Reported allowed trace) (htrace : t.trace = s.trace) : t.Reported allowed trace := by
  obtain ⟨events, he, herr⟩ := h
  exact ⟨events, htrace.trans he, herr⟩

theorem State.Reported.event (h : s.Reported allowed trace) {e : Event} (htrace : t.trace = s.trace ++ [e])
    (he : ∀ code, e = .err code → allowed code) : t.Reported allowed trace := by
  obtain ⟨events, hevents, herr⟩ := h
  refine ⟨events ++ [e], by rw [htrace, hevents, List.append_assoc], fun code hin => ?_⟩
  rcases List.mem_append.1 hin with hin | hin
  · exact herr code hin
  · exact he code (List.mem_singleton.1 hin).symm

theorem State.Reported.mono (h : s.Reported allowed trace) {allowed' : Status → Prop}
    (himp : ∀ code, allowed code → allowed' code) : s.Reported allowed' trace := by
  obtain ⟨events, hevents, herr⟩ := h
  exact ⟨events, hevents, fun code hin => himp code (herr code hin)⟩

theorem State.Reported.tick (h : s.Reported allowed trace) : (s.tick hw).Reported allowed trace := h.congr (tick_trace hw s)

theorem State.Reported.respond (h : s.Reported allowed trace) (r : Response) : (s.respond r).Reported allowed trace :=
  h.event rfl fun _ => nofun

/-- One action of a command that reports nothing itself: it changes other things than the trace, and answers. -/
theorem State.Reported.answer (h : s.Reported allowed trace) {f : State → State}
    (hf : ∀ u, ∃ r, (f u).trace = u.trace ++ [.rsp r]) : (s.act hw f).Reported allowed trace :=
  act_keeps hw (State.Reported allowed trace) f (fun _ h => h.tick)
    (fun u h _ => by
      obtain ⟨r, hr⟩ := hf u
      exact h.event hr fun _ => nofun) s h

/-! ### The parts of a PUMP_ONCE -/

/-- Taking a line reports nothing. -/
theorem State.Reported.takeLine (h : s.Reported allowed trace) : (takeLine hw s).Reported allowed trace :=
  takeLine_keeps_any hw (State.Reported allowed trace)
    (htick := fun tick ticks u h _ => h.congr (envTick_trace hw tick (u.setEnv ticks)))
    (htake := fun _ _ _ h => h.event rfl fun _ => nofun)
    (hnone := fun _ h => h.event rfl fun _ => nofun)
    (hstore := fun b u h => h.congr (State.storeByte_trace u hw b))
    (hterm := fun _ h => h)
    (hend := fun _ h => h)
    s h

/-- Whatever form the queues have, no more is taken than the Line Buffer keeps (R33, R134). -/
theorem takeLine_lbLen_le (s : State) : (takeLine hw s).lbLen ≤ hw.lineCap :=
  takeLine_keeps_any hw (·.lbLen ≤ hw.lineCap)
    (htick := fun _ _ _ h _ => envTick_lbLen_le h)
    (htake := fun _ _ _ h => h)
    (hnone := fun _ h => h)
    (hstore := fun b _ h => storeByte_lbLen_le_lineCap b h)
    (hterm := fun _ h => h)
    (hend := fun _ h => h)
    s (Nat.zero_le _)

/-- Handling a line that fits the Line Buffer. -/
theorem State.Reported.handleLine (h : s.Reported allowed trace) (hlen : line.length ≤ hw.lineCap)
    (hallowed : ∀ code, PumpError code → allowed code) : (handleLine line s).Reported allowed trace :=
  handleLine_keeps (State.Reported allowed trace) line
    (hstage := fun _ _ _ h => h)
    (hdisp := fun _ _ _ h _ => h.event rfl fun _ => nofun)
    (hrep := fun _ _ he h => h.event rfl fun _ hcode =>
      Event.err.inj hcode ▸ hallowed _ (pumpError_of_decodeLine hlen he))
    s h

/-- Handling the line that was taken. -/
theorem State.Reported.candidate (h : s.Reported allowed trace) (hallowed : ∀ code, PumpError code → allowed code) :
    (Machine.handleLine (Machine.takeLine hw s).candidate (Machine.takeLine hw s)).Reported allowed trace :=
  h.takeLine.handleLine (candidate_length _ ▸ takeLine_lbLen_le s) hallowed

theorem State.Reported.pumpOnce (h : s.Reported allowed trace) (hallowed : ∀ code, PumpError code → allowed code)
    (hb : s.busy = true) : (pumpOnce s).Reported allowed trace := by
  unfold Machine.pumpOnce
  split
  · exact h.answer fun _ => ⟨_, rfl⟩
  · exact pumpLoop_ends (State.Reported allowed trace) (State.Reported allowed trace)
      (hbound := fun _ h _ => h)
      (habort := fun _ h _ _ => h.takeLine)
      (hdone := fun _ h _ _ _ => h.takeLine.respond _)
      (hheld := fun _ _ h _ _ _ ht _ => ht ▸ h.candidate hallowed)
      (hagain := fun _ _ h _ _ _ ht _ => ht ▸ h.candidate hallowed)
      _ s hb h

/-! ### Every instruction and every step -/

/-- What an instruction adds to ERR (R225, R281, R282). -/
theorem exec_reported (he : exec i s = .next t) (h : s.Reported (Reports i) trace) : t.Reported (Reports i) trace := by
  have ha : s.accept.Reported (Reports i) trace := h
  cases i with
  | nop | attachSource | detachSource | setDefaultSourceAddress | setHandler =>
    cases he
    exact ha.answer fun _ => ⟨_, rfl⟩
  | pumpOnce => cases he; exact ha.pumpOnce (fun _ => PumpError.reports) rfl
  | decode line =>
    cases he
    refine ha.answer fun u => ?_
    unfold decodeCommandResult
    split
    · exact ⟨_, rfl⟩
    · exact ⟨_, rfl⟩
  | encode m capacity =>
    cases he
    exact encodeCommandResult_ends (State.Reported _ trace) (State.Reported _ trace) m capacity
      (htick := fun _ h => h.tick)
      (hput := fun _ _ _ h => h)
      (hreport := fun _ h => h.event rfl fun _ hcode => Event.err.inj hcode ▸ .inr (.inr ⟨rfl, m, capacity, rfl⟩))
      (habort := fun _ h _ => h)
      (hdone := fun _ _ h _ _ => h.respond _)
      _ ha
  | line text =>
    by_cases hline : s.pstate = .detached ∨ text = []
    · rw [exec_line_of_no_line hline] at he
      cases he
      exact h
    · obtain ⟨hp, htext⟩ := not_or.1 hline
      rw [exec_line_of_line hp htext] at he
      cases he
      exact h.handleLine (List.length_take_le _ _) fun _ => PumpError.reports

/-- What a step adds to ERR: that of its instruction, if it runs one. -/
theorem step_reported (hstep : step s = .next t) :
    t.Reported PumpError s.trace ∨
      (s.tick hw).busy = false ∧ ∃ m capacity rest, (s.tick hw).cmdq = encode (.encode m capacity) :: rest ∧
        t.Reported (Reports (.encode m capacity)) s.trace := by
  have hu : (s.tick hw).Reported PumpError s.trace := (State.Reported.refl s _).tick
  have htake := hu.takeLine
  rcases step_cases s with ⟨-, -, he⟩ | ⟨-, -, -, he⟩ | ⟨-, -, -, hline⟩ | ⟨-, -, he⟩ | ⟨hb, bytes, rest, hq, hcmd⟩
  · cases he.symm.trans hstep; exact .inl hu
  · cases he.symm.trans hstep; exact .inl (hu.respond _)
  · rcases hline with ⟨-, he⟩ | ⟨-, -, he⟩ | ⟨-, -, he⟩
    · cases he.symm.trans hstep; exact .inl htake
    · cases he.symm.trans hstep; exact .inl (htake.respond _)
    · have hreports := exec_reported (he.symm.trans hstep) (htake.mono fun _ => PumpError.reports)
      exact .inl (hreports.mono fun _ h => h.pumpError (fun _ _ => nofun))
  · cases he.symm.trans hstep; exact .inl hu
  · rcases hcmd with ⟨i, hi, he⟩ | ⟨-, e, he⟩
    · have hreports : t.Reported (Reports i) s.trace :=
        exec_reported (he.symm.trans hstep) (hu.mono fun _ => PumpError.reports)
      by_cases hencode : ∃ m capacity, i = .encode m capacity
      · obtain ⟨m, capacity, rfl⟩ := hencode
        obtain ⟨hbytes, -, -⟩ := commandsHaveOneEncoding bytes [] _ hi
        exact .inr ⟨hb, m, capacity, rest, by rw [hq, hbytes, List.append_nil], hreports⟩
      · exact .inl (hreports.mono fun _ h => h.pumpError fun m capacity h' => hencode ⟨m, capacity, h'⟩)
    · cases he.symm.trans hstep

/-- Settles O33: PUMP_ONCE is no ENCODE, and a step runs one only if it stands on CMD. -/
theorem pumpReportsOnlyTwoErrors : Obligations.PumpReportsOnlyTwoErrors := by
  refine ⟨fun s t he => (exec_reported he (.refl s _)).mono fun _ h => h.pumpError (fun _ _ => nofun),
    fun s t hstep => ?_⟩
  rcases step_reported hstep with h | ⟨hb, m, capacity, rest, hq, h⟩
  · exact h.mono fun _ hcode => hcode.imp_right .inl
  · exact h.mono fun _ hcode => hcode.imp_right (Or.imp_right fun ⟨hoverflow, _⟩ => ⟨hoverflow, hb, m, capacity, rest, hq⟩)

end Sys2Proof.Machine
end

section
/-! A reset inside a PUMP_ONCE (R300, R301). Every byte, every line and the end of a READ_LINE comes after moments of its own
(log 4), so that the number of moments before the reset says how far the command has come: the lines before are handled, the
bytes of the line in progress are lost, and what was not read stays in the source. -/

namespace Sys2Proof.Machine

variable {s t u : State} {n : Nat} {taken rest l read q : List Byte} {events : List Event} {b : Byte}
  {lines : List Line} {before later : List Tick}

/-! ### A running PUMP_ONCE, moment by moment -/

/-- `u` is a moment of the PUMP_ONCE that runs in `s`, after `n` moments without a reset: since `s` the bytes `taken` have
left the attached source, and `events` is what was done on the channels. -/
structure State.Pumping (s u : State) (n : Nat) (taken : List Byte) (events : List Event) : Prop where
  busy : u.busy = true
  srcId : u.srcId = s.srcId
  handler : u.handler = s.handler
  enc : u.enc = s.enc
  trace : u.trace = s.trace ++ events
  env : u.env = s.env.drop n
  srcs_wf : u.srcs.wf
  /-- what the source held and was fed is what was taken and what it still holds (R63, R64) -/
  queue : s.srcQueue ++ fedBytes s.srcId (s.env.take n) = taken ++ u.srcQueue
  lb_wf : s.lb.wf → u.lb.wf
  returns : s.HandlersReturn → u.HandlersReturn
  no_disp : s.dispTx = none → u.dispTx = none

theorem State.Pumping.refl (hb : s.busy = true) (hwf : s.srcs.wf) : s.Pumping s 0 [] [] where
  busy := hb
  srcId := rfl
  handler := rfl
  enc := rfl
  trace := (List.append_nil _).symm
  env := rfl
  srcs_wf := hwf
  queue := List.append_nil _
  lb_wf := id
  returns := id
  no_disp := id

/-- The moments of `u` are those of `s` from the `n`-th on. -/
theorem State.Pumping.spared_one (h : s.Pumping u n taken events) (hs : s.Spared (n + 1)) : u.Spared 1 := by
  intro tick htick
  refine hs tick ?_
  rw [List.take_add]
  exact List.mem_append_right _ (h.env ▸ htick)

/-- What is left in the source: the bytes behind those that were taken, and what was fed (R64). -/
theorem State.Pumping.srcQueue (h : s.Pumping u n taken events) (hq : s.srcQueue = taken ++ rest) :
    u.srcQueue = rest ++ fedBytes s.srcId (s.env.take n) := by
  have hqueue := h.queue
  rw [hq, List.append_assoc] at hqueue
  exact (List.append_cancel_left hqueue).symm

/-- A moment without a reset leaves the Line Buffer alone, too. -/
theorem State.Pumping.tick (h : s.Pumping u n taken events) (hs : s.Spared (n + 1)) :
    s.Pumping (u.tick hw) (n + 1) taken events ∧ (u.tick hw).candidate = u.candidate := by
  obtain ⟨srcs, cmdq, dispTx, htick, hwf, hget, -, hdisp⟩ := tick_of_spared hw (h.spared_one hs) h.srcs_wf
  rw [htick]
  refine ⟨{ h with
    env := by rw [h.env, List.drop_drop]
    srcs_wf := hwf
    queue := ?_
    no_disp := fun hd => hdisp.elim (·.trans (h.no_disp hd)) id }, rfl⟩
  have hfed : u.srcQueue ++ fedBytes s.srcId ((s.env.drop n).take 1) = srcs.get u.srcId := by
    rw [hget, State.srcQueue, h.env, h.srcId]
  rw [List.take_add, fedBytes_append, ← List.append_assoc, h.queue, List.append_assoc, hfed]
  rfl

/-- A `SrcRead()` that answers a byte. -/
theorem State.Pumping.srcTake (h : s.Pumping u n taken events) (hq : u.srcQueue = b :: q) :
    s.Pumping (u.srcTake b q) n (taken ++ [b]) (events ++ [.srcRead s.srcId (some b)]) :=
  { h with
    trace := by rw [State.srcTake_trace, h.trace, h.srcId, List.append_assoc]
    srcs_wf := Queues.set_wf h.srcs_wf u.srcId q
    queue := by
      have hrest : (u.srcTake b q).srcQueue = q := Queues.get_set_self h.srcs_wf u.srcId q
      rw [h.queue, hq, hrest, List.append_assoc, List.singleton_append] }

/-- A `SrcRead()` that answers `none`. -/
theorem State.Pumping.srcNone (h : s.Pumping u n taken events) :
    s.Pumping u.srcNone n taken (events ++ [.srcRead s.srcId none]) :=
  { h with trace := by rw [State.srcNone_trace, h.trace, h.srcId, List.append_assoc] }

theorem State.Pumping.storeByte (h : s.Pumping u n taken events) (b : Byte) :
    s.Pumping (u.storeByte hw b) n taken events := by
  have hlb := fun hs => storeByte_lb_wf hw b (h.lb_wf hs)
  unfold State.storeByte at hlb ⊢
  split at hlb
  · next hlt => rw [if_pos hlt]; exact { h with lb_wf := hlb }
  · next hlt => rw [if_neg hlt]; exact { h with lb_wf := hlb }

/-- A line that is handled with a handler that returns (R215, R216, R217). -/
theorem State.Pumping.handleLine (h : s.Pumping u n taken events) (hret : s.HandlersReturn) (line : Line) :
    s.Pumping (handleLine line u) n taken (events ++ lineEvents s.handler line) where
  busy := handleLine_busy line h.busy
  srcId := (handleLine_srcId line u).trans h.srcId
  handler := by rw [State.handler, handleLine_hndSet, handleLine_hndId]; exact h.handler
  enc := (handleLine_enc line u).trans h.enc
  trace := by rw [handleLine_trace, h.trace, h.handler, List.append_assoc]
  env := (handleLine_env line u).trans h.env
  srcs_wf := (handleLine_srcs line u).symm ▸ h.srcs_wf
  queue := h.queue.trans (congrArg (taken ++ ·) (handleLine_srcQueue line u).symm)
  lb_wf hs := (handleLine_lb line u).symm ▸ h.lb_wf hs
  returns _ := handleLine_keeps State.HandlersReturn line (fun _ _ _ h => h)
    (fun _ _ _ h _ held hin => h held (List.mem_of_mem_tail hin)) (fun _ _ _ h => h) u (h.returns hret)
  no_disp hs := (handleLine_keeps (fun u => u.HandlersReturn ∧ u.dispTx = none) line (fun _ _ _ h => h)
    (fun m u _ ⟨hret, hd⟩ _ => by
      rw [dispatch_of_returning m (headD_of_handlersReturn hret)]
      exact ⟨fun held hin => hret held (List.mem_of_mem_tail hin), hd⟩)
    (fun _ _ _ h => h) u ⟨h.returns hret, h.no_disp hs⟩).2

/-! ### The bytes of a line -/

theorem take_append_take {α : Type} (k : Nat) (xs ys : List α) : (xs.take k ++ ys).take k = (xs ++ ys).take k := by
  simp only [List.take_append, List.take_take, List.length_take, Nat.min_self]
  congr 2
  omega

/-- One pull of READ_LINE: a moment, and the byte leaves the source and is kept if it fits (R133, R134). -/
theorem State.Pumping.pull (h : s.Pumping u n taken events) (hb : b ≠ hw.term) (hq : s.srcQueue = taken ++ b :: rest)
    (hs : s.Spared (n + 1)) (hlen : u.lbLen ≤ hw.lineCap) :
    ∃ v, s.Pumping v (n + 1) (taken ++ [b]) (events ++ [.srcRead s.srcId (some b)]) ∧
      readTicks hw u.env u = readTicks hw v.env v ∧ v.lbLen ≤ hw.lineCap ∧
      (s.lb.wf → v.candidate = (u.candidate ++ [b]).take hw.lineCap) := by
  obtain ⟨htick, hcandidate⟩ := h.tick hs
  have hhead := htick.srcQueue hq
  have hlen' : (u.tick hw).lbLen ≤ hw.lineCap := by rwa [← candidate_length, hcandidate, candidate_length]
  exact ⟨_, (htick.srcTake hhead).storeByte b, readTicks_of_byte hw htick.busy h.srcs_wf hhead hb,
    storeByte_lbLen_le_lineCap _ hlen', fun hlb => hcandidate ▸ candidate_storeByte hw b (htick.lb_wf hlb) hlen'⟩

/-- The pulls of READ_LINE before a terminator or the end of the source: the bytes leave the source, and the Line Buffer
keeps those that fit (R131 to R134). -/
theorem State.Pumping.pulls (read : List Byte) (h : s.Pumping u n taken events) (hterm : hw.term ∉ read)
    (hq : s.srcQueue = taken ++ read ++ rest) (hs : s.Spared (n + read.length)) (hlen : u.lbLen ≤ hw.lineCap) :
    ∃ v, s.Pumping v (n + read.length) (taken ++ read) (events ++ byteReads s.srcId read) ∧
      readTicks hw u.env u = readTicks hw v.env v ∧
      (s.lb.wf → v.candidate = (u.candidate ++ read).take hw.lineCap) := by
  induction read generalizing u n taken events with
  | nil =>
    refine ⟨u, by simpa [byteReads] using h, rfl, fun _ => ?_⟩
    rw [List.append_nil, List.take_of_length_le (candidate_length u ▸ hlen)]
  | cons b read ih =>
    simp only [List.mem_cons, not_or] at hterm
    have hlater : n + (b :: read).length = n + 1 + read.length := by rw [List.length_cons]; omega
    have hreads : byteReads s.srcId (b :: read) = [.srcRead s.srcId (some b)] ++ byteReads s.srcId read := rfl
    rw [hlater] at hs ⊢
    obtain ⟨v, hv, he, hlen', hbyte⟩ :=
      h.pull (Ne.symm hterm.1) (hq.trans (List.append_assoc ..)) ((spared_add hw).1 hs).1 hlen
    rw [List.append_cons] at hq ⊢
    obtain ⟨w, hw', he', hline⟩ := ih hv hterm.2 hq hs hlen'
    refine ⟨w, by rwa [hreads, ← List.append_assoc], he.trans he', fun hlb => ?_⟩
    rw [hline hlb, hbyte hlb, take_append_take, List.append_assoc, List.singleton_append]

/-- The head of the pump's loop resets the Line Buffer (R131, R211). -/
theorem State.Pumping.startLine (h : s.Pumping u n taken events) : s.Pumping u.startLine.clearTerm n taken events :=
  { h with }

/-- READ_LINE up to the last byte before a terminator, the end of the source or a reset. -/
theorem State.Pumping.readLine (h : s.Pumping u n taken events) (hterm : hw.term ∉ read)
    (hq : s.srcQueue = taken ++ read ++ rest) (hs : s.Spared (n + read.length)) :
    ∃ v, s.Pumping v (n + read.length) (taken ++ read) (events ++ byteReads s.srcId read) ∧
      readLine hw u.startLine = readTicks hw v.env v ∧ (s.lb.wf → v.candidate = read.take hw.lineCap) :=
  h.startLine.pulls read hterm hq hs (Nat.zero_le _)

/-- READ_LINE of a line that the terminator ends (R137). -/
theorem State.Pumping.readLine_term (h : s.Pumping u n taken events) (hterm : hw.term ∉ l)
    (hq : s.srcQueue = taken ++ l ++ hw.term :: rest) (hs : s.Spared (n + l.length + 1)) :
    s.Pumping (Machine.readLine hw u.startLine) (n + l.length + 1) (taken ++ l ++ [hw.term])
        (events ++ byteReads s.srcId (l ++ [hw.term])) ∧
      (s.lb.wf → (Machine.readLine hw u.startLine).candidate = l.take hw.lineCap) := by
  obtain ⟨v, hv, he, hline⟩ := h.readLine hterm hq ((spared_add hw).1 hs).1
  obtain ⟨htick, hcandidate⟩ := hv.tick hs
  have hhead := htick.srcQueue hq
  have hreads : byteReads s.srcId (l ++ [hw.term]) = byteReads s.srcId l ++ [.srcRead s.srcId (some hw.term)] :=
    List.map_append
  rw [he, readTicks_of_term hw htick.busy hhead, hreads, ← List.append_assoc]
  exact ⟨{ htick.srcTake hhead with }, fun hlb => hcandidate.trans (hline hlb)⟩

/-- READ_LINE of a line that the end of the source ends (R132). -/
theorem State.Pumping.readLine_none (h : s.Pumping u n taken events) (hterm : hw.term ∉ l)
    (hq : s.srcQueue = taken ++ l) (hs : s.Spared (n + l.length + 1))
    (hfed : fedBytes s.srcId (s.env.take (n + l.length + 1)) = []) :
    s.Pumping (Machine.readLine hw u.startLine) (n + l.length + 1) (taken ++ l)
      (events ++ byteReads s.srcId l ++ [.srcRead s.srcId none]) := by
  have hq' : s.srcQueue = taken ++ l ++ [] := hq.trans (List.append_nil _).symm
  obtain ⟨v, hv, he, -⟩ := h.readLine hterm hq' ((spared_add hw).1 hs).1
  obtain ⟨htick, -⟩ := hv.tick hs
  have hempty := (htick.srcQueue hq').trans hfed
  rw [he, readTicks_of_none hw htick.busy hempty]
  exact { htick.srcNone with }

/-! ### Complete lines -/

/-- An iteration of the loop that handles a complete line, with a handler that returns. -/
theorem State.Pumping.iteration (h : s.Pumping u n taken events) (hret : s.HandlersReturn) (hd : s.dispTx = none)
    (hlb : s.lb.wf) (hl : l ≠ []) (hterm : hw.term ∉ l) (hq : s.srcQueue = taken ++ l ++ hw.term :: rest)
    (hs : s.Spared (n + l.length + 2)) :
    ∃ v, pumpIter u = .again v ∧ s.Pumping v (n + l.length + 2) (taken ++ l ++ [hw.term])
      (events ++ byteReads s.srcId (l ++ [hw.term]) ++ lineEvents s.handler (l.take hw.lineCap)) := by
  obtain ⟨hread, hline⟩ := h.readLine_term hterm hq ((spared_add (m := n + l.length + 1) (n := 1) hw).1 hs).1
  obtain ⟨htake, hcandidate⟩ := hread.tick hs
  have hmoment : takeLine hw u = (Machine.readLine hw u.startLine).tick hw := by
    rw [takeLine, State.moment, if_pos hread.busy]
  rw [← hmoment] at htake hcandidate
  rw [hline hlb] at hcandidate
  have hlen : (takeLine hw u).lbLen ≠ 0 := by
    have hpos := List.length_pos_iff.2 hl
    have hcap : hw.lineCap = 300 := rfl
    rw [← candidate_length, hcandidate, List.length_take]
    omega
  have hnext := htake.handleLine hret (l.take hw.lineCap)
  rcases pumpIter_cases u with ⟨hf, -⟩ | ⟨-, hf, -⟩ | ⟨-, -, t, rfl, ⟨hf, -⟩ | ⟨-, he⟩⟩
  · exact absurd (htake.busy.symm.trans hf) nofun
  · exact absurd hf hlen
  · rw [hcandidate, hnext.no_disp hd] at hf
    cases hf
  · exact ⟨_, by rw [he, hcandidate], hnext⟩

/-- Each of the complete lines is handled, with one moment more than it has bytes (log 4). -/
theorem State.Pumping.pumpLoop_lines (k : Nat) (h : s.Pumping u n taken events) (hret : s.HandlersReturn)
    (hd : s.dispTx = none) (hlb : s.lb.wf) (hlines : LinesProper lines) (hq : s.srcQueue = taken ++ lineBytes hw lines ++ rest)
    (hs : s.Spared (n + (lineBytes hw lines).length + lines.length)) :
    ∃ v, pumpLoop (lines.length + k) u = pumpLoop k v ∧
      s.Pumping v (n + (lineBytes hw lines).length + lines.length) (taken ++ lineBytes hw lines)
        (events ++ completeLineEvents s.srcId s.handler lines) := by
  induction lines generalizing u n taken events with
  | nil => exact ⟨u, by rw [List.length_nil, Nat.zero_add], by simpa [lineBytes, completeLineEvents] using h⟩
  | cons l lines ih =>
    obtain ⟨⟨hl, hterm⟩, hlines⟩ := List.forall_mem_cons.1 hlines
    have hbytes : taken ++ lineBytes hw (l :: lines) = taken ++ l ++ [hw.term] ++ lineBytes hw lines := by
      simp [lineBytes]
    have hevents : events ++ completeLineEvents s.srcId s.handler (l :: lines) =
        events ++ byteReads s.srcId (l ++ [hw.term]) ++ lineEvents s.handler (l.take hw.lineCap) ++
          completeLineEvents s.srcId s.handler lines := by
      simp [completeLineEvents]
    have hmoments : n + (lineBytes hw (l :: lines)).length + (l :: lines).length =
        n + l.length + 2 + (lineBytes hw lines).length + lines.length := by
      simp only [lineBytes, List.flatMap_cons, List.length_append, List.length_cons, List.length_nil]
      omega
    rw [hbytes] at hq ⊢
    rw [hmoments] at hs ⊢
    rw [hevents, List.length_cons, Nat.add_right_comm, pumpLoop]
    obtain ⟨v, he, hv⟩ := h.iteration (rest := lineBytes hw lines ++ rest) hret hd hlb hl hterm (by simp [hq])
      ((spared_add hw).1 ((spared_add hw).1 hs).1).1
    rw [he]
    exact ih hv hlines hq hs

/-! ### The reset -/

/-- What a reset leaves of a PUMP_ONCE that ran in `s`: on the channels `events`, and in the source `rest`; a detached
block with the values of R40, which has ENC and the later schedule as they were (R300, R301). -/
def State.CutTo (s : State) (events : List Event) (rest : List Byte) (later : List Tick) (t : State) : Prop :=
  t.trace = s.trace ++ events ∧ t.pstate = .detached ∧ t.busy = false ∧ t.hndSet = false ∧ t.lbLen = 0 ∧ t.cmdq = [] ∧
    t.dispTx = none ∧ t.srcs.get s.srcId = rest ∧ t.enc = s.enc ∧ t.env = later

/-- The schedule of a PUMP_ONCE that is aborted: moments without a reset, then one that is nothing else. -/
structure State.ResetAfter (s : State) (before later : List Tick) : Prop where
  env : s.env = before ++ [.reset] :: later
  spared : ∀ tick ∈ before, EnvEvent.reset ∉ tick

theorem State.ResetAfter.spared_of_le (h : s.ResetAfter before later) (hn : n ≤ before.length) : s.Spared n := by
  intro tick htick
  rw [h.env, List.take_append_of_le_length hn] at htick
  exact h.spared tick (List.mem_of_mem_take htick)

theorem State.Pumping.env_of_resetAfter (h : s.Pumping u n taken events) (hreset : s.ResetAfter before later)
    (hn : before.length = n) : u.env = [.reset] :: later := by
  rw [h.env, hreset.env, List.drop_left' hn]

/-- The moment of the reset. -/
theorem State.Pumping.cutTo (h : s.Pumping u n taken events) (hreset : s.ResetAfter before later)
    (hn : before.length = n) (hq : s.srcQueue = taken ++ rest) :
    s.CutTo events (rest ++ fedBytes s.srcId before) later (u.tick hw) := by
  have hqueue := h.srcQueue hq
  rw [hreset.env, List.take_left' hn, State.srcQueue, h.srcId] at hqueue
  simp only [State.tick, h.env_of_resetAfter hreset hn]
  exact ⟨h.trace, rfl, rfl, rfl, rfl, rfl, rfl, hqueue, h.enc, rfl⟩

/-- The reset strikes before a `SrcRead()`: READ_LINE is left with the bytes it has read. -/
theorem State.Pumping.takeLine_cutTo (h : s.Pumping u n taken events) (hreset : s.ResetAfter before later)
    (hterm : hw.term ∉ read) (hn : before.length = n + read.length) (hq : s.srcQueue = taken ++ read ++ q) :
    s.CutTo (events ++ byteReads s.srcId read) (q ++ fedBytes s.srcId before) later (takeLine hw u) := by
  obtain ⟨v, hv, he, -⟩ := h.readLine hterm hq (hreset.spared_of_le (Nat.le_of_eq hn.symm))
  have hcut := hv.cutTo hreset hn hq
  have hstruck : v.Struck := ⟨[.reset], later, hv.env_of_resetAfter hreset hn, List.mem_singleton.2 rfl⟩
  have hstop : takeLine hw u = v.tick hw := by
    rw [takeLine, he, readTicks_of_struck hw hstruck, State.moment, (tick_of_struck hw hstruck).2.1,
      if_neg Bool.false_ne_true]
  rwa [hstop]

/-- The reset strikes in the moment behind READ_LINE: the line is lost whole. -/
theorem State.Pumping.takeLine_cutTo_of_readLine (h : s.Pumping (Machine.readLine hw u.startLine) n taken events)
    (hreset : s.ResetAfter before later) (hn : before.length = n) (hq : s.srcQueue = taken ++ rest) :
    s.CutTo events (rest ++ fedBytes s.srcId before) later (takeLine hw u) := by
  rw [takeLine, State.moment, if_pos h.busy]
  exact h.cutTo hreset hn hq

/-! ### The command and the step that are aborted -/

/-- A PUMP_ONCE that is aborted while it takes a line behind complete ones. -/
theorem exec_pumpOnce_cutTo (hp : s.pstate ≠ .detached) (hret : s.HandlersReturn) (hd : s.dispTx = none)
    (hwf : s.srcs.wf) (hlb : s.lb.wf) (hlines : LinesProper lines) (hq : s.srcQueue = lineBytes hw lines ++ q)
    (hs : s.Spared ((lineBytes hw lines).length + lines.length))
    (hcut : ∀ u, s.accept.Pumping u ((lineBytes hw lines).length + lines.length) (lineBytes hw lines)
      (completeLineEvents s.srcId s.handler lines) → s.accept.CutTo events rest later (takeLine hw u)) :
    ∃ t, exec .pumpOnce s = .next t ∧ s.CutTo events rest later t := by
  have hattempts := length_le_length_lineBytes lines
  have hbound : lines.length + 1 ≤ pumpBound s.accept := by
    rw [pumpBound, show s.accept.srcQueue = s.srcQueue from rfl, hq, List.length_append]
    omega
  obtain ⟨k, hk⟩ := Nat.exists_eq_add_of_le hbound
  rw [Nat.add_assoc, Nat.add_comm 1] at hk
  obtain ⟨u, hloop, hu⟩ := (State.Pumping.refl (s := s.accept) rfl hwf).pumpLoop_lines (rest := q) (k + 1) hret hd hlb
    hlines hq (by rwa [Nat.zero_add])
  rw [Nat.zero_add] at hu
  have hcut := hcut u hu
  have haborted : (takeLine hw u).busy = false := hcut.2.2.1
  refine ⟨pumpOnce s.accept, rfl, ?_⟩
  rw [pumpOnce, if_neg (State.accept_pstate s ▸ hp), hk, hloop, pumpLoop, pumpIter_of_aborted haborted]
  exact hcut

/-- A step of a PUMP_ONCE that is aborted while it takes its line (log 6). -/
theorem step_cutTo (hb : (s.tick hw).busy = true) (hd : (s.tick hw).dispTx = none) (hp : (s.tick hw).pstate ≠ .detached)
    (hcut : (s.tick hw).CutTo events rest later (takeLine hw (s.tick hw))) :
    ∃ t, step s = .next t ∧ (s.tick hw).CutTo events rest later t := by
  have haborted : (takeLine hw (s.tick hw)).busy = false := hcut.2.2.1
  rcases step_at_loop_head hb hd hp with ⟨-, he⟩ | ⟨hf, -⟩ | ⟨hf, -⟩
  · exact ⟨_, he, hcut⟩
  · exact absurd (haborted.symm.trans hf) nofun
  · exact absurd (haborted.symm.trans hf) nofun

/-! ### The statements -/

/-- Settles O55: as many moments as there are lines and bytes before the reset, which then finds READ_LINE before its next
`SrcRead()`. -/
theorem resetAbortsTheRunningPump : Obligations.ResetAbortsTheRunningPump := by
  refine ⟨fun s lines read q before later hp hret hd hwf hlb hlines hterm hq hspared hn henv => ?_,
    fun s read q before later hb hd hp hwf hterm hq hspared hn henv => ?_⟩
  · have hreset : s.accept.ResetAfter before later := ⟨henv, hspared⟩
    rw [List.length_append] at hn
    obtain ⟨t, he, ht⟩ := exec_pumpOnce_cutTo hp hret hd hwf hlb hlines (hq.trans (List.append_assoc ..))
      (hreset.spared_of_le (by omega)) fun u hu => hu.takeLine_cutTo hreset hterm (by omega) hq
    rw [State.CutTo, ← List.append_assoc] at ht
    exact ⟨t, he, ht⟩
  · obtain ⟨t, he, ht⟩ := step_cutTo hb hd hp
      ((State.Pumping.refl hb hwf).takeLine_cutTo ⟨henv, hspared⟩ hterm (hn.trans (Nat.zero_add _).symm) hq)
    rw [State.CutTo, tick_trace, tick_enc] at ht
    exact ⟨t, he, ht⟩

/-- Settles O57: one moment more than in O55 is that of the terminator, or of the `none`, and the reset then finds the pump
with a whole line in the Line Buffer. -/
theorem resetBetweenALineAndItsEvent : Obligations.ResetBetweenALineAndItsEvent := by
  refine ⟨fun s lines l q before later hp hret hd hwf hlb hlines hterm hq hspared hn henv => ?_,
    fun s lines l before later hp hret hd hwf hlb hlines hterm hq hspared hn hfed henv => ?_,
    fun s l q before later hb hd hp hwf hterm hq hspared hn henv => ?_⟩
  · have hreset : s.accept.ResetAfter before later := ⟨henv, hspared⟩
    rw [List.length_append] at hn
    obtain ⟨t, he, ht⟩ := exec_pumpOnce_cutTo hp hret hd hwf hlb hlines (hq.trans (List.append_assoc ..))
      (hreset.spared_of_le (by omega)) fun u hu =>
        (hu.readLine_term hterm hq (hreset.spared_of_le (by omega))).1.takeLine_cutTo_of_readLine hreset (by omega)
          (hq.trans (List.append_cons ..))
    rw [State.CutTo, ← List.append_assoc] at ht
    exact ⟨t, he, ht⟩
  · have hreset : s.accept.ResetAfter before later := ⟨henv, hspared⟩
    rw [List.length_append] at hn
    have hn' : before.length = (lineBytes hw lines).length + lines.length + l.length + 1 := by omega
    have hall : s.env.take ((lineBytes hw lines).length + lines.length + l.length + 1) = before := by
      rw [henv, List.take_left' hn']
    have hrest : [] ++ fedBytes s.accept.srcId before = [] := hfed
    obtain ⟨t, he, ht⟩ := exec_pumpOnce_cutTo hp hret hd hwf hlb hlines hq (hreset.spared_of_le (by omega)) fun u hu =>
      (hu.readLine_none hterm hq (hreset.spared_of_le (Nat.le_of_eq hn'.symm))
        ((congrArg (fedBytes s.srcId) hall).trans hfed)).takeLine_cutTo_of_readLine hreset hn'
          (hq.trans (List.append_nil _).symm)
    rw [State.CutTo, hrest, ← List.append_assoc, ← List.append_assoc] at ht
    exact ⟨t, he, ht⟩
  · have hreset : (s.tick hw).ResetAfter before later := ⟨henv, hspared⟩
    have hn' : before.length = 0 + l.length + 1 := by omega
    obtain ⟨hread, -⟩ := (State.Pumping.refl hb hwf).readLine_term hterm hq
      (hreset.spared_of_le (Nat.le_of_eq hn'.symm))
    obtain ⟨t, he, ht⟩ := step_cutTo hb hd hp
      (hread.takeLine_cutTo_of_readLine hreset hn' (hq.trans (List.append_cons ..)))
    rw [State.CutTo, tick_trace, tick_enc] at ht
    exact ⟨t, he, ht⟩

end Sys2Proof.Machine
end
